-- ==== Sys2Proof/Word.lean ====
section
/-!
DEFINITION. The bit-level types of the block: bytes, operation words and frames.
-/

namespace Sys2Proof

/-- A byte of storage or of a frame (R61). -/
abbrev Byte := BitVec 8

/-- The 32-bit operation word (R80, R81). -/
abbrev OpWord := BitVec 32

/-- A frame: its bytes in index order (R17, R63). The length the spec pairs with them is the length of the list;
where storage holds the length on its own, `State` does too. -/
abbrev Frame := List Byte

end Sys2Proof
end

