-- ==== Sys2Proof/Config.lean ====
section
/-!
DEFINITION. The implementation parameters (R8), their constraints, the derived widths (R9) and the reference values.
The block has no free value: every value the spec leaves open is an operand of an offer or one of these parameters.
-/

namespace Sys2Proof

/-- The parameters a model takes (R8). They are not state of the block (R21): `State.params` carries them so that a
statement about every state holds for every parameter value, and no step changes them. -/
structure Params where
  /-- `N`, the TX queue depth in frames. -/
  n : Nat
  /-- `TX_MAX`, the largest TX frame length in bytes. -/
  txMax : Nat
  /-- `RX_CAP`, the capacity in bytes of each RX buffer. -/
  rxCap : Nat
  /-- `RX_FULL_DELIVERS`: a buffer filled without a terminator is delivered (R165) or an overflow (R164). -/
  rxFullDelivers : Bool
  /-- `N_CTX`, the number of ordinary contexts. -/
  nCtx : Nat
  /-- `HAS_TX_DONE`: the TX-completion signal and TX_WAIT exist. -/
  hasTxDone : Bool
deriving DecidableEq, Repr

/-- The constraints of R8's table. -/
abbrev Params.wf (p : Params) : Prop :=
  1 ≤ p.n ∧ p.txMax ≤ 65535 ∧ 1 ≤ p.rxCap ∧ p.rxCap ≤ 65535 ∧ 1 ≤ p.nCtx

/-- The reference values of R8. `N_CTX` and `HAS_TX_DONE` are OPEN there: 2 contexts and the TX-completion variant
present are a DESIGN CHOICE (log 1; safe: no statement rests on them). -/
def Params.reference : Params :=
  { n := 4, txMax := 64, rxCap := 64, rxFullDelivers := false, nCtx := 2, hasTxDone := true }

/-- `ceil(log2 m)` (R9). -/
def ceilLog2 (m : Nat) : Nat :=
  if m ≤ 1 then 0 else Nat.log2 (m - 1) + 1

/-- `IDXW`, the width of `head` and `tail` (R9). -/
def Params.idxw (p : Params) : Nat := max 1 (ceilLog2 p.n)

/-- `CNTW`, the width of `count` (R9). -/
def Params.cntw (p : Params) : Nat := ceilLog2 (p.n + 1)

/-- `TLW`, the width of a TX length or cursor, at least 1 (R9). -/
def Params.tlw (p : Params) : Nat := max 1 (ceilLog2 (p.txMax + 1))

/-- `RLW`, the width of an RX position or payload length (R9). -/
def Params.rlw (p : Params) : Nat := ceilLog2 (p.rxCap + 1)

/-- `RX_MAXP`, the largest payload delivered (R39, R162). -/
def Params.rxMaxp (p : Params) : Nat :=
  if p.rxFullDelivers then p.rxCap else p.rxCap - 1

end Sys2Proof
end

