-- ==== Sys2Proof/Syntax.lean ====
section
/-!
DEFINITION. The operations of the block (one constructor per row of the opcode table), the agents that issue them and
the offers in which the agents present them.
-/

namespace Sys2Proof

/-- The agents that take steps (R11). -/
inductive Agent where
  /-- The environment: it issues RESET. -/
  | env
  /-- The interrupt side: it performs TX_READY and RX_BYTE. -/
  | irq
  /-- The ordinary context `c`. -/
  | ctx (c : Nat)
deriving DecidableEq, Repr

/-- The timeout draw of one TX_WAIT attempt (R187). -/
inductive Draw where
  /-- Try to take the signal. -/
  | take
  /-- The bounded wait expires. -/
  | expire
deriving DecidableEq, Repr

/-- What an agent presents to the block (R80): the operation word, the data operand if there is one (R83), and the
timeout draw, which TX_WAIT alone reads. -/
structure Offer where
  agent : Agent
  word : OpWord
  data : Option Frame
  draw : Draw
deriving DecidableEq, Repr

/-- The operations, events and continuations (R84). A context number `c` names the issuing context; the operations
without one have a single possible issuer. A frame operand `d` stands for the pair `L`, `D` with `L = len(D)` (R82, R83). -/
inductive Instr where
  /-- RESET, by the environment (R200). -/
  | reset
  /-- ACTIVATE, by context `c` with the outcome of the readiness check (R203). -/
  | activate (c : Nat) (devReady : Bool)
  /-- SEND, by context `c` (R120). -/
  | send (c : Nat) (d : Frame)
  /-- SIG_TAKE, by context `c` (R181). -/
  | sigTake (c : Nat)
  /-- MBX_READ, by context `c` (R182). -/
  | mbxRead (c : Nat)
  /-- TX_WAIT, by context `c` with the timeout draw of this attempt (R187). -/
  | txWait (c : Nat) (t : Draw)
  /-- TX_READY, the UART accepts `k` bytes (R140). -/
  | txReady (k : BitVec 16)
  /-- RX_BYTE, the UART received `b` (R160). -/
  | rxByte (b : Byte)
  /-- TXQ_PUSH, internal (R100). -/
  | txqPush (d : Frame)
  /-- TXQ_POP, internal (R101). -/
  | txqPop
  /-- SEND.ENQ, the continuation of context `c`'s SEND on the busy path (R121). -/
  | sendEnq (c : Nat)
  /-- SEND.IEN, the continuation of context `c`'s SEND on the fast path (R122). -/
  | sendIen (c : Nat)
deriving DecidableEq, Repr

/-- Why the block refuses an operation (R237). -/
inductive RefuseReason where
  /-- Bits 27:16 are not zero (R87). -/
  | rsvBits
  /-- A reserved operation code (R86). -/
  | reservedOp
  /-- TXQ_PUSH or TXQ_POP presented by an agent (R88). -/
  | internalOp
  /-- TX_WAIT without HAS_TX_DONE (R85). -/
  | noTxDone
  /-- An agent whose class does not admit the operation, or a continuation mismatch (R85). -/
  | wrongAgent
  /-- `len(D) ≠ L`, or a data operand where none belongs (R85). -/
  | dataLength
  /-- Unused argument bits are not zero (R87). -/
  | argBits
  /-- SEND before activation (R204). -/
  | notActive
  /-- RESET while a continuation is pending (R201). -/
  | resetPending
deriving DecidableEq, Repr

/-- TXQ_PUSH and TXQ_POP, which no agent may present (R88). -/
def Instr.isInternal : Instr → Bool
  | .reset => false
  | .activate _ _ => false
  | .send _ _ => false
  | .sigTake _ => false
  | .mbxRead _ => false
  | .txWait _ _ => false
  | .txReady _ => false
  | .rxByte _ => false
  | .txqPush _ => true
  | .txqPop => true
  | .sendEnq _ => false
  | .sendIen _ => false

end Sys2Proof
end

