-- ==== Sys2Proof/WellFormed.lean ====
section
/-!
DEFINITION. When an instruction can be spelled by an operation word under given parameters: its context exists (R11),
its frame length fits the 16-bit argument (R82), and TX_WAIT exists only with HAS_TX_DONE (R84).
-/

namespace Sys2Proof

/-- The frame's length is an unsigned 16-bit number (R82). -/
abbrev Frame.fits (d : Frame) : Bool := decide (d.length ≤ 65535)

/-- `c` is one of the contexts `c0 .. c(N_CTX-1)` (R11). -/
abbrev Params.hasCtx (p : Params) (c : Nat) : Bool := decide (c < p.nCtx)

/-- The instruction's operands are legal (R82, R11, R84). -/
def Instr.wf (p : Params) : Instr → Bool
  | .reset => true
  | .activate c _ => p.hasCtx c
  | .send c d => p.hasCtx c && Frame.fits d
  | .sigTake c => p.hasCtx c
  | .mbxRead c => p.hasCtx c
  | .txWait c _ => p.hasTxDone && p.hasCtx c
  | .txReady _ => true
  | .rxByte _ => true
  | .txqPush d => Frame.fits d
  | .txqPop => true
  | .sendEnq c => p.hasCtx c
  | .sendIen c => p.hasCtx c

end Sys2Proof
end

