-- ==== Sys2Proof/Decode.lean ====
section
/-!
DEFINITION. The operation word's fields (R81), the opcode map (R84), the decoder (R85), the encoder, and the listing
decoder that also names the internal operations.
-/

namespace Sys2Proof

/-- `op`, bits 31:28 (R81). -/
def opField (w : OpWord) : BitVec 4 := w.extractLsb' 28 4

/-- `rsv`, bits 27:16 (R81). -/
def rsvField (w : OpWord) : BitVec 12 := w.extractLsb' 16 12

/-- `arg`, bits 15:0 (R81). -/
def argField (w : OpWord) : BitVec 16 := w.extractLsb' 0 16

/-- `arg[15:1]`, the bits ACTIVATE does not use (R82). -/
def argAboveReady (a : BitVec 16) : BitVec 15 := a.extractLsb' 1 15

/-- `arg[15:8]`, the bits RX_BYTE does not use (R82). -/
def argAboveByte (a : BitVec 16) : BitVec 8 := a.extractLsb' 8 8

/-- The word with operation code `op`, `rsv = 0` and argument `arg` (R81). -/
def packWord (op : BitVec 4) (arg : BitVec 16) : OpWord := op ++ (0#12 ++ arg)

/-- The classes of the opcode map (R84). -/
inductive OpClass where
  | reserved
  | launch
  | host
  | event
  | internal
  | continuation
deriving DecidableEq, Repr

/-- The class of an operation code (R84). -/
def opClass (op : BitVec 4) : OpClass :=
  if op = 0x1#4 then .launch
  else if op = 0x2#4 ∨ op = 0x3#4 ∨ op = 0x4#4 ∨ op = 0x5#4 ∨ op = 0x6#4 then .host
  else if op = 0x8#4 ∨ op = 0x9#4 then .event
  else if op = 0xC#4 ∨ op = 0xD#4 then .internal
  else if op = 0xE#4 ∨ op = 0xF#4 then .continuation
  else .reserved

/-- Which agents a class admits (the issuer column of R84). A context number beyond `N_CTX` names no context
(DEDUCED from R11, log 10). -/
def OpClass.admits (p : Params) : OpClass → Agent → Bool
  | .reserved, _ => false
  | .internal, _ => false
  | .launch, a => decide (a = .env)
  | .event, a => decide (a = .irq)
  | .host, .ctx c => p.hasCtx c
  | .host, _ => false
  | .continuation, .ctx c => p.hasCtx c
  | .continuation, _ => false

/-- The context an offer comes from; read only for the classes that admit contexts. -/
def Agent.number : Agent → Nat
  | .ctx c => c
  | .env => 0
  | .irq => 0

/-- The operation codes whose argument must be zero (the last-but-two test of R85; TXQ_POP by R101). -/
def argMustBeZero (op : BitVec 4) : Bool :=
  decide (op = 0x1#4 ∨ op = 0x4#4 ∨ op = 0x5#4 ∨ op = 0x6#4 ∨ op = 0xD#4 ∨ op = 0xE#4 ∨ op = 0xF#4)

/-- The data operand an offer carries is the one its operation code asks for: a frame of `arg` bytes for the two codes
that carry one (R83), none for the others (R85). An absent operand where one belongs is refused too (DEDUCED, log 9). -/
def dataMatches (op : BitVec 4) (arg : BitVec 16) (data : Option Frame) : Bool :=
  if op = 0x3#4 ∨ op = 0xC#4 then decide (data.map List.length = some arg.toNat)
  else data.isNone

/-- The unused argument bits are zero (R82, R87). -/
def argClean (op : BitVec 4) (arg : BitVec 16) : Bool :=
  if op = 0x2#4 then decide (argAboveReady arg = 0)
  else if op = 0x9#4 then decide (argAboveByte arg = 0)
  else if argMustBeZero op then decide (arg = 0)
  else true

/-- The operation an operation code names, with its operands (R82, R84); `none` for the reserved codes (R86). -/
def spell (op : BitVec 4) (arg : BitVec 16) (o : Offer) : Option Instr :=
  let c := o.agent.number
  if op = 0x1#4 then some .reset
  else if op = 0x2#4 then some (.activate c (arg.getLsbD 0))
  else if op = 0x3#4 then some (.send c (o.data.getD []))
  else if op = 0x4#4 then some (.sigTake c)
  else if op = 0x5#4 then some (.mbxRead c)
  else if op = 0x6#4 then some (.txWait c o.draw)
  else if op = 0x8#4 then some (.txReady arg)
  else if op = 0x9#4 then some (.rxByte (arg.extractLsb' 0 8))
  else if op = 0xC#4 then some (.txqPush (o.data.getD []))
  else if op = 0xD#4 then some .txqPop
  else if op = 0xE#4 then some (.sendEnq c)
  else if op = 0xF#4 then some (.sendIen c)
  else none

/-- The decoder of R85, test by test in its order. Its last two tests read the issuing context's continuation, which is
state: the meanings make them (`asIssuer`, `execSendEnq`, `execSendIen`), after all of these and before any effect (log 8). -/
def decode (p : Params) (o : Offer) : Except RefuseReason Instr :=
  let op := opField o.word
  let arg := argField o.word
  if rsvField o.word ≠ 0 then .error .rsvBits
  else if opClass op = .reserved then .error .reservedOp
  else if opClass op = .internal then .error .internalOp
  else if op = 0x6#4 ∧ p.hasTxDone = false then .error .noTxDone
  else if (opClass op).admits p o.agent = false then .error .wrongAgent
  else if dataMatches op arg o.data = false then .error .dataLength
  else if argClean op arg = false then .error .argBits
  else match spell op arg o with
    | some i => .ok i
    | none => .error .reservedOp

/-- The listing decoder: the operation a word names in rules and listings, internal operations included (R84's last
sentence). It makes no test of the agent. The block itself refuses the internal ones (`decode`). -/
def decodeListing (o : Offer) : Option Instr :=
  let op := opField o.word
  let arg := argField o.word
  if rsvField o.word ≠ 0 then none
  else if dataMatches op arg o.data = false then none
  else if argClean op arg = false then none
  else spell op arg o

/-- The operation code of an instruction (R84). -/
def Instr.opcode : Instr → BitVec 4
  | .reset => 0x1#4
  | .activate _ _ => 0x2#4
  | .send _ _ => 0x3#4
  | .sigTake _ => 0x4#4
  | .mbxRead _ => 0x5#4
  | .txWait _ _ => 0x6#4
  | .txReady _ => 0x8#4
  | .rxByte _ => 0x9#4
  | .txqPush _ => 0xC#4
  | .txqPop => 0xD#4
  | .sendEnq _ => 0xE#4
  | .sendIen _ => 0xF#4

/-- The argument of an instruction's word (R82). -/
def Instr.argument : Instr → BitVec 16
  | .reset => 0
  | .activate _ r => if r then 1 else 0
  | .send _ d => BitVec.ofNat 16 d.length
  | .sigTake _ => 0
  | .mbxRead _ => 0
  | .txWait _ _ => 0
  | .txReady k => k
  | .rxByte b => b.setWidth 16
  | .txqPush d => BitVec.ofNat 16 d.length
  | .txqPop => 0
  | .sendEnq _ => 0
  | .sendIen _ => 0

/-- The agent that issues an instruction (R84). The internal operations have none; `irq` stands there, and no decoder
reads it. -/
def Instr.issuer : Instr → Agent
  | .reset => .env
  | .activate c _ => .ctx c
  | .send c _ => .ctx c
  | .sigTake c => .ctx c
  | .mbxRead c => .ctx c
  | .txWait c _ => .ctx c
  | .txReady _ => .irq
  | .rxByte _ => .irq
  | .txqPush _ => .irq
  | .txqPop => .irq
  | .sendEnq c => .ctx c
  | .sendIen c => .ctx c

/-- The data operand an instruction carries (R83). -/
def Instr.dataOperand : Instr → Option Frame
  | .reset => none
  | .activate _ _ => none
  | .send _ d => some d
  | .sigTake _ => none
  | .mbxRead _ => none
  | .txWait _ _ => none
  | .txReady _ => none
  | .rxByte _ => none
  | .txqPush d => some d
  | .txqPop => none
  | .sendEnq _ => none
  | .sendIen _ => none

/-- The draw an instruction carries; `take` where there is none. -/
def Instr.drawOperand : Instr → Draw
  | .reset => .take
  | .activate _ _ => .take
  | .send _ _ => .take
  | .sigTake _ => .take
  | .mbxRead _ => .take
  | .txWait _ t => t
  | .txReady _ => .take
  | .rxByte _ => .take
  | .txqPush _ => .take
  | .txqPop => .take
  | .sendEnq _ => .take
  | .sendIen _ => .take

/-- The operation word of an instruction (R81, R84). -/
def encodeWord (i : Instr) : OpWord := packWord i.opcode i.argument

/-- The offer that presents an instruction: its word, issuer, data operand and draw. -/
def encode (i : Instr) : Offer :=
  { agent := i.issuer, word := encodeWord i, data := i.dataOperand, draw := i.drawOperand }

/-- The agent that a word of the opcode table is presented by when nothing else says: the environment for RESET, the
interrupt side for the events, context 0 for the rest (DESIGN CHOICE, log 11). -/
def tableAgent (op : BitVec 4) : Agent :=
  match opClass op with
  | .launch => .env
  | .event => .irq
  | .reserved => .ctx 0
  | .host => .ctx 0
  | .internal => .ctx 0
  | .continuation => .ctx 0

/-- The data operand of a bare word of the opcode table: `arg` zero bytes where the code carries a frame (log 11). -/
def tableData (op : BitVec 4) (arg : BitVec 16) : Option Frame :=
  if op = 0x3#4 ∨ op = 0xC#4 then some (List.replicate arg.toNat 0) else none

/-- The offer of a word of the opcode table: the low `nbits` bits of `w`, the rest zero. The word is a number on a port,
with no byte order (R81, R63). -/
def tableOffer (nbits w : Nat) : Offer :=
  let word : OpWord := BitVec.ofNat 32 (w % 2 ^ nbits)
  { agent := tableAgent (opField word), word := word,
    data := tableData (opField word) (argField word), draw := .take }

/-- The instruction a word of the opcode table names. -/
def decodeTableWord (nbits w : Nat) : Option Instr := decodeListing (tableOffer nbits w)

end Sys2Proof
end

