-- ==== Sys2Proof/Machine/State.lean ====
section
/-!
DEFINITION. The state of the block (R21), as plain data, the model's own fields beside it, the reasons a step can stop,
and the state after reset (R50, R250).
-/

namespace Sys2Proof.Machine

/-- One internal byte storage (R61): its written bytes as (index, byte) cells in one canonical form. A byte that is not
listed has not been written since reset and has no value (R51, log 6). -/
abbrev Memory := List Host.Cell

/-- The canonical form: indices strictly rising. Every listed entry differs from what an unlisted index reads as, since
an unlisted index reads as no value. -/
abbrev Memory.wf (m : Memory) : Prop := (m.map Prod.fst).Pairwise (· < ·)

/-- A queue slot: a frame's length and its data bytes (R22). -/
structure Slot where
  len : Nat
  data : Memory
deriving DecidableEq, Repr

/-- The TX queue (R22 to R25). -/
structure TxQueue where
  slots : List Slot
  /-- S4: the slot the next successful push writes (R23). -/
  head : Nat
  /-- S5: the slot the next successful pop reads (R24). -/
  tail : Nat
  /-- S6: the number of frames held (R25). -/
  count : Nat
deriving DecidableEq, Repr

/-- The in-flight frame and the drainer state (R28 to R30). -/
structure InFlight where
  buf : Memory
  /-- S7: the frame's length (R28). -/
  len : Nat
  /-- S8: the bytes already handed to the UART (R29). -/
  pos : Nat
  /-- S3: `false` is Idle, `true` is Transmitting (R30). -/
  busy : Bool
deriving DecidableEq, Repr

/-- The RX assembler's double buffer (R35 to R37). -/
structure RxAsm where
  buf0 : Memory
  buf1 : Memory
  /-- S9: the buffer being filled, `false` for 0 and `true` for 1 (R36). -/
  widx : Bool
  /-- S10: the bytes of the unfinished frame (R37). -/
  pos : Nat
deriving DecidableEq, Repr

/-- The single-slot mailbox (R39, R40). -/
structure Mailbox where
  data : Memory
  /-- S12 (R39). -/
  len : Nat
  /-- S11 (R40). -/
  ready : Bool
deriving DecidableEq, Repr

/-- The part of a SEND that a context has not yet performed (R43). -/
inductive Cont where
  /-- NONE: no SEND in progress. -/
  | none
  /-- ENQ(f): the busy path, the frame still to be pushed. -/
  | enq (d : Frame)
  /-- IEN: the fast path, the interrupt enable still to be set. -/
  | ien
deriving DecidableEq, Repr

/-- The blocking operations (R232). -/
inductive WaitOp where
  | sigTake
  | txWait
deriving DecidableEq, Repr

/-- An ordinary context: its continuation (R43), and the model's own mark of the blocking operation it waits in
(R13's waiting agent, R239), which it is inside until that operation returns (R11, log 3). -/
structure Ctx where
  cont : Cont
  wait : Option WaitOp
deriving DecidableEq, Repr

/-- The telemetry events (R230). -/
inductive Event where
  | rxOverflow
  | rxDrop (n : Nat)
deriving DecidableEq, Repr

/-- The result codes (R220). -/
inductive Result where
  | ok
  | tooLarge
  | queueFull
  | timeout
  | empty
  | notReady
deriving DecidableEq, Repr

/-- What a context gets back: its number, the result code, and the frame of a successful MBX_READ (R182, R220). -/
structure Reply where
  ctx : Nat
  result : Result
  frame : Option Frame
deriving DecidableEq, Repr

/-- What a completed step hands back. -/
inductive Returned where
  /-- Events, RESET, and the first step of a SEND that goes on return nothing. -/
  | nothing
  /-- A result for the issuing context. -/
  | toCtx (r : Reply)
  /-- TXQ_PUSH's boolean, internal (R100). -/
  | pushed (ok : Bool)
  /-- TXQ_POP's frame, or EMPTY as `none`, internal (R101). -/
  | popped (f : Option Frame)
deriving DecidableEq, Repr

/-- How a step ended, of R13's outcomes those after which the block goes on (log 5). -/
inductive StepEnd where
  | completed (r : Returned)
  | notEnabled
  | refused (r : RefuseReason)
deriving DecidableEq, Repr

/-- The state: R21's record, then the model's own fields. -/
structure State where
  txq : TxQueue
  tx : InFlight
  /-- S0, `tx_ie` (R32). -/
  txIe : Bool
  /-- S1, `rx_ie` (R33). -/
  rxIe : Bool
  /-- S2 (R34). -/
  active : Bool
  rx : RxAsm
  mbx : Mailbox
  /-- S13, a count of capacity 1 (R41). -/
  rxSig : Nat
  /-- S14, a count of capacity 1, only if HAS_TX_DONE (R42). -/
  txDoneSig : Nat
  ctxs : List Ctx
  /-- `wire_tx`, every byte handed to the UART since reset (R45). -/
  wireTx : List Byte
  /-- The telemetry events since reset (R46). -/
  events : List Event
  /-- The sticky model mark (R47). -/
  refused : Bool
  /-- The model's own: the parameters (R8, log 1); no step changes them. -/
  params : Params
  /-- The model's own: the results and frames returned to contexts so far (R264, log 5). -/
  replies : List Reply
  /-- The model's own: how the last step ended (R13, log 5). -/
  last : StepEnd
  /-- The model's own: the operations presented and not yet performed, in schedule order (R69, R80, log 2). -/
  port : List Offer
deriving DecidableEq, Repr

/-- Why a run stops with a fault. Each one is a state no rule produces (R13's fourth outcome, log 14); all are safe: the model
stops, and the hardware is never in such a state. -/
inductive Fault where
  /-- RX_BYTE with `rx.pos >= RX_CAP` (R166). Raised by RX_BYTE. Safe. -/
  | rxNoRoom
  /-- An index outside its storage (R62). Raised by every storage access. Safe. -/
  | indexOutOfRange
  /-- A read of a storage byte that nothing has written since reset (R51). Raised by every storage read. Safe. -/
  | storageUnwritten
deriving DecidableEq, Repr

/-- Why the model gives no meaning. The block's own refusals (R237) are no such stop: they are next states that set
`State.refused`. -/
inductive Refusal where
  /-- The instruction has no meaning yet. Raised by no arm of this model. Safe. -/
  | notModelled (mnemonic : String)
deriving DecidableEq, Repr

/-- A slot after reset: data unwritten (R51); length 0, DESIGN CHOICE (log 7, unsafe; R51: no rule reads it). -/
def Slot.atReset : Slot := { len := 0, data := [] }

/-- The queue after reset (R50). -/
def TxQueue.atReset (p : Params) : TxQueue :=
  { slots := List.replicate p.n Slot.atReset, head := 0, tail := 0, count := 0 }

/-- The in-flight frame after reset (R50). -/
def InFlight.atReset : InFlight := { buf := [], len := 0, pos := 0, busy := false }

/-- The assembler after reset (R50). -/
def RxAsm.atReset : RxAsm := { buf0 := [], buf1 := [], widx := false, pos := 0 }

/-- The mailbox after reset (R50). -/
def Mailbox.atReset : Mailbox := { data := [], len := 0, ready := false }

/-- A context after reset: no continuation (R50, R233), not waiting. -/
def Ctx.atReset : Ctx := { cont := .none, wait := Option.none }

/-- The launch state under parameters `p` (R50, R250). -/
def State.launch (p : Params) : State :=
  { txq := TxQueue.atReset p, tx := InFlight.atReset, txIe := false, rxIe := false, active := false,
    rx := RxAsm.atReset, mbx := Mailbox.atReset, rxSig := 0, txDoneSig := 0,
    ctxs := List.replicate p.nCtx Ctx.atReset, wireTx := [], events := [], refused := false,
    params := p, replies := [], last := .completed .nothing, port := [] }

/-- The machine right after reset, at the reference parameters (R8, R250, log 1). -/
def State.reset : State := State.launch Params.reference

end Sys2Proof.Machine
end

