-- ==== Sys2Proof/Machine/Ops.lean ====
section
/-!
DEFINITION. The shared operations: bytes of one storage, bounds-checked ranges, and the ways a step ends. The block has
no traps (R235), so there is no exception entry: its one counterpart is a refused step, `State.refuse`.
-/

namespace Sys2Proof.Machine

/-- Every meaning answers this. -/
abbrev Res := Host.Outcome State Fault Refusal

/-- The byte at index `a`, if it has been written since reset (R51). -/
def Memory.read : Memory → Nat → Option Byte
  | [], _ => none
  | (k, b) :: rest, a => if a = k then some b else Memory.read rest a

/-- Write one byte, keeping the canonical form. -/
def Memory.write : Memory → Nat → Byte → Memory
  | [], a, v => [(a, v)]
  | (k, b) :: rest, a, v =>
    if a < k then (a, v) :: (k, b) :: rest
    else if a = k then (a, v) :: rest
    else (k, b) :: Memory.write rest a v

/-- The bytes at indices `i .. i+n-1` (R15), if all are written. -/
def Memory.readRange (m : Memory) : Nat → Nat → Option (List Byte)
  | _, 0 => some []
  | i, n + 1 =>
    match m.read i with
    | none => none
    | some b =>
      match m.readRange (i + 1) n with
      | none => none
      | some bs => some (b :: bs)

/-- Write bytes from index `i` on (R15). -/
def Memory.writeRange (m : Memory) : Nat → List Byte → Memory
  | _, [] => m
  | i, b :: bs => Memory.writeRange (m.write i b) (i + 1) bs

/-- Read `n` bytes from index `i` of a storage of `cap` bytes (R62, R51). -/
def loadBytes (cap : Nat) (m : Memory) (i n : Nat) : Except Fault (List Byte) :=
  if i + n ≤ cap then
    match m.readRange i n with
    | some bs => .ok bs
    | none => .error .storageUnwritten
  else .error .indexOutOfRange

/-- Write bytes from index `i` of a storage of `cap` bytes (R62). -/
def storeBytes (cap : Nat) (m : Memory) (i : Nat) (bs : List Byte) : Except Fault Memory :=
  if i + bs.length ≤ cap then .ok (m.writeRange i bs) else .error .indexOutOfRange

/-- The step completes and returns `r` to whatever performs it, no context among them. -/
def State.done (s : State) (r : Returned) : State := { s with last := .completed r }

/-- The step completes and returns `r` to its context (R220). -/
def State.answer (s : State) (r : Reply) : State :=
  { s with replies := s.replies ++ [r], last := .completed (.toCtx r) }

/-- The step is not enabled (R13): the block is unchanged. -/
def State.notEnabled (s : State) : State := { s with last := .notEnabled }

/-- The step is refused (R13): the sticky mark is set (R47) and nothing else of the block changes (DEDUCED, log 4). -/
def State.refuse (s : State) (r : RefuseReason) : State :=
  { s with refused := true, last := .refused r }

/-- Replace context `c`. -/
def State.setCtx (s : State) (c : Nat) (x : Ctx) : State := { s with ctxs := s.ctxs.set c x }

/-- Write context `c`'s continuation (R43), `x` being the context as it stands. -/
def State.setCont (s : State) (c : Nat) (x : Ctx) (k : Cont) : State :=
  s.setCtx c { x with cont := k }

/-- Write the mark of what context `c` waits in (log 3), `x` being the context as it stands. -/
def State.setWait (s : State) (c : Nat) (x : Ctx) (w : Option WaitOp) : State :=
  s.setCtx c { x with wait := w }

/-- `emit_wire` (R15). -/
def State.emitWire (s : State) (bs : List Byte) : State := { s with wireTx := s.wireTx ++ bs }

/-- `emit_event` (R15). -/
def State.emitEvent (s : State) (e : Event) : State := { s with events := s.events ++ [e] }

end Sys2Proof.Machine
end

