-- ==== Sys2Proof/Machine/Operands.lean ====
section
/-!
DEFINITION. The operand computations the rules share: mod-N indices, terminators, the drainer's byte count, the
selected RX buffer, result numbers, and the issuing context of a host operation.
-/

namespace Sys2Proof.Machine

/-- `next(i)`: mod-N by compare and wrap (R10, D28). -/
def nextIndex (p : Params) (i : Nat) : Nat := if i = p.n - 1 then 0 else i + 1

/-- CR or LF (R16; the byte values are ASCII, log 13). -/
def isTerm (b : Byte) : Bool := decide (b = 0x0D#8 ∨ b = 0x0A#8)

/-- `n = min(k, tx.len - tx.pos)` (R140). -/
def InFlight.accept (t : InFlight) (k : BitVec 16) : Nat := min k.toNat (t.len - t.pos)

/-- `rx.buf[rx.widx]`, the buffer being filled (R36). -/
def RxAsm.current (r : RxAsm) : Memory := if r.widx then r.buf1 else r.buf0

/-- The buffer not selected, which no rule reads (R38). -/
def RxAsm.other (r : RxAsm) : Memory := if r.widx then r.buf0 else r.buf1

/-- Replace the contents of the buffer being filled (R36). -/
def RxAsm.setCurrent (r : RxAsm) (m : Memory) : RxAsm :=
  if r.widx then { r with buf1 := m } else { r with buf0 := m }

/-- The numbers of the result codes (R220). -/
def Result.code : Result → Nat
  | .ok => 0
  | .tooLarge => 1
  | .queueFull => 2
  | .timeout => 3
  | .empty => 4
  | .notReady => 5

/-- The context is inside no blocking operation, or inside `op` itself, of which this is another attempt. -/
def Ctx.mayIssue (x : Ctx) (op : Option WaitOp) : Bool := decide (x.wait = none ∨ x.wait = op)

/-- A host operation of context `c`, `op` naming it if it is one that blocks: refused unless the context exists and has no
continuation pending (the last test of R85, R44), and not enabled while the context is blocked in another operation: a
context issues its operations one at a time (R11), and a blocked agent waits (R13; DEDUCED, log 3). -/
def asIssuer (c : Nat) (op : Option WaitOp) (s : State) (k : Ctx → Res) : Res :=
  match s.ctxs[c]? with
  | none => .next (s.refuse .wrongAgent)
  | some x =>
    match x.cont with
    | .none => if x.mayIssue op then k x else .next s.notEnabled
    | .enq _ => .next (s.refuse .wrongAgent)
    | .ien => .next (s.refuse .wrongAgent)

/-- Some context has a continuation pending (R201). -/
def State.contPending (s : State) : Bool := s.ctxs.any (fun x => decide (x.cont ≠ .none))

end Sys2Proof.Machine
end

