-- ==== Sys2Proof/Machine/Flags.lean ====
section
/-!
DEFINITION. The flags and signals (R49): the counting signals of capacity 1, the drainer's Idle transition, the
TX-completion give, and the RX buffer toggle.
-/

namespace Sys2Proof.Machine

/-- A signal give: `min(sig + 1, 1)` (R180, R188). -/
def give (sig : Nat) : Nat := min (sig + 1) 1

/-- The frame-ready give (R180). -/
def State.giveRx (s : State) : State := { s with rxSig := give s.rxSig }

/-- The frame-ready take (R181). -/
def State.takeRx (s : State) : State := { s with rxSig := 0 }

/-- The TX-completion give, only if HAS_TX_DONE (R188, R140). -/
def State.giveTxDone (s : State) : State :=
  if s.params.hasTxDone then { s with txDoneSig := give s.txDoneSig } else s

/-- The TX-completion take (R187). -/
def State.takeTxDone (s : State) : State := { s with txDoneSig := 0 }

/-- The drainer goes Idle: the interrupt source is disabled and `busy` cleared (R140, R49). -/
def State.goIdle (s : State) : State := { s with txIe := false, tx := { s.tx with busy := false } }

/-- The buffer role toggles and the cursor returns to 0, at every finalization and overflow (R167). -/
def RxAsm.toggle (r : RxAsm) : RxAsm := { r with widx := !r.widx, pos := 0 }

/-- `State`'s form of the toggle. -/
def State.toggleRx (s : State) : State := { s with rx := s.rx.toggle }

end Sys2Proof.Machine
end

