-- ==== Sys2Proof/Machine/Queue.lean ====
section
/-!
DEFINITION. The TX queue: push and pop (R100, R101), and the two internal operations.
-/

namespace Sys2Proof.Machine

/-- TXQ_PUSH on the queue (R100): the new queue and the boolean. -/
def TxQueue.push (p : Params) (q : TxQueue) (d : Frame) : Except Fault (TxQueue × Bool) :=
  if p.txMax < d.length then .ok (q, false)
  else if q.count = p.n then .ok (q, false)
  else
    match q.slots[q.head]? with
    | none => .error .indexOutOfRange
    | some slot =>
      match storeBytes p.txMax slot.data 0 d with
      | .error f => .error f
      | .ok m =>
        .ok ({ slots := q.slots.set q.head { len := d.length, data := m },
               head := nextIndex p q.head, tail := q.tail, count := q.count + 1 }, true)

/-- TXQ_POP on the queue (R101): the new queue and the frame, or `none` for EMPTY. -/
def TxQueue.pop (p : Params) (q : TxQueue) : Except Fault (TxQueue × Option Frame) :=
  if q.count = 0 then .ok (q, none)
  else
    match q.slots[q.tail]? with
    | none => .error .indexOutOfRange
    | some slot =>
      match loadBytes p.txMax slot.data 0 slot.len with
      | .error f => .error f
      | .ok d =>
        .ok ({ q with tail := nextIndex p q.tail, count := q.count - 1 }, some d)

/-- TXQ_PUSH (R100), the internal operation by itself. `step` never runs it: an agent that presents it is refused (R88, log 16);
SEND.ENQ performs `TxQueue.push` inside its own step. -/
def execTxqPush (d : Frame) (s : State) : Res :=
  match s.txq.push s.params d with
  | .error f => .fault f
  | .ok (q, ok) => .next ({ s with txq := q }.done (.pushed ok))

/-- TXQ_POP (R101), the internal operation by itself. `step` never runs it (R88); TX_READY performs `TxQueue.pop` inside
its own step. -/
def execTxqPop (s : State) : Res :=
  match s.txq.pop s.params with
  | .error f => .fault f
  | .ok (q, r) => .next ({ s with txq := q }.done (.popped r))

end Sys2Proof.Machine
end

