-- ==== Sys2Proof/Machine/SendPort.lean ====
section
/-!
DEFINITION. The send port: SEND and its two continuations (R120 to R122).
-/

namespace Sys2Proof.Machine

/-- Put a frame in flight from its first byte (R120's fast path, R140's load). -/
def State.loadTx (s : State) (m : Memory) (len : Nat) : State :=
  { s with tx := { buf := m, len := len, pos := 0, busy := true } }

/-- SEND, first step (R120): activation, size check, fast-path test. -/
def execSend (c : Nat) (d : Frame) (s : State) : Res :=
  asIssuer c none s fun x =>
    if s.active = false then .next (s.refuse .notActive)
    else if s.params.txMax < d.length then .next (s.answer ⟨c, .tooLarge, none⟩)
    else if s.tx.busy = false then
      match storeBytes s.params.txMax s.tx.buf 0 d with
      | .error f => .fault f
      | .ok m => .next (((s.loadTx m d.length).setCont c x .ien).done .nothing)
    else .next ((s.setCont c x (.enq d)).done .nothing)

/-- SEND.ENQ (R121): the push of the busy path; `tx.busy` is not read again and `tx_ie` is not written. -/
def execSendEnq (c : Nat) (s : State) : Res :=
  match s.ctxs[c]? with
  | none => .next (s.refuse .wrongAgent)
  | some x =>
    match x.cont with
    | .none => .next (s.refuse .wrongAgent)
    | .ien => .next (s.refuse .wrongAgent)
    | .enq d =>
      match s.txq.push s.params d with
      | .error f => .fault f
      | .ok (q, ok) =>
        .next (({ s with txq := q }.setCont c x .none).answer
          ⟨c, if ok then .ok else .queueFull, none⟩)

/-- SEND.IEN (R122): the interrupt source is enabled. -/
def execSendIen (c : Nat) (s : State) : Res :=
  match s.ctxs[c]? with
  | none => .next (s.refuse .wrongAgent)
  | some x =>
    match x.cont with
    | .none => .next (s.refuse .wrongAgent)
    | .enq _ => .next (s.refuse .wrongAgent)
    | .ien => .next (({ s with txIe := true }.setCont c x .none).answer ⟨c, .ok, none⟩)

end Sys2Proof.Machine
end

