-- ==== Sys2Proof/Machine/Drainer.lean ====
section
/-!
DEFINITION. The TX drainer: TX_READY (R140).
-/

namespace Sys2Proof.Machine

/-- The frame is complete (R140): the completion give, then the pop, then Idle or the load of the next frame. -/
def completeFrame (s : State) : Res :=
  let s := s.giveTxDone
  match s.txq.pop s.params with
  | .error f => .fault f
  | .ok (_, none) => .next (s.goIdle.done .nothing)
  | .ok (q, some d) =>
    match storeBytes s.params.txMax s.tx.buf 0 d with
    | .error f => .fault f
    | .ok m => .next (({ s with txq := q }.loadTx m d.length).done .nothing)

/-- TX_READY (R140): enabled only while `tx_ie = 1` (R226); with `busy = 0`, the defensive case (R144). -/
def execTxReady (k : BitVec 16) (s : State) : Res :=
  if s.txIe = false then .next s.notEnabled
  else if s.tx.busy = false then .next ({ s with txIe := false }.done .nothing)
  else
    match loadBytes s.params.txMax s.tx.buf s.tx.pos (s.tx.accept k) with
    | .error f => .fault f
    | .ok bs =>
      let pos := s.tx.pos + s.tx.accept k
      let s := { s.emitWire bs with tx := { s.tx with pos := pos } }
      if pos = s.tx.len then completeFrame s else .next (s.done .nothing)

end Sys2Proof.Machine
end

