-- ==== Sys2Proof/Machine/Assembler.lean ====
section
/-!
DEFINITION. The RX assembler: RX_BYTE and FINALIZE (R160).
-/

namespace Sys2Proof.Machine

/-- Delivery into the empty mailbox (R162): copy, length, ready, signal. -/
def deliver (s : State) (copyLen : Nat) : Except Fault State :=
  match loadBytes s.params.rxCap s.rx.current 0 copyLen with
  | .error f => .error f
  | .ok bs =>
    match storeBytes s.params.rxCap s.mbx.data 0 bs with
    | .error f => .error f
    | .ok m => .ok { s with mbx := { data := m, len := copyLen, ready := true } }.giveRx

/-- FINALIZE (R160): deliver, drop, or an empty line (R163); the toggle and the reset of the cursor in every case (R167). -/
def finalize (s : State) (copyLen : Nat) : Res :=
  if 0 < copyLen then
    if s.mbx.ready = false then
      match deliver s copyLen with
      | .error f => .fault f
      | .ok s => .next (s.toggleRx.done .nothing)
    else .next ((s.emitEvent (.rxDrop copyLen)).toggleRx.done .nothing)
  else .next (s.toggleRx.done .nothing)

/-- RX_BYTE (R160): enabled only while `rx_ie = 1` (R227). -/
def execRxByte (b : Byte) (s : State) : Res :=
  if s.rxIe = false then .next s.notEnabled
  else if s.params.rxCap ≤ s.rx.pos then .fault .rxNoRoom
  else
    let p := s.rx.pos + 1
    let s := { s with rx := s.rx.setCurrent (s.rx.current.write s.rx.pos b) }
    if isTerm b then finalize s (p - 1)
    else if p = s.params.rxCap then
      if s.params.rxFullDelivers then finalize s p
      else .next ((s.emitEvent .rxOverflow).toggleRx.done .nothing)
    else .next ({ s with rx := { s.rx with pos := p } }.done .nothing)

end Sys2Proof.Machine
end

