-- ==== Sys2Proof/Machine/Handshake.lean ====
section
/-!
DEFINITION. The consumer's side of the mailbox and the signals: SIG_TAKE, MBX_READ, TX_WAIT (R181, R182, R187).
-/

namespace Sys2Proof.Machine

/-- The context blocks (R13): the step is not enabled, and the context waits in `w`, where it may have been waiting
already (`asIssuer`). -/
def blockIn (c : Nat) (x : Ctx) (w : WaitOp) (s : State) : Res :=
  .next (s.setWait c x (some w)).notEnabled

/-- SIG_TAKE (R181). Returning ends the wait. -/
def execSigTake (c : Nat) (s : State) : Res :=
  asIssuer c (some .sigTake) s fun x =>
    if s.rxSig = 0 then blockIn c x .sigTake s
    else .next ((s.takeRx.setWait c x none).answer ⟨c, .ok, none⟩)

/-- MBX_READ (R182). -/
def execMbxRead (c : Nat) (s : State) : Res :=
  asIssuer c none s fun _ =>
    if s.mbx.ready then
      match loadBytes s.params.rxCap s.mbx.data 0 s.mbx.len with
      | .error f => .fault f
      | .ok d => .next ({ s with mbx := { s.mbx with ready := false } }.answer ⟨c, .ok, some d⟩)
    else .next (s.answer ⟨c, .empty, none⟩)

/-- TX_WAIT (R187). Returning, OK or TIMEOUT, ends the wait. -/
def execTxWait (c : Nat) (t : Draw) (s : State) : Res :=
  if s.params.hasTxDone = false then .next (s.refuse .noTxDone)
  else
    asIssuer c (some .txWait) s fun x =>
      match t with
      | .expire => .next ((s.setWait c x none).answer ⟨c, .timeout, none⟩)
      | .take =>
        if s.txDoneSig = 0 then blockIn c x .txWait s
        else .next ((s.takeTxDone.setWait c x none).answer ⟨c, .ok, none⟩)

end Sys2Proof.Machine
end

