-- ==== Sys2Proof/Machine/Control.lean ====
section
/-!
DEFINITION. RESET and ACTIVATE (R200, R203).
-/

namespace Sys2Proof.Machine

/-- The effect of RESET on the block (R200, R50): storage contents become unwritten (R51, log 6). The contexts have no
continuation here (R201) and stay blocked where they were blocked (R200); the refused mark, and the model's own
fields, are kept. -/
def State.relaunch (s : State) : State :=
  { s with
    txq := TxQueue.atReset s.params, tx := InFlight.atReset, txIe := false, rxIe := false, active := false,
    rx := RxAsm.atReset, mbx := Mailbox.atReset, rxSig := 0, txDoneSig := 0, wireTx := [], events := [] }

/-- RESET (R200), refused while a continuation is pending (R201). -/
def execReset (s : State) : Res :=
  if s.contPending then .next (s.refuse .resetPending)
  else .next (s.relaunch.done .nothing)

/-- ACTIVATE (R203). -/
def execActivate (c : Nat) (devReady : Bool) (s : State) : Res :=
  asIssuer c none s fun _ =>
    if devReady then .next ({ s with active := true, rxIe := true }.answer ⟨c, .ok, none⟩)
    else .next (s.answer ⟨c, .notReady, none⟩)

end Sys2Proof.Machine
end

