-- ==== Sys2Proof/Machine/Dispatch.lean ====
section
/-!
DEFINITION. One arm per operation of the opcode table.
-/

namespace Sys2Proof.Machine

def exec (i : Instr) (s : State) : Host.Outcome State Fault Refusal :=
  match i with
  | .reset => Sys2Proof.Machine.execReset s
  | .activate c r => Sys2Proof.Machine.execActivate c r s
  | .send c d => Sys2Proof.Machine.execSend c d s
  | .sigTake c => Sys2Proof.Machine.execSigTake c s
  | .mbxRead c => Sys2Proof.Machine.execMbxRead c s
  | .txWait c t => Sys2Proof.Machine.execTxWait c t s
  | .txReady k => Sys2Proof.Machine.execTxReady k s
  | .rxByte b => Sys2Proof.Machine.execRxByte b s
  | .txqPush d => Sys2Proof.Machine.execTxqPush d s
  | .txqPop => Sys2Proof.Machine.execTxqPop s
  | .sendEnq c => Sys2Proof.Machine.execSendEnq c s
  | .sendIen c => Sys2Proof.Machine.execSendIen c s

end Sys2Proof.Machine
end

