-- ==== Sys2Proof/Machine/Step.lean ====
section
/-!
DEFINITION. One step: the block performs the operation presented next (R80, R12).
-/

namespace Sys2Proof.Machine

/-- One step of the machine: the next offer is taken from the port, decoded (R85), and refused (R13, R47) or performed.
With no offer the block waits for operations (R250). -/
def step (s : State) : Host.Outcome State Fault Refusal :=
  match s.port with
  | [] => .next s
  | o :: rest =>
    match decode s.params o with
    | .error r => .next ({ s with port := rest }.refuse r)
    | .ok i => exec i { s with port := rest }

/-- Present a word of the opcode table as the next operation (log 11). -/
def State.withFetchWord (s : State) (nbits w : Nat) : State :=
  { s with port := tableOffer nbits w :: s.port }

end Sys2Proof.Machine
end

