-- ==== Sys2Proof/Machine/Pseudo.lean ====
section
/-!
DEFINITION. Sequences of steps with no other agent's step in between: the pseudo-operations of R90.
-/

namespace Sys2Proof.Machine

/-- Perform the operations one after the other, stopping at the first fault or refusal. -/
def execAll : List Instr → State → Res
  | [], s => .next s
  | i :: rest, s =>
    match exec i s with
    | .next t => execAll rest t
    | .fault f => .fault f
    | .refused r => .refused r

/-- The continuation that context `c` has pending, as the operation that performs it (R44). -/
def pendingStep (c : Nat) (s : State) : Option Instr :=
  match s.ctxs[c]? with
  | none => none
  | some x =>
    match x.cont with
    | .none => none
    | .enq _ => some (.sendEnq c)
    | .ien => some (.sendIen c)

/-- `SEND*` (R90): SEND, followed at once by its continuation if it left one. A SEND that leaves a continuation is the
one that completes and returns nothing yet. -/
def sendStar (c : Nat) (d : Frame) (s : State) : Res :=
  match exec (.send c d) s with
  | .fault f => .fault f
  | .refused r => .refused r
  | .next t =>
    if t.last = .completed .nothing then
      match pendingStep c t with
      | none => .next t
      | some i => exec i t
    else .next t

/-- `RX_BYTES` (R90): one RX_BYTE per byte, in order. -/
def rxBytes (text : List Byte) (s : State) : Res := execAll (text.map Instr.rxByte) s

/-- `TX_DRAIN` (R90): TX_READY `k` while `tx_ie = 1`, for at most `fuel` events. -/
def txDrain (k : BitVec 16) : Nat → State → Res
  | 0, s => .next s
  | fuel + 1, s =>
    if s.txIe then
      match exec (.txReady k) s with
      | .next t => txDrain k fuel t
      | .fault f => .fault f
      | .refused r => .refused r
    else .next s

end Sys2Proof.Machine
end

