-- ==== Sys2Proof/Safety.lean ====
section
/-!
DEFINITION. The terms in which claims are made: the invariants the rules guarantee, the abstract contents of the queue
and of the wire, the observation, and the end of a run.
-/

namespace Sys2Proof.Machine

/-- The first `n` bytes of a storage are written (R51). -/
abbrev Memory.filled (m : Memory) (n : Nat) : Prop := ∀ j, j < n → (m.read j).isSome

/-- Nothing is written at or beyond `cap` (R61). -/
abbrev Memory.within (m : Memory) (cap : Nat) : Prop := ∀ x ∈ m, x.1 < cap

/-- The storage has its canonical form and its size. -/
abbrev Memory.Sound (cap : Nat) (m : Memory) : Prop := m.wf ∧ m.within cap

/-- Every storage of the block has its canonical form. -/
structure State.MemWf (s : State) : Prop where
  slots : ∀ x ∈ s.txq.slots, x.data.wf
  tx : s.tx.buf.wf
  rx0 : s.rx.buf0.wf
  rx1 : s.rx.buf1.wf
  mbx : s.mbx.data.wf

/-- The slots `i, next(i), ...`, `m` of them (R26). -/
def heldFrom (p : Params) : Nat → Nat → List Nat
  | _, 0 => []
  | i, m + 1 => i :: heldFrom p (nextIndex p i) m

/-- The indices of the slots that hold a frame, oldest first (R26). -/
def TxQueue.heldSlots (p : Params) (q : TxQueue) : List Nat := heldFrom p q.tail q.count

/-- The frame a slot holds. -/
def Slot.frame (x : Slot) : Frame := (x.data.readRange 0 x.len).getD []

/-- The frame in slot `i`. -/
def TxQueue.frameAt (q : TxQueue) (i : Nat) : Frame := (q.slots[i]?.map Slot.frame).getD []

/-- The frames held, oldest first (R26). -/
def TxQueue.frames (p : Params) (q : TxQueue) : List Frame := (q.heldSlots p).map q.frameAt

/-- The queue invariant (R22 to R26, R51): the slots, indices and count are in range, `head` is `tail + count` mod N,
and every held slot's bytes are written. -/
structure QueueInv (p : Params) (q : TxQueue) : Prop where
  slots : q.slots.length = p.n
  headLt : q.head < p.n
  tailLt : q.tail < p.n
  countLe : q.count ≤ p.n
  headEq : q.head = (q.tail + q.count) % p.n
  slotLen : ∀ x ∈ q.slots, x.len ≤ p.txMax
  slotData : ∀ x ∈ q.slots, x.data.Sound p.txMax
  heldFilled : ∀ i ∈ q.heldSlots p, ∀ x ∈ q.slots[i]?, x.data.filled x.len

/-- The in-flight frame (R28 to R31, R51), the enable (R52) and activation (R204, R120). -/
structure TxInv (s : State) : Prop where
  lenLe : s.tx.len ≤ s.params.txMax
  posLe : s.tx.pos ≤ s.tx.len
  buf : s.tx.buf.Sound s.params.txMax
  filled : s.tx.busy = true → s.tx.buf.filled s.tx.len
  ieBusy : s.txIe = true → s.tx.busy = true
  busyActive : s.tx.busy = true → s.active = true

/-- A pending frame is no longer than TX_MAX (R120's size check). -/
def Cont.fits (p : Params) : Cont → Bool
  | .none => true
  | .ien => true
  | .enq d => decide (d.length ≤ p.txMax)

/-- The context `x` has IEN pending (R52). -/
def Ctx.isIen (x : Ctx) : Bool := decide (x.cont = .ien)

/-- The contexts (R43, R52, R120, R233). Each is inside at most one operation (R11), and inside a TX_WAIT only where there
is one (R187). -/
structure CtxInv (s : State) : Prop where
  number : s.ctxs.length = s.params.nCtx
  enqFits : ∀ x ∈ s.ctxs, x.cont.fits s.params = true
  oneIen : s.ctxs.countP Ctx.isIen ≤ 1
  ienWindow : ∀ x ∈ s.ctxs, x.cont = .ien → s.tx.busy = true ∧ s.txIe = false
  contActive : ∀ x ∈ s.ctxs, x.cont ≠ .none → s.active = true
  oneOperation : ∀ x ∈ s.ctxs, x.wait ≠ none → x.cont = .none
  waitExists : ∀ x ∈ s.ctxs, x.wait = some .txWait → s.params.hasTxDone = true

/-- The RX assembler (R35 to R37, R51), and its enable (R203, R205). -/
structure RxInv (s : State) : Prop where
  posLt : s.rx.pos < s.params.rxCap
  buf0 : s.rx.buf0.Sound s.params.rxCap
  buf1 : s.rx.buf1.Sound s.params.rxCap
  filled : s.rx.current.filled s.rx.pos
  ieActive : s.rxIe = s.active

/-- The mailbox (R39, R51). -/
structure MbxInv (s : State) : Prop where
  lenLe : s.mbx.len ≤ s.params.rxCap
  data : s.mbx.data.Sound s.params.rxCap
  readyLen : s.mbx.ready = true → 1 ≤ s.mbx.len ∧ s.mbx.len ≤ s.params.rxMaxp
  filled : s.mbx.ready = true → s.mbx.data.filled s.mbx.len

/-- The counting signals (R41, R42). -/
structure SignalInv (s : State) : Prop where
  rx : s.rxSig ≤ 1
  txDone : s.txDoneSig ≤ 1
  noTxDone : s.params.hasTxDone = false → s.txDoneSig = 0

/-- The invariant of the block: what the rules say holds after every step from reset. -/
structure BlockInv (s : State) : Prop where
  params : s.params.wf
  queue : QueueInv s.params s.txq
  tx : TxInv s
  ctx : CtxInv s
  rx : RxInv s
  mbx : MbxInv s
  sig : SignalInv s

/-- The queue's two operations, as calls. -/
inductive QueueOp where
  | push (d : Frame)
  | pop
deriving DecidableEq, Repr

/-- Perform calls on the ring (R100, R101): the values returned, in order. -/
def ringTrace (p : Params) : List QueueOp → TxQueue → Except Fault (List Returned)
  | [], _ => .ok []
  | .push d :: ops, q =>
    match q.push p d with
    | .error f => .error f
    | .ok (q', r) => (ringTrace p ops q').map (Returned.pushed r :: ·)
  | .pop :: ops, q =>
    match q.pop p with
    | .error f => .error f
    | .ok (q', r) => (ringTrace p ops q').map (Returned.popped r :: ·)

/-- The same calls on a plain first-in first-out list of at most N frames (R103, R22). -/
def fifoTrace (p : Params) : List QueueOp → List Frame → List Returned
  | [], _ => []
  | .push d :: ops, fs =>
    if d.length ≤ p.txMax ∧ fs.length < p.n then .pushed true :: fifoTrace p ops (fs ++ [d])
    else .pushed false :: fifoTrace p ops fs
  | .pop :: ops, [] => .popped none :: fifoTrace p ops []
  | .pop :: ops, f :: fs => .popped (some f) :: fifoTrace p ops fs

/-- The bytes of the in-flight frame not yet handed over; none while Idle (R31). -/
def State.inFlightRest (s : State) : List Byte :=
  if s.tx.busy then (s.tx.buf.readRange s.tx.pos (s.tx.len - s.tx.pos)).getD [] else []

/-- Everything handed to the UART, then everything accepted and still to be handed over, in the order the drainer takes
it (R146). -/
def State.wireStream (s : State) : List Byte :=
  s.wireTx ++ s.inFlightRest ++ (s.txq.frames s.params).flatten

/-- R147's bound on the TX_READY events that drain the block. -/
def State.drainBound (s : State) : Nat :=
  (s.tx.len - s.tx.pos) + ((s.txq.frames s.params).map List.length).sum + s.txq.count + 1

/-- The condition under which the FIFO guarantee holds (R125): an Idle drainer has an empty queue. -/
def State.NoStranded (s : State) : Prop := s.tx.busy = false → s.txq.count = 0

/-- The frame that operation `i` commits in state `s` (R125): a SEND on the fast path commits its frame, a SEND.ENQ whose
push succeeds commits the pending one. -/
def commitOf (i : Instr) (s : State) : Option Frame :=
  match i with
  | .send c d =>
    if s.ctxs[c]?.map Ctx.cont = some .none ∧ s.ctxs[c]?.map Ctx.wait = some none ∧ s.active = true ∧ d.length ≤ s.params.txMax ∧ s.tx.busy = false
    then some d else none
  | .sendEnq c =>
    match s.ctxs[c]?.map Ctx.cont with
    | some (.enq d) => if s.txq.count < s.params.n then some d else none
    | some .none => none
    | some .ien => none
    | none => none
  | .reset => none
  | .activate _ _ => none
  | .sigTake _ => none
  | .mbxRead _ => none
  | .txWait _ _ => none
  | .txReady _ => none
  | .rxByte _ => none
  | .txqPush _ => none
  | .txqPop => none
  | .sendIen _ => none

/-- The frames a run commits, in order; the run ends where `execAll` does. -/
def commits : List Instr → State → List Frame
  | [], _ => []
  | i :: rest, s =>
    match exec i s with
    | .next t => (commitOf i s).toList ++ commits rest t
    | .fault _ => []
    | .refused _ => []

/-- An operation an agent performs while the block runs: neither RESET nor one of the internal operations. -/
def isRunning : Instr → Bool
  | .reset => false
  | .txqPush _ => false
  | .txqPop => false
  | .activate _ _ => true
  | .send _ _ => true
  | .sigTake _ => true
  | .mbxRead _ => true
  | .txWait _ _ => true
  | .txReady _ => true
  | .rxByte _ => true
  | .sendEnq _ => true
  | .sendIen _ => true

/-- `i` is a SEND.ENQ. -/
def isSendEnq : Instr → Bool
  | .sendEnq _ => true
  | .reset => false
  | .txqPush _ => false
  | .txqPop => false
  | .activate _ _ => false
  | .send _ _ => false
  | .sigTake _ => false
  | .mbxRead _ => false
  | .txWait _ _ => false
  | .txReady _ => false
  | .rxByte _ => false
  | .sendIen _ => false

/-- No SEND.ENQ of the run is performed while the drainer is Idle (R125's condition). -/
def noIdleEnq : List Instr → State → Prop
  | [], _ => True
  | i :: rest, s =>
    (isSendEnq i = true → s.tx.busy = true) ∧
    match exec i s with
    | .next t => noIdleEnq rest t
    | .fault _ => True
    | .refused _ => True

/-- The handshake condition of R184(a). -/
def State.SignalMeansReady (s : State) : Prop := s.rxSig ≠ 0 → s.mbx.ready = true

/-- The bytes of the unfinished RX frame (R37). -/
def State.rxPartial (s : State) : List Byte := (s.rx.current.readRange 0 s.rx.pos).getD []

/-- The frame in the mailbox, if it holds one (R39). -/
def State.mailboxFrame (s : State) : Option Frame :=
  if s.mbx.ready then s.mbx.data.readRange 0 s.mbx.len else none

/-- What a run shows (R264, R238): the results returned, the frames returned by MBX_READ (D30), the wire, the events,
and the refused mark. -/
structure Observation where
  results : List (Nat × Result)
  frames : List Frame
  wireTx : List Byte
  events : List Event
  refused : Bool
deriving DecidableEq, Repr

/-- The observation of a state. -/
def State.observe (s : State) : Observation :=
  { results := s.replies.map (fun r => (r.ctx, r.result)), frames := s.replies.filterMap Reply.frame,
    wireTx := s.wireTx, events := s.events, refused := s.refused }

/-- A run may end here (R264): no continuation is pending and no context is inside an operation. -/
def State.endOfRun (s : State) : Bool :=
  s.ctxs.all (fun x => decide (x.cont = .none) && decide (x.wait = none))

/-- A claim may hold of the run that led here (R264, R47). -/
def State.claimable (s : State) : Bool := s.endOfRun && !s.refused

end Sys2Proof.Machine
end

