-- ==== Sys2Proof/Certificates/Slice0/Obligations.lean ====
section
/-!
DEFINITION. The statements for the provers: what each operation does, where it completes, what it leaves unchanged, the
invariants, and the block's whole-machine rules.
-/

open Sys2Proof Sys2Proof.Machine

/-! ## Encoding -/

/-- R84, R85: decoding the offer of a well-formed operation that agents may present gives the operation back, with
every operand at every value. -/
def Obligations.DecodeEncodeAgree : Prop :=
  ∀ (p : Params) (i : Instr), i.wf p = true → i.isInternal = false → decode p (encode i) = .ok i

/-- R84's last sentence: every code, the internal ones included, names its operation in a listing (log 11). -/
def Obligations.ListingNamesEveryOperation : Prop :=
  ∀ (p : Params) (i : Instr), i.wf p = true → decodeListing (encode i) = some i

/-- R81 to R83: a word that decodes is the encoding of what it decodes to, from that agent, with that data operand and
that draw, and what it decodes to is well formed: no bit is dropped. Two parts rest on the model's reading where R85 is
silent: that the context is below N_CTX, since a higher number is refused (DEDUCED, log 10), and that a SEND's data operand
is the one offered, since an absent one is refused (DEDUCED, log 9). -/
def Obligations.DecodedOfferIsTheEncoding : Prop :=
  ∀ (p : Params) (o : Offer) (i : Instr), decode p o = .ok i →
    i.wf p = true ∧ i.isInternal = false ∧ encodeWord i = o.word ∧ i.issuer = o.agent ∧ i.dataOperand = o.data ∧
    (∀ c t, i = .txWait c t → t = o.draw)

/-- R87: a word with a reserved bit set is refused whatever its code, and so is one with an unused argument bit set. -/
def Obligations.StrayBitsRefused : Prop :=
  ∀ (p : Params) (o : Offer),
    ((∃ j, 16 ≤ j ∧ j ≤ 27 ∧ o.word.getLsbD j = true) → decode p o = .error .rsvBits) ∧
    ((o.word.toNat / 2 ^ 28 = 2 ∧ (∃ j, 1 ≤ j ∧ j ≤ 15 ∧ o.word.getLsbD j = true)) → ∃ r, decode p o = .error r) ∧
    ((o.word.toNat / 2 ^ 28 = 9 ∧ (∃ j, 8 ≤ j ∧ j ≤ 15 ∧ o.word.getLsbD j = true)) → ∃ r, decode p o = .error r) ∧
    ((o.word.toNat / 2 ^ 28 ∈ [1, 4, 5, 6, 14, 15] ∧ (∃ j, j ≤ 15 ∧ o.word.getLsbD j = true)) →
      ∃ r, decode p o = .error r)

/-- R86: the reserved codes spell no operation and are refused, and nothing decodes outside the codes of R84. -/
def Obligations.ReservedCodesRefused : Prop :=
  ∀ (p : Params) (o : Offer),
    (o.word.toNat / 2 ^ 28 ∈ [0, 7, 10, 11] → decodeListing o = none ∧ ∃ r, decode p o = .error r) ∧
    (o.word.toNat / 2 ^ 28 ∈ [0, 7, 10, 11] → o.word.toNat / 2 ^ 16 % 2 ^ 12 = 0 → decode p o = .error .reservedOp) ∧
    (∀ i, decode p o = .ok i → o.word.toNat / 2 ^ 28 ∈ [1, 2, 3, 4, 5, 6, 8, 9, 14, 15])

/-- R88: TXQ_PUSH and TXQ_POP presented by any agent, with any argument and data, are refused; a continuation word from
a context whose continuation does not match is refused; a blocking operation from the interrupt side is refused. -/
def Obligations.BypassingAccessesRefused : Prop :=
  (∀ (p : Params) (o : Offer), o.word.toNat / 2 ^ 28 = 12 ∨ o.word.toNat / 2 ^ 28 = 13 →
    (∃ r, decode p o = .error r) ∧
    (o.word.toNat / 2 ^ 16 % 2 ^ 12 = 0 → decode p o = .error .internalOp)) ∧
  (∀ (s : State) (o : Offer) (rest : List Offer) (c : Nat) (x : Ctx), s.port = o :: rest → o.agent = .ctx c →
    s.ctxs[c]? = some x →
    (o.word.toNat / 2 ^ 28 = 14 ∧ (∀ d, x.cont ≠ .enq d)) ∨ (o.word.toNat / 2 ^ 28 = 15 ∧ x.cont ≠ .ien) →
    ∃ r, step s = .next { s with port := rest, refused := true, last := .refused r }) ∧
  (∀ (p : Params) (o : Offer), o.word.toNat / 2 ^ 28 = 4 ∨ o.word.toNat / 2 ^ 28 = 6 → o.agent = .irq →
    ∃ r, decode p o = .error r)

/-- R84, R229, R232: what each kind of agent may present; anything else is refused. The bound `c < N_CTX` is the model's
reading, a higher context number being refused (DEDUCED, log 10). -/
def Obligations.AgentsPerformTheirClassOnly : Prop :=
  ∀ (p : Params) (o : Offer) (i : Instr), decode p o = .ok i →
    (o.agent = .env → i = .reset) ∧
    (o.agent = .irq → (∃ k, i = .txReady k) ∨ ∃ b, i = .rxByte b) ∧
    (∀ c, o.agent = .ctx c → c < p.nCtx ∧
      ((∃ r, i = .activate c r) ∨ (∃ d, i = .send c d) ∨ i = .sigTake c ∨ i = .mbxRead c ∨
       (p.hasTxDone = true ∧ ∃ t, i = .txWait c t) ∨ i = .sendEnq c ∨ i = .sendIen c))

/-- R91, which the spec derives: the worked encodings. The context count and the TX-completion variant of the reference
parameters are the model's choice (log 1). -/
def Obligations.EncodingExamples : Prop :=
  decode Params.reference ⟨.env, 0x10000000, none, .take⟩ = .ok .reset ∧
  decode Params.reference ⟨.ctx 0, 0x20000001, none, .take⟩ = .ok (.activate 0 true) ∧
  decode Params.reference ⟨.ctx 0, 0x30000001, some [0x41], .take⟩ = .ok (.send 0 [0x41]) ∧
  decode Params.reference ⟨.ctx 0, 0x30000000, some [], .take⟩ = .ok (.send 0 []) ∧
  decode Params.reference ⟨.ctx 1, 0x40000000, none, .take⟩ = .ok (.sigTake 1) ∧
  decode Params.reference ⟨.ctx 1, 0x50000000, none, .take⟩ = .ok (.mbxRead 1) ∧
  decode Params.reference ⟨.ctx 0, 0x60000000, none, .expire⟩ = .ok (.txWait 0 .expire) ∧
  decode Params.reference ⟨.irq, 0x80000010, none, .take⟩ = .ok (.txReady 16) ∧
  decode Params.reference ⟨.irq, 0x90000061, none, .take⟩ = .ok (.rxByte 0x61) ∧
  decode Params.reference ⟨.irq, 0x9000000D, none, .take⟩ = .ok (.rxByte 0x0D) ∧
  decode Params.reference ⟨.ctx 0, 0xE0000000, none, .take⟩ = .ok (.sendEnq 0) ∧
  decode Params.reference ⟨.ctx 0, 0xF0000000, none, .take⟩ = .ok (.sendIen 0) ∧
  decode Params.reference ⟨.irq, 0x90000161, none, .take⟩ = .error .argBits ∧
  decode Params.reference ⟨.ctx 0, 0x31000001, some [0x41], .take⟩ = .error .rsvBits

/-! ## The step -/

/-- R80, R12: a step performs the operation presented next, taken off the port; with none presented nothing happens. The
port is the model's own field (log 2). -/
def Obligations.StepPerformsTheDecodedOperation : Prop :=
  ∀ (s : State),
    (s.port = [] → step s = .next s) ∧
    (∀ o rest i, s.port = o :: rest → decode s.params o = .ok i → step s = exec i { s with port := rest }) ∧
    (∀ i rest, s.port = encode i :: rest → i.wf s.params = true → i.isInternal = false →
      step s = exec i { s with port := rest })

/-- R13, R47, R237: a refused word sets the sticky mark and changes nothing else of the block. That it is a next state is
the model's reading (log 4). -/
def Obligations.RefusedWordSetsTheMarkOnly : Prop :=
  ∀ (s : State) (o : Offer) (rest : List Offer) (r : RefuseReason),
    s.port = o :: rest → decode s.params o = .error r →
    step s = .next { s with port := rest, refused := true, last := .refused r }

/-! ## Control -/

/-- R200, R50, R201: RESET puts every control and status element at its reset value and empties the outputs; the
contexts, the refused mark, the parameters, the replies and the port stay. It is refused while a continuation is pending. -/
def Obligations.ResetEffect : Prop :=
  ∀ (s : State),
    ((∃ x ∈ s.ctxs, x.cont ≠ .none) →
      exec .reset s = .next { s with refused := true, last := .refused .resetPending }) ∧
    ((∀ x ∈ s.ctxs, x.cont = .none) →
      ∃ t, exec .reset s = .next t ∧
        t.txq.head = 0 ∧ t.txq.tail = 0 ∧ t.txq.count = 0 ∧ t.tx.busy = false ∧ t.tx.len = 0 ∧ t.tx.pos = 0 ∧
        t.txIe = false ∧ t.rxIe = false ∧ t.active = false ∧ t.rx.widx = false ∧ t.rx.pos = 0 ∧
        t.mbx.ready = false ∧ t.mbx.len = 0 ∧ t.rxSig = 0 ∧ t.txDoneSig = 0 ∧ t.wireTx = [] ∧ t.events = [] ∧
        (∀ x ∈ t.ctxs, x.cont = .none) ∧
        t.ctxs = s.ctxs ∧ t.refused = s.refused ∧ t.params = s.params ∧ t.replies = s.replies ∧ t.port = s.port ∧
        t.last = .completed .nothing)

/-- R203: ACTIVATE sets `active` and `rx_ie` when the device is ready, and changes nothing otherwise. -/
def Obligations.ActivateEffect : Prop :=
  ∀ (s : State) (c : Nat) (x : Ctx), s.ctxs[c]? = some x → x.cont = .none → x.wait = none →
    exec (.activate c true) s =
      .next { s with active := true, rxIe := true, replies := s.replies ++ [⟨c, .ok, none⟩],
                     last := .completed (.toCtx ⟨c, .ok, none⟩) } ∧
    exec (.activate c false) s =
      .next { s with replies := s.replies ++ [⟨c, .notReady, none⟩],
                     last := .completed (.toCtx ⟨c, .notReady, none⟩) }

/-! ## The send port -/

/-- R120, R124: SEND's first step. Inactive: refused. Too long: TOO_LARGE, no state change. Idle: the frame goes in
flight from its first byte, every other byte of the buffer kept, IEN pending. Busy: ENQ pending. -/
def Obligations.SendFirstStep : Prop :=
  ∀ (s : State) (c : Nat) (x : Ctx) (d : Frame), s.ctxs[c]? = some x → x.cont = .none → x.wait = none →
    (s.active = false → exec (.send c d) s = .next { s with refused := true, last := .refused .notActive }) ∧
    (s.active = true → s.params.txMax < d.length →
      exec (.send c d) s = .next { s with replies := s.replies ++ [⟨c, .tooLarge, none⟩],
                                          last := .completed (.toCtx ⟨c, .tooLarge, none⟩) }) ∧
    (s.active = true → d.length ≤ s.params.txMax → s.tx.busy = false →
      ∃ m : Memory,
        exec (.send c d) s = .next { s with tx := { buf := m, len := d.length, pos := 0, busy := true },
                                            ctxs := s.ctxs.set c { x with cont := .ien },
                                            last := .completed .nothing } ∧
        ∀ j, m.read j = if j < d.length then d[j]? else s.tx.buf.read j) ∧
    (s.active = true → d.length ≤ s.params.txMax → s.tx.busy = true →
      exec (.send c d) s = .next { s with ctxs := s.ctxs.set c { x with cont := .enq d },
                                          last := .completed .nothing })

/-- R121: SEND.ENQ pushes the pending frame and returns OK, or returns QUEUE_FULL with the queue unchanged; it writes
nothing but the queue and the continuation. On OK the slot at `head` holds the frame and its length, with every other byte
of it and every other slot kept, `head` moves on mod N, `count` grows, and the frames held are those of before and then
this one. -/
def Obligations.SendEnqEffect : Prop :=
  ∀ (s : State) (c : Nat) (x : Ctx) (d : Frame), QueueInv s.params s.txq →
    s.ctxs[c]? = some x → x.cont = .enq d → d.length ≤ s.params.txMax →
    (s.txq.count = s.params.n →
      exec (.sendEnq c) s = .next { s with ctxs := s.ctxs.set c { x with cont := .none },
                                           replies := s.replies ++ [⟨c, .queueFull, none⟩],
                                           last := .completed (.toCtx ⟨c, .queueFull, none⟩) }) ∧
    (s.txq.count < s.params.n →
      ∃ (slot : Slot) (m : Memory) (q : TxQueue), s.txq.slots[s.txq.head]? = some slot ∧
        q = { slots := s.txq.slots.set s.txq.head { len := d.length, data := m },
              head := (s.txq.head + 1) % s.params.n, tail := s.txq.tail, count := s.txq.count + 1 } ∧
        exec (.sendEnq c) s = .next { s with txq := q, ctxs := s.ctxs.set c { x with cont := .none },
                                             replies := s.replies ++ [⟨c, .ok, none⟩],
                                             last := .completed (.toCtx ⟨c, .ok, none⟩) } ∧
        (∀ j, m.read j = if j < d.length then d[j]? else slot.data.read j) ∧
        q.frames s.params = s.txq.frames s.params ++ [d])

/-- R122: SEND.IEN enables the TX interrupt source and returns OK. -/
def Obligations.SendIenEffect : Prop :=
  ∀ (s : State) (c : Nat) (x : Ctx), s.ctxs[c]? = some x → x.cont = .ien →
    exec (.sendIen c) s = .next { s with txIe := true, ctxs := s.ctxs.set c { x with cont := .none },
                                         replies := s.replies ++ [⟨c, .ok, none⟩],
                                         last := .completed (.toCtx ⟨c, .ok, none⟩) }

/-- R44, R85's last two tests: an operation that does not fit the issuing context's continuation is refused, whatever it
is, and so is one from a context that does not exist, which is the model's reading (DEDUCED, log 10). -/
def Obligations.ContinuationMismatchRefused : Prop :=
  ∀ (s : State) (c : Nat) (i : Instr), i.issuer = .ctx c →
    (∀ x, s.ctxs[c]? = some x → x.cont = .none → i = .sendEnq c ∨ i = .sendIen c) →
    (∀ x d, s.ctxs[c]? = some x → x.cont = .enq d → i ≠ .sendEnq c) →
    (∀ x, s.ctxs[c]? = some x → x.cont = .ien → i ≠ .sendIen c) →
    i.wf s.params = true →
    exec i s = .next { s with refused := true, last := .refused .wrongAgent }

/-- R123: a whole SEND call from a running, invariant state returns exactly one result to its context and leaves it with
no continuation. -/
def Obligations.SendCallReturnsOnce : Prop :=
  ∀ (s : State) (c : Nat) (x : Ctx) (d : Frame), BlockInv s → s.active = true →
    s.ctxs[c]? = some x → x.cont = .none → x.wait = none →
    ∃ t r, sendStar c d s = .next t ∧ t.replies = s.replies ++ [⟨c, r, none⟩] ∧
      (r = .tooLarge ↔ s.params.txMax < d.length) ∧
      (r = .queueFull ↔ d.length ≤ s.params.txMax ∧ s.tx.busy = true ∧ s.txq.count = s.params.n) ∧
      (r = .tooLarge ∨ r = .queueFull ∨ r = .ok) ∧ (t.ctxs[c]?.map Ctx.cont = some .none)

/-! ## The queue -/

/-- R100: TXQ_PUSH. Too long or full: false, nothing changes. Otherwise true: the slot at `head` holds the frame, with
every other byte of it and every other slot kept, `head` moves on mod N, `count` grows. -/
def Obligations.TxqPushEffect : Prop :=
  ∀ (s : State) (d : Frame), QueueInv s.params s.txq →
    (s.params.txMax < d.length ∨ s.txq.count = s.params.n →
      exec (.txqPush d) s = .next { s with last := .completed (.pushed false) }) ∧
    (d.length ≤ s.params.txMax → s.txq.count < s.params.n →
      ∃ (slot : Slot) (m : Memory), s.txq.slots[s.txq.head]? = some slot ∧
        exec (.txqPush d) s =
          .next { s with txq := { slots := s.txq.slots.set s.txq.head { len := d.length, data := m },
                                  head := (s.txq.head + 1) % s.params.n, tail := s.txq.tail,
                                  count := s.txq.count + 1 },
                         last := .completed (.pushed true) } ∧
        ∀ j, m.read j = if j < d.length then d[j]? else slot.data.read j)

/-- R101: TXQ_POP. Empty: EMPTY, nothing changes. Otherwise the oldest frame, the one in the slot at `tail`; `tail`
moves on mod N, `count` falls, every slot keeps its bytes. -/
def Obligations.TxqPopEffect : Prop :=
  ∀ (s : State), QueueInv s.params s.txq →
    (s.txq.count = 0 → exec .txqPop s = .next { s with last := .completed (.popped none) }) ∧
    (s.txq.count ≠ 0 →
      ∃ (slot : Slot) (d : Frame), s.txq.slots[s.txq.tail]? = some slot ∧
        exec .txqPop s =
          .next { s with txq := { s.txq with tail := (s.txq.tail + 1) % s.params.n, count := s.txq.count - 1 },
                         last := .completed (.popped (some d)) } ∧
        d.length = slot.len ∧ (∀ j, j < slot.len → d[j]? = slot.data.read j) ∧
        (s.txq.frames s.params).head? = some d)

/-- R103, R102: for every sequence of pushes and pops the ring answers what a first-in first-out list of at most N
frames answers, without loss, duplication or alteration. -/
def Obligations.RingIsABoundedFifo : Prop :=
  ∀ (p : Params) (q : TxQueue) (ops : List QueueOp), p.wf → QueueInv p q →
    ringTrace p ops q = .ok (fifoTrace p ops (q.frames p))

/-- R27: the indices meet exactly when the queue is empty or full. -/
def Obligations.IndicesMeetIffEmptyOrFull : Prop :=
  ∀ (p : Params) (q : TxQueue), QueueInv p q → (q.head = q.tail ↔ q.count = 0 ∨ q.count = p.n)

/-! ## The drainer -/

/-- R140, R144: TX_READY. Disabled: nothing happens. Idle (outside the invariant): the enable is cleared and nothing
else. Otherwise `min(k, len - pos)` bytes go to the wire in index order; a frame so completed gives the completion signal
and is followed by Idle or by the oldest queued frame from its first byte. -/
def Obligations.TxReadyEffect : Prop :=
  ∀ (s : State) (k : BitVec 16),
    (s.txIe = false → exec (.txReady k) s = .next { s with last := .notEnabled }) ∧
    (s.txIe = true → s.tx.busy = false →
      exec (.txReady k) s = .next { s with txIe := false, last := .completed .nothing }) ∧
    (BlockInv s → s.txIe = true →
      ∃ bs : List Byte, bs.length = min k.toNat (s.tx.len - s.tx.pos) ∧
        (∀ j, j < bs.length → bs[j]? = s.tx.buf.read (s.tx.pos + j)) ∧
        (s.tx.pos + bs.length < s.tx.len →
          exec (.txReady k) s =
            .next { s with wireTx := s.wireTx ++ bs, tx := { s.tx with pos := s.tx.pos + bs.length },
                           last := .completed .nothing }) ∧
        (s.tx.pos + bs.length = s.tx.len → s.txq.count = 0 →
          exec (.txReady k) s =
            .next { s with wireTx := s.wireTx ++ bs, tx := { s.tx with pos := s.tx.len, busy := false },
                           txIe := false, txDoneSig := if s.params.hasTxDone then 1 else s.txDoneSig,
                           last := .completed .nothing }) ∧
        (s.tx.pos + bs.length = s.tx.len → s.txq.count ≠ 0 →
          ∃ (d : Frame) (m : Memory), s.txq.frames s.params = d :: (s.txq.frames s.params).tail ∧
            exec (.txReady k) s =
              .next { s with wireTx := s.wireTx ++ bs,
                             tx := { buf := m, len := d.length, pos := 0, busy := true },
                             txq := { s.txq with tail := (s.txq.tail + 1) % s.params.n,
                                                 count := s.txq.count - 1 },
                             txDoneSig := if s.params.hasTxDone then 1 else s.txDoneSig,
                             last := .completed .nothing } ∧
            ∀ j, m.read j = if j < d.length then d[j]? else s.tx.buf.read j))

/-- R147, R146: from a busy, enabled state, any TX_READY events with `k >= 1`, at least the rule's bound in number and
nothing in between, leave the drainer Idle and the queue empty, and the wire carries exactly the rest of the in-flight
frame and then every queued frame in order. -/
def Obligations.DrainFinishesInOrder : Prop :=
  ∀ (s : State) (ks : List (BitVec 16)), BlockInv s → s.tx.busy = true → s.txIe = true →
    (∀ k ∈ ks, k ≠ 0) → s.drainBound ≤ ks.length →
    ∃ t, execAll (ks.map Instr.txReady) s = .next t ∧ t.tx.busy = false ∧ t.txIe = false ∧ t.txq.count = 0 ∧
      t.wireTx = s.wireStream

/-- R125, R146: over any run without RESET in which no SEND.ENQ is performed while the drainer is Idle, an Idle drainer
keeps an empty queue, and what has been handed over and is still to be handed over is what was there and then the
committed frames in commit order, each exactly once, their bytes not interleaved. -/
def Obligations.WireFollowsCommitOrder : Prop :=
  ∀ (is : List Instr) (s t : State), BlockInv s → s.NoStranded → (∀ i ∈ is, isRunning i = true) → noIdleEnq is s →
    execAll is s = .next t →
    t.NoStranded ∧ t.wireStream = s.wireStream ++ (commits is s).flatten ∧ t.wireTx <+: t.wireStream

/-- R253: a SEND.ENQ performed while the drainer is Idle returns OK and queues its frame behind those held, and held frames
stay queued with the drainer Idle and disabled through every operation that is not a SEND or RESET. -/
def Obligations.StrandedFrameWaits : Prop :=
  (∀ (s : State) (c : Nat) (x : Ctx) (d : Frame), BlockInv s → s.tx.busy = false → s.txq.count < s.params.n →
    s.ctxs[c]? = some x → x.cont = .enq d →
    ∃ t, exec (.sendEnq c) s = .next t ∧ t.last = .completed (.toCtx ⟨c, .ok, none⟩) ∧ t.tx.busy = false ∧
      t.txIe = false ∧ t.txq.count = s.txq.count + 1 ∧
      t.txq.frames t.params = s.txq.frames s.params ++ [d]) ∧
  (∀ (s t : State) (i : Instr), BlockInv s → s.tx.busy = false → 1 ≤ s.txq.count → isRunning i = true →
    (∀ c d, i ≠ .send c d) → exec i s = .next t →
    t.tx.busy = false ∧ t.txIe = false ∧ 1 ≤ t.txq.count ∧ t.wireTx = s.wireTx ∧
    s.txq.frames s.params <+: t.txq.frames t.params)

/-- R254, C4: the unconditional order fails. Some run from the launch state that every agent may perform ends Idle with
an empty queue and a wire that is not the committed frames in commit order. The context count of the reference parameters
is the model's choice (log 1). -/
def Obligations.SendWindowReordersTheWire : Prop :=
  ∃ (is : List Instr) (t : State), (∀ i ∈ is, isRunning i = true) ∧
    execAll is (State.launch Params.reference) = .next t ∧ t.tx.busy = false ∧ t.txq.count = 0 ∧
    t.refused = false ∧ t.wireTx ≠ (commits is (State.launch Params.reference)).flatten

/-! ## The assembler -/

/-- R160, R227: a received byte that ends nothing is stored at the cursor of the buffer being filled, and every other
byte of both buffers stays; while `rx_ie = 0` nothing happens. -/
def Obligations.RxByteIsStored : Prop :=
  ∀ (s : State) (b : Byte),
    (s.rxIe = false → exec (.rxByte b) s = .next { s with last := .notEnabled }) ∧
    (s.rxIe = true → b ≠ 0x0D → b ≠ 0x0A → s.rx.pos + 1 < s.params.rxCap →
      ∃ m : Memory,
        exec (.rxByte b) s =
          .next { s with rx := { buf0 := if s.rx.widx then s.rx.buf0 else m,
                                 buf1 := if s.rx.widx then m else s.rx.buf1,
                                 widx := s.rx.widx, pos := s.rx.pos + 1 },
                         last := .completed .nothing } ∧
        ∀ j, m.read j = if j = s.rx.pos then some b else (if s.rx.widx then s.rx.buf1 else s.rx.buf0).read j)

/-- R161 to R163, R167: a terminator ends the frame. With no payload it is an empty line; with a payload the frame is
delivered into an empty mailbox and signalled, or dropped with its length while the mailbox is full; in every case the
terminator is stored, the buffer toggles and the cursor returns to 0, and nothing else changes. -/
def Obligations.RxTerminatorFinalizes : Prop :=
  ∀ (s : State) (b : Byte), BlockInv s → s.rxIe = true → b = 0x0D ∨ b = 0x0A →
    ∃ m : Memory,
      (∀ j, m.read j = if j = s.rx.pos then some b else (if s.rx.widx then s.rx.buf1 else s.rx.buf0).read j) ∧
      let rx' : RxAsm := { buf0 := if s.rx.widx then s.rx.buf0 else m, buf1 := if s.rx.widx then m else s.rx.buf1,
                           widx := !s.rx.widx, pos := 0 }
      (s.rx.pos = 0 → exec (.rxByte b) s = .next { s with rx := rx', last := .completed .nothing }) ∧
      (s.rx.pos ≠ 0 → s.mbx.ready = false →
        ∃ md : Memory,
          exec (.rxByte b) s = .next { s with rx := rx', mbx := { data := md, len := s.rx.pos, ready := true },
                                              rxSig := 1, last := .completed .nothing } ∧
          ∀ j, md.read j = if j < s.rx.pos then (if s.rx.widx then s.rx.buf1 else s.rx.buf0).read j
                           else s.mbx.data.read j) ∧
      (s.rx.pos ≠ 0 → s.mbx.ready = true →
        exec (.rxByte b) s = .next { s with rx := rx', events := s.events ++ [.rxDrop s.rx.pos],
                                            last := .completed .nothing })

/-- R164: without RX_FULL_DELIVERS, the byte that fills the buffer and is no terminator ends the frame as an overflow:
nothing delivered, one RX_OVERFLOW event, toggle, cursor 0. -/
def Obligations.RxFullBufferOverflows : Prop :=
  ∀ (s : State) (b : Byte), s.params.rxFullDelivers = false → s.rxIe = true → b ≠ 0x0D → b ≠ 0x0A →
    s.rx.pos + 1 = s.params.rxCap →
    ∃ m : Memory,
      (∀ j, m.read j = if j = s.rx.pos then some b else (if s.rx.widx then s.rx.buf1 else s.rx.buf0).read j) ∧
      exec (.rxByte b) s =
        .next { s with rx := { buf0 := if s.rx.widx then s.rx.buf0 else m,
                               buf1 := if s.rx.widx then m else s.rx.buf1, widx := !s.rx.widx, pos := 0 },
                       events := s.events ++ [.rxOverflow], last := .completed .nothing }

/-- R165: with RX_FULL_DELIVERS, the same byte finalizes a frame of RX_CAP bytes, delivered or dropped as any other. -/
def Obligations.RxFullBufferDelivers : Prop :=
  ∀ (s : State) (b : Byte), BlockInv s → s.params.rxFullDelivers = true → s.rxIe = true → b ≠ 0x0D → b ≠ 0x0A →
    s.rx.pos + 1 = s.params.rxCap →
    ∃ m : Memory,
      (∀ j, m.read j = if j = s.rx.pos then some b else (if s.rx.widx then s.rx.buf1 else s.rx.buf0).read j) ∧
      let rx' : RxAsm := { buf0 := if s.rx.widx then s.rx.buf0 else m, buf1 := if s.rx.widx then m else s.rx.buf1,
                           widx := !s.rx.widx, pos := 0 }
      (s.mbx.ready = false →
        ∃ md : Memory,
          exec (.rxByte b) s = .next { s with rx := rx', mbx := { data := md, len := s.params.rxCap, ready := true },
                                              rxSig := 1, last := .completed .nothing } ∧
          ∀ j, md.read j = if j < s.params.rxCap then m.read j else s.mbx.data.read j) ∧
      (s.mbx.ready = true →
        exec (.rxByte b) s = .next { s with rx := rx', events := s.events ++ [.rxDrop s.params.rxCap],
                                            last := .completed .nothing })

/-- R168, R161: any payload of 1 to RX_CAP - 1 bytes without a terminator, then one terminator or a pair of them, gives
exactly that frame; terminators alone give none. -/
def Obligations.LineGivesExactlyOneFrame : Prop :=
  ∀ (s : State) (text : List Byte) (e f : Byte), BlockInv s → s.rxIe = true → s.rx.pos = 0 →
    (e = 0x0D ∨ e = 0x0A) → (f = 0x0D ∨ f = 0x0A) →
    (∃ t, rxBytes [e, f] s = .next t ∧ t.mbx = s.mbx ∧ t.rxSig = s.rxSig ∧ t.events = s.events ∧
      t.rx.pos = 0 ∧ t.rx.widx = s.rx.widx) ∧
    ((∀ b ∈ text, b ≠ 0x0D ∧ b ≠ 0x0A) → text ≠ [] → text.length < s.params.rxCap → s.mbx.ready = false →
      (∃ t, rxBytes (text ++ [e]) s = .next t ∧ t.mailboxFrame = some text ∧ t.mbx.len = text.length ∧
        t.rxSig = 1 ∧ t.events = s.events ∧ t.rx.pos = 0 ∧ t.rx.widx = !s.rx.widx) ∧
      (∃ t, rxBytes (text ++ [e, f]) s = .next t ∧ t.mailboxFrame = some text ∧ t.mbx.len = text.length ∧
        t.rxSig = 1 ∧ t.events = s.events ∧ t.rx.pos = 0 ∧ t.rx.widx = s.rx.widx))

/-- R164, W3: RX_CAP bytes without a terminator give one overflow and no frame, and the next frame is delivered whole. -/
def Obligations.OverflowThenRecovery : Prop :=
  ∀ (s : State) (long text : List Byte) (e : Byte), BlockInv s → s.params.rxFullDelivers = false → s.rxIe = true →
    s.rx.pos = 0 → s.mbx.ready = false → long.length = s.params.rxCap → (∀ b ∈ long, b ≠ 0x0D ∧ b ≠ 0x0A) →
    (∀ b ∈ text, b ≠ 0x0D ∧ b ≠ 0x0A) → text ≠ [] → text.length < s.params.rxCap → (e = 0x0D ∨ e = 0x0A) →
    ∃ t u, rxBytes long s = .next t ∧ t.events = s.events ++ [.rxOverflow] ∧ t.mbx = s.mbx ∧ t.rxSig = s.rxSig ∧
      t.rx.pos = 0 ∧ t.rx.widx = !s.rx.widx ∧
      rxBytes (text ++ [e]) t = .next u ∧ u.mailboxFrame = some text ∧ u.events = t.events

/-! ## The mailbox and the signals -/

/-- R181: SIG_TAKE takes the signal, or blocks with the block unchanged, at its first attempt and at every later one by the
context that waits in it (the wait mark and `last` are the model's own, log 3 and log 5). -/
def Obligations.SigTakeEffect : Prop :=
  ∀ (s : State) (c : Nat) (x : Ctx), s.ctxs[c]? = some x → x.cont = .none →
    (x.wait = none ∨ x.wait = some .sigTake) →
    (s.rxSig ≠ 0 →
      exec (.sigTake c) s = .next { s with rxSig := 0, ctxs := s.ctxs.set c { x with wait := none },
                                           replies := s.replies ++ [⟨c, .ok, none⟩],
                                           last := .completed (.toCtx ⟨c, .ok, none⟩) }) ∧
    (s.rxSig = 0 →
      exec (.sigTake c) s = .next { s with ctxs := s.ctxs.set c { x with wait := some .sigTake },
                                           last := .notEnabled })

/-- R182: MBX_READ hands out the frame and clears `ready`, or returns EMPTY; the signal is not touched. -/
def Obligations.MbxReadEffect : Prop :=
  ∀ (s : State) (c : Nat) (x : Ctx), MbxInv s → s.ctxs[c]? = some x → x.cont = .none → x.wait = none →
    (s.mbx.ready = true →
      ∃ d : Frame, d.length = s.mbx.len ∧ (∀ j, j < s.mbx.len → d[j]? = s.mbx.data.read j) ∧
        exec (.mbxRead c) s = .next { s with mbx := { s.mbx with ready := false },
                                             replies := s.replies ++ [⟨c, .ok, some d⟩],
                                             last := .completed (.toCtx ⟨c, .ok, some d⟩) }) ∧
    (s.mbx.ready = false →
      exec (.mbxRead c) s = .next { s with replies := s.replies ++ [⟨c, .empty, none⟩],
                                           last := .completed (.toCtx ⟨c, .empty, none⟩) })

/-- R187: TX_WAIT returns TIMEOUT on an expired draw whatever the signal; otherwise it takes the signal or blocks, at its
first attempt and at every later one by the context that waits in it; without HAS_TX_DONE it is refused. The wait mark and
`last` are the model's own (log 3, log 5). -/
def Obligations.TxWaitEffect : Prop :=
  ∀ (s : State) (c : Nat) (x : Ctx) (w : Draw),
    (s.params.hasTxDone = false →
      exec (.txWait c w) s = .next { s with refused := true, last := .refused .noTxDone }) ∧
    (s.params.hasTxDone = true → s.ctxs[c]? = some x → x.cont = .none → (x.wait = none ∨ x.wait = some .txWait) →
      exec (.txWait c .expire) s = .next { s with ctxs := s.ctxs.set c { x with wait := none },
                                                  replies := s.replies ++ [⟨c, .timeout, none⟩],
                                                  last := .completed (.toCtx ⟨c, .timeout, none⟩) } ∧
      (s.txDoneSig ≠ 0 →
        exec (.txWait c .take) s = .next { s with txDoneSig := 0, ctxs := s.ctxs.set c { x with wait := none },
                                                  replies := s.replies ++ [⟨c, .ok, none⟩],
                                                  last := .completed (.toCtx ⟨c, .ok, none⟩) }) ∧
      (s.txDoneSig = 0 →
        exec (.txWait c .take) s = .next { s with ctxs := s.ctxs.set c { x with wait := some .txWait },
                                                  last := .notEnabled }))

/-- R11, R13: a context that waits in SIG_TAKE or TX_WAIT issues no other operation: one presented by it is not enabled, and
leaves the block and the wait as they are. R85 refuses only by class and continuation, so it is no refusal; that it is this
outcome is the model's reading (DEDUCED, log 3). -/
def Obligations.BlockedContextIssuesNothingElse : Prop :=
  ∀ (s : State) (c : Nat) (x : Ctx) (w : WaitOp) (i : Instr), s.ctxs[c]? = some x → x.cont = .none → x.wait = some w →
    i.issuer = .ctx c → i.wf s.params = true → i ≠ .sendEnq c → i ≠ .sendIen c →
    (w = .sigTake → i ≠ .sigTake c) → (w = .txWait → ∀ d, i ≠ .txWait c d) →
    exec i s = .next { s with last := .notEnabled }

/-- R11, R181, R187, R200: a context stays inside SIG_TAKE until it takes the given signal, and inside TX_WAIT until it takes
its signal or the wait expires, through every operation of every agent, RESET included. The wait mark and the record of
replies are the model's own (log 3, log 5). -/
def Obligations.WaitLastsUntilItsOwnReturn : Prop :=
  ∀ (s t : State) (i : Instr) (c : Nat) (x : Ctx) (w : WaitOp), exec i s = .next t →
    s.ctxs[c]? = some x → x.cont = .none → x.wait = some w →
    t.ctxs[c]? = some x ∨
    (t.ctxs[c]? = some { x with wait := none } ∧
      ((w = .sigTake ∧ i = .sigTake c ∧ s.rxSig ≠ 0 ∧ t.rxSig = 0 ∧ t.replies = s.replies ++ [⟨c, .ok, none⟩]) ∨
       (w = .txWait ∧ i = .txWait c .take ∧ s.txDoneSig ≠ 0 ∧ t.txDoneSig = 0 ∧
         t.replies = s.replies ++ [⟨c, .ok, none⟩]) ∨
       (w = .txWait ∧ i = .txWait c .expire ∧ t.txDoneSig = s.txDoneSig ∧
         t.replies = s.replies ++ [⟨c, .timeout, none⟩])))

/-- R184(a): every operation but MBX_READ keeps "a given signal means a ready mailbox"; so does an MBX_READ that follows
a SIG_TAKE, the signal being 0 there. -/
def Obligations.SignalMeansReadyKept : Prop :=
  ∀ (s t : State) (i : Instr), s.SignalMeansReady → ((∃ c, i = .mbxRead c) → s.rxSig = 0) →
    exec i s = .next t → t.SignalMeansReady

/-- R185: with the signal given and the mailbox empty, a context inside no TX_WAIT: SIG_TAKE completes and the MBX_READ after it returns EMPTY. -/
def Obligations.SpuriousWakeReadsEmpty : Prop :=
  ∀ (s : State) (c : Nat) (x : Ctx), s.ctxs[c]? = some x → x.cont = .none → x.wait ≠ some .txWait → s.rxSig ≠ 0 → s.mbx.ready = false →
    ∃ t, execAll [.sigTake c, .mbxRead c] s = .next t ∧
      t.replies = s.replies ++ [⟨c, .ok, none⟩, ⟨c, .empty, none⟩] ∧ t.rxSig = 0 ∧ t.mbx = s.mbx

/-- R162, R186: a ready mailbox keeps exactly its frame through every operation but MBX_READ and RESET. -/
def Obligations.ReadyFrameIsKept : Prop :=
  ∀ (s t : State) (i : Instr), s.mbx.ready = true → (∀ c, i ≠ .mbxRead c) → i ≠ .reset → exec i s = .next t →
    t.mbx = s.mbx ∧ t.mailboxFrame = s.mailboxFrame

/-! ## Invariants -/

/-- R252: the launch state meets the invariant, for all legal parameters. The unwritten storage and the slot lengths 0 in
it are the model's own (log 6, log 7). -/
def Obligations.LaunchMeetsInvariant : Prop :=
  ∀ p : Params, p.wf → BlockInv (State.launch p) ∧ (State.launch p).MemWf ∧ (State.launch p).NoStranded

/-- R26, R31, R37, R39, R52, each derived by the spec: every step keeps the invariant, from every state that meets it,
whatever is presented. The storage form and the unwritten bytes in it (log 6) and the wait marks (log 3) are the model's. -/
def Obligations.StepKeepsInvariant : Prop :=
  ∀ s t : State, BlockInv s → step s = .next t → BlockInv t

/-- R51, R62, R166: from every state that meets the invariant a step answers a next state: no index leaves its storage,
no unwritten byte is read, no RX byte finds no room. The faults are the model's own (log 6, log 14). -/
def Obligations.InvariantStateStepsOn : Prop :=
  ∀ s : State, BlockInv s → ∃ t, step s = .next t

/-- The model's storage form (log 6): from every state, in the invariant or not, a step keeps every storage in its
canonical form. -/
def Obligations.StepKeepsStorageCanonical : Prop :=
  ∀ s t : State, s.MemWf → step s = .next t → t.MemWf

/-- R9: in the invariant every index, count, length and cursor fits its derived width, the slots' lengths included. -/
def Obligations.ValuesFitTheirWidths : Prop :=
  ∀ s : State, BlockInv s →
    s.txq.head < 2 ^ s.params.idxw ∧ s.txq.tail < 2 ^ s.params.idxw ∧ s.txq.count < 2 ^ s.params.cntw ∧
    s.tx.len < 2 ^ s.params.tlw ∧ s.tx.pos < 2 ^ s.params.tlw ∧ s.rx.pos < 2 ^ s.params.rlw ∧
    s.mbx.len < 2 ^ s.params.rlw ∧ (∀ x ∈ s.txq.slots, x.len < 2 ^ s.params.tlw)

/-! ## Whole-machine rules -/

/-- R47: the refused mark is 0 at reset, every refused step sets it, and no step clears it, not even RESET. -/
def Obligations.RefusedMarkIsSticky : Prop :=
  State.reset.refused = false ∧ (∀ p : Params, (State.launch p).refused = false) ∧
  ∀ s t : State, step s = .next t →
    (s.refused = true → t.refused = true) ∧
    (∀ r, s.port ≠ [] → t.last = .refused r → t.refused = true)

/-- R8: no step changes the parameters; a step takes at most the first offer off the port. Both fields are the model's own
(log 1, log 2). -/
def Obligations.StepKeepsParameters : Prop :=
  ∀ s t : State, step s = .next t → t.params = s.params ∧ t.port = s.port.tail

/-- R45: TX_READY appends to `wire_tx`; no other operation writes it, but RESET. -/
def Obligations.OnlyTxReadyWritesTheWire : Prop :=
  ∀ (s t : State) (i : Instr), i ≠ .reset → exec i s = .next t →
    s.wireTx <+: t.wireTx ∧ ((∀ k, i ≠ .txReady k) → t.wireTx = s.wireTx)

/-- R46, R230: RX_BYTE appends at most one event; no other operation writes `events`, but RESET. -/
def Obligations.OnlyRxByteEmitsEvents : Prop :=
  ∀ (s t : State) (i : Instr), i ≠ .reset → exec i s = .next t →
    ((∀ b, i ≠ .rxByte b) → t.events = s.events) ∧
    (t.events = s.events ∨ t.events = s.events ++ [.rxOverflow] ∨
      ∃ n, 1 ≤ n ∧ s.mbx.ready = true ∧ t.events = s.events ++ [.rxDrop n])

/-- R32: only SEND.IEN sets `tx_ie`, only TX_READY and RESET clear it, and TX_READY occurs only while it is 1. -/
def Obligations.TxEnableWriters : Prop :=
  ∀ (s t : State) (i : Instr), exec i s = .next t →
    (s.txIe = false → t.txIe = true → ∃ c, i = .sendIen c) ∧
    (s.txIe = true → t.txIe = false → (∃ k, i = .txReady k) ∨ i = .reset) ∧
    (s.txIe = false → ∀ k, i = .txReady k → t = { s with last := .notEnabled })

/-- R33, R205: only ACTIVATE with its readiness operand 1 sets `rx_ie` and `active`, only RESET clears them, and RX_BYTE
occurs only while `rx_ie` is 1. -/
def Obligations.ActivationWriters : Prop :=
  ∀ (s t : State) (i : Instr), exec i s = .next t →
    (t.rxIe ≠ s.rxIe ∨ t.active ≠ s.active →
      (∃ c, i = .activate c true ∧ t.rxIe = true ∧ t.active = true) ∨
      (i = .reset ∧ t.rxIe = false ∧ t.active = false)) ∧
    (s.rxIe = false → ∀ b, i = .rxByte b → t = { s with last := .notEnabled })

/-- R104: only SEND.ENQ's push and TX_READY's pop, the internal operations themselves, and RESET write the queue. -/
def Obligations.QueueWriters : Prop :=
  ∀ (s t : State) (i : Instr), exec i s = .next t → t.txq ≠ s.txq →
    (∃ c, i = .sendEnq c) ∨ (∃ k, i = .txReady k) ∨ (∃ d, i = .txqPush d) ∨ i = .txqPop ∨ i = .reset

/-- R40: RESET apart, the mailbox is written only by RX_BYTE while `ready` is 0, only MBX_READ clears `ready`, and a
consumer's read that completes always leaves it clear. -/
def Obligations.MailboxWriters : Prop :=
  ∀ (s t : State) (i : Instr), i ≠ .reset → exec i s = .next t →
    (t.mbx.data ≠ s.mbx.data ∨ t.mbx.len ≠ s.mbx.len ∨ (s.mbx.ready = false ∧ t.mbx.ready = true) →
      (∃ b, i = .rxByte b) ∧ s.mbx.ready = false ∧ t.mbx.ready = true) ∧
    (s.mbx.ready = true → t.mbx.ready = false → ∃ c, i = .mbxRead c) ∧
    (∀ c r, i = .mbxRead c → t.last = .completed r → t.mbx.ready = false)

/-- R71, R258: the in-flight frame is written by SEND only while the drainer is Idle, by TX_READY only while it
transmits, and by RESET. -/
def Obligations.InFlightWriters : Prop :=
  ∀ (s t : State) (i : Instr), exec i s = .next t → t.tx ≠ s.tx →
    ((∃ c d, i = .send c d) ∧ s.tx.busy = false ∧ t.tx.busy = true ∧ t.tx.pos = 0) ∨
    ((∃ k, i = .txReady k) ∧ s.tx.busy = true) ∨ i = .reset

/-- R36, R38, R167: only RX_BYTE (and RESET) writes the assembler; the buffer not selected keeps every byte; and the
selection changes only together with the cursor's return to 0. -/
def Obligations.OnlySelectedBufferIsWritten : Prop :=
  ∀ (s t : State) (i : Instr), i ≠ .reset → exec i s = .next t →
    ((∀ b, i ≠ .rxByte b) → t.rx = s.rx) ∧
    (if s.rx.widx then t.rx.buf0 = s.rx.buf0 else t.rx.buf1 = s.rx.buf1) ∧
    (t.rx.widx ≠ s.rx.widx → t.rx.pos = 0)

/-- R228, R220: a step returns at most one result, to the context that issued the operation. The record of replies is the
model's own (log 5). -/
def Obligations.AtMostOneResultPerStep : Prop :=
  ∀ (s t : State) (i : Instr), exec i s = .next t →
    t.replies = s.replies ∨ ∃ r : Reply, i.issuer = .ctx r.ctx ∧ t.replies = s.replies ++ [r] ∧
      t.last = .completed (.toCtx r)

/-- R43, R44: an operation changes the continuation of no context but its issuer's. -/
def Obligations.OthersContinuationsKept : Prop :=
  ∀ (s t : State) (i : Instr) (c : Nat), exec i s = .next t → i.issuer ≠ .ctx c → t.ctxs[c]? = s.ctxs[c]?

/-- R13, R47: an operation that is refused changes nothing but the mark (and the model's own `last`), and one that is
not enabled changes nothing but the model's own wait mark and `last` (log 3, log 4, log 5). -/
def Obligations.TurnedAwayChangesNothing : Prop :=
  ∀ (s t : State) (i : Instr), exec i s = .next t →
    (∀ r, t.last = .refused r → t = { s with refused := true, last := .refused r }) ∧
    (t.last = .notEnabled → ∃ cs : List Ctx, cs.map Ctx.cont = s.ctxs.map Ctx.cont ∧
      t = { s with ctxs := cs, last := .notEnabled })
end

