-- ==== Sys2Proof/Laws/Decode.lean ====
section
/-!
SUPPORT. The fields of an operation word: what packing writes and what unpacking reads.
-/

namespace Sys2Proof

/-- The bits of a packed word (R81). -/
theorem getLsbD_packWord (op : BitVec 4) (arg : BitVec 16) (i : Nat) :
    (packWord op arg).getLsbD i =
      if i < 16 then arg.getLsbD i else if i < 28 then false else op.getLsbD (i - 28) := by
  have h : (packWord op arg).getLsbD i = (op ++ (0#12 ++ arg)).getLsbD i := rfl
  rw [h, BitVec.getLsbD_append, BitVec.getLsbD_append]
  by_cases h1 : i < 16
  · simp [h1, show i < 12 + 16 by omega]
  · by_cases h2 : i < 28
    · simp [h1, h2]
    · simp [show ¬ i < 12 + 16 by omega, h1]

/-- The operation code of a packed word. -/
theorem opField_packWord (op : BitVec 4) (arg : BitVec 16) : opField (packWord op arg) = op := by
  apply BitVec.eq_of_getLsbD_eq
  intro i hi
  unfold opField
  rw [BitVec.getLsbD_extractLsb', getLsbD_packWord]
  simp [hi, show ¬ 28 + i < 16 by omega, show ¬ 28 + i < 28 by omega]

/-- The reserved bits of a packed word are zero. -/
theorem rsvField_packWord (op : BitVec 4) (arg : BitVec 16) : rsvField (packWord op arg) = 0 := by
  apply BitVec.eq_of_getLsbD_eq
  intro i hi
  unfold rsvField
  rw [BitVec.getLsbD_extractLsb', getLsbD_packWord]
  simp [show ¬ 16 + i < 16 by omega, show 16 + i < 28 by omega]

/-- The argument of a packed word. -/
theorem argField_packWord (op : BitVec 4) (arg : BitVec 16) : argField (packWord op arg) = arg := by
  apply BitVec.eq_of_getLsbD_eq
  intro i hi
  unfold argField
  rw [BitVec.getLsbD_extractLsb', getLsbD_packWord]
  simp [hi]

/-- The reserved bits are bits 16 to 27 of the word. -/
theorem rsvField_eq_zero_iff (w : OpWord) :
    rsvField w = 0 ↔ ∀ j, 16 ≤ j → j ≤ 27 → w.getLsbD j = false := by
  constructor
  · intro h j h1 h2
    have := congrArg (fun x => BitVec.getLsbD x (j - 16)) h
    simpa [rsvField, show j - 16 < 12 by omega, show 16 + (j - 16) = j by omega] using this
  · intro h
    apply BitVec.eq_of_getLsbD_eq
    intro i hi
    simp [rsvField, h (16 + i) (by omega) (by omega)]

/-- A word whose reserved bits are zero is packed from its code and its argument. -/
theorem packWord_fields (w : OpWord) (h : rsvField w = 0) : packWord (opField w) (argField w) = w := by
  have h' := (rsvField_eq_zero_iff w).mp h
  apply BitVec.eq_of_getLsbD_eq
  intro i hi
  rw [getLsbD_packWord]
  by_cases h1 : i < 16
  · simp [h1, argField]
  · by_cases h2 : i < 28
    · simp [h1, h2, h' i (by omega) (by omega)]
    · simp [h1, h2, opField, show 28 + (i - 28) = i by omega]
      omega

/-- The operation code as a number. -/
theorem opField_toNat (w : OpWord) : (opField w).toNat = w.toNat / 2 ^ 28 := by
  have := w.isLt
  simp only [opField, BitVec.extractLsb'_toNat, Nat.shiftRight_eq_div_pow]
  omega

/-- The reserved bits as a number. -/
theorem rsvField_toNat (w : OpWord) : (rsvField w).toNat = w.toNat / 2 ^ 16 % 2 ^ 12 := by
  simp only [rsvField, BitVec.extractLsb'_toNat, Nat.shiftRight_eq_div_pow]

/-- What an accepted word has passed (R85). -/
theorem decode_ok {p : Params} {o : Offer} {i : Instr} (h : decode p o = .ok i) :
    rsvField o.word = 0 ∧ opClass (opField o.word) ≠ .reserved ∧ opClass (opField o.word) ≠ .internal ∧
    (opField o.word = 0x6#4 → p.hasTxDone = true) ∧ (opClass (opField o.word)).admits p o.agent = true ∧
    dataMatches (opField o.word) (argField o.word) o.data = true ∧
    argClean (opField o.word) (argField o.word) = true ∧
    spell (opField o.word) (argField o.word) o = some i := by
  unfold decode at h
  simp only at h
  split at h
  · cases h
  split at h
  · cases h
  split at h
  · cases h
  split at h
  · cases h
  split at h
  · cases h
  split at h
  · cases h
  split at h
  · cases h
  split at h
  · cases h
    simp_all
  · cases h

end Sys2Proof
end

