-- ==== Sys2Proof/Laws/Memory.lean ====
section
/-!
SUPPORT. What the storage operations do, said through the read of one byte, and that they keep the canonical form and
the size.
-/

namespace Sys2Proof.Machine

/-- A write is read back, and leaves every other byte alone. -/
theorem read_write (m : Memory) (a : Nat) (v : Byte) (j : Nat) :
    (m.write a v).read j = if j = a then some v else m.read j := by
  induction m with
  | nil => simp [Memory.write, Memory.read]
  | cons x rest ih =>
    obtain ⟨k, b⟩ := x
    simp only [Memory.write]
    split
    · simp [Memory.read]
    · split
      · subst_vars
        by_cases hj : j = k <;> simp [Memory.read, hj]
      · simp only [Memory.read, ih]
        split <;> split <;> simp_all

/-- A range write is read back, and leaves every byte outside the range alone. -/
theorem read_writeRange (bs : List Byte) : ∀ (m : Memory) (i j : Nat),
    (m.writeRange i bs).read j = if i ≤ j ∧ j < i + bs.length then bs[j - i]? else m.read j := by
  induction bs with
  | nil =>
    intro m i j
    simp [Memory.writeRange]
  | cons b bs ih =>
    intro m i j
    simp only [Memory.writeRange, ih, read_write, List.length_cons]
    by_cases h1 : i + 1 ≤ j ∧ j < i + 1 + bs.length
    · rw [if_pos h1, if_pos (by omega)]
      rw [show j - i = (j - (i + 1)) + 1 by omega, List.getElem?_cons_succ]
    · rw [if_neg h1]
      by_cases h2 : j = i
      · subst h2
        rw [if_pos rfl, if_pos (by omega)]
        simp
      · rw [if_neg h2, if_neg (by omega)]

/-- The bytes a storage holds from index `i` on. -/
theorem readRange_eq_some_iff (m : Memory) : ∀ (n i : Nat) (bs : List Byte),
    m.readRange i n = some bs ↔ bs.length = n ∧ ∀ j, j < n → bs[j]? = m.read (i + j) := by
  intro n
  induction n with
  | zero =>
    intro i bs
    simp only [Memory.readRange, Option.some.injEq]
    constructor
    · rintro rfl; simp
    · rintro ⟨h, -⟩; exact (List.length_eq_zero_iff.mp h).symm
  | succ n ih =>
    intro i bs
    have key : ∀ b cs, m.read i = some b → (m.readRange (i + 1) n = some cs ↔
        (b :: cs).length = n + 1 ∧ ∀ j, j < n + 1 → (b :: cs)[j]? = m.read (i + j)) := by
      intro b cs hb
      rw [ih]
      constructor
      · rintro ⟨hl, hr⟩
        refine ⟨by simp [hl], fun j hj => ?_⟩
        cases j with
        | zero => simp [hb]
        | succ j =>
          rw [List.getElem?_cons_succ, hr j (by omega)]
          congr 1; omega
      · rintro ⟨hl, hr⟩
        refine ⟨by simpa using hl, fun j hj => ?_⟩
        have := hr (j + 1) (by omega)
        rw [List.getElem?_cons_succ] at this
        rw [this]; congr 1; omega
    simp only [Memory.readRange]
    cases hb : m.read i with
    | none =>
      simp only [reduceCtorEq, false_iff]
      rintro ⟨hl, hr⟩
      have := hr 0 (by omega)
      rw [Nat.add_zero, hb] at this
      cases bs with
      | nil => simp at hl
      | cons => simp at this
    | some b =>
      simp only
      cases hc : m.readRange (i + 1) n with
      | none =>
        simp only [reduceCtorEq, false_iff]
        rintro ⟨hl, hr⟩
        cases bs with
        | nil => simp at hl
        | cons c cs =>
          have h0 := hr 0 (by omega)
          rw [Nat.add_zero, hb] at h0
          obtain rfl : c = b := by simpa using h0
          have := (key c cs hb).mpr ⟨hl, hr⟩
          rw [hc] at this; cases this
      | some cs =>
        simp only [Option.some.injEq]
        constructor
        · rintro rfl
          exact (key b cs hb).mp hc
        · rintro ⟨hl, hr⟩
          cases bs with
          | nil => simp at hl
          | cons c ds =>
            have h0 := hr 0 (by omega)
            rw [Nat.add_zero, hb] at h0
            obtain rfl : c = b := by simpa using h0
            have := (key c ds hb).mpr ⟨hl, hr⟩
            rw [hc] at this; simpa using this

/-- A range of written bytes can be read. -/
theorem readRange_of_filled (m : Memory) : ∀ (n i : Nat), (∀ j, j < n → (m.read (i + j)).isSome) →
    ∃ bs, m.readRange i n = some bs := by
  intro n
  induction n with
  | zero => intro i _; exact ⟨[], rfl⟩
  | succ n ih =>
    intro i h
    obtain ⟨b, hb⟩ := Option.isSome_iff_exists.mp (h 0 (by omega))
    obtain ⟨bs, hbs⟩ := ih (i + 1) (fun j hj => by
      have := h (j + 1) (by omega)
      rwa [show i + (j + 1) = i + 1 + j by omega] at this)
    exact ⟨b :: bs, by simp [Memory.readRange, show m.read i = some b from hb, hbs]⟩

/-- Every key of a write is the written index or a key from before. -/
theorem mem_write {m : Memory} {a : Nat} {v : Byte} {x : Host.Cell} (h : x ∈ m.write a v) :
    x.1 = a ∨ x ∈ m := by
  induction m with
  | nil => simp [Memory.write] at h; simp [h]
  | cons y rest ih =>
    obtain ⟨k, b⟩ := y
    simp only [Memory.write] at h
    split at h
    · rcases List.mem_cons.mp h with rfl | h
      · simp
      · exact Or.inr h
    · split at h
      · rcases List.mem_cons.mp h with rfl | h
        · simp
        · exact Or.inr (List.mem_cons_of_mem _ h)
      · rcases List.mem_cons.mp h with rfl | h
        · simp
        · rcases ih h with h | h
          · exact Or.inl h
          · exact Or.inr (List.mem_cons_of_mem _ h)

/-- A write keeps the canonical form. -/
theorem write_wf {m : Memory} (h : m.wf) (a : Nat) (v : Byte) : (m.write a v).wf := by
  induction m with
  | nil => simp [Memory.write, Memory.wf]
  | cons x rest ih =>
    obtain ⟨k, b⟩ := x
    have hp : (k :: rest.map Prod.fst).Pairwise (· < ·) := h
    have hk : ∀ y ∈ rest, k < y.1 := fun y hy =>
      (List.pairwise_cons.mp hp).1 y.1 (List.mem_map_of_mem hy)
    have hr : Memory.wf rest := (List.pairwise_cons.mp hp).2
    simp only [Memory.write]
    split
    · rename_i hak
      simp only [Memory.wf, List.map_cons, List.pairwise_cons]
      refine ⟨?_, ?_, hr⟩
      · intro c hc
        rcases List.mem_cons.mp hc with rfl | hc
        · exact hak
        · obtain ⟨y, hy, rfl⟩ := List.mem_map.mp hc
          exact Nat.lt_trans hak (hk y hy)
      · intro c hc
        obtain ⟨y, hy, rfl⟩ := List.mem_map.mp hc
        exact hk y hy
    · split
      · subst_vars
        simpa [Memory.wf] using h
      · rename_i h1 h2
        simp only [Memory.wf, List.map_cons, List.pairwise_cons]
        refine ⟨?_, ih hr⟩
        intro c hc
        obtain ⟨y, hy, rfl⟩ := List.mem_map.mp hc
        rcases mem_write hy with h | h
        · omega
        · exact hk y h

/-- A range write keeps the canonical form. -/
theorem writeRange_wf (bs : List Byte) : ∀ {m : Memory}, m.wf → ∀ i, (m.writeRange i bs).wf := by
  induction bs with
  | nil => intro m h i; exact h
  | cons b bs ih => intro m h i; exact ih (write_wf h i b) (i + 1)

/-- A write inside the storage keeps its size. -/
theorem write_within {m : Memory} {cap : Nat} (h : m.within cap) {a : Nat} (ha : a < cap) (v : Byte) :
    (m.write a v).within cap := by
  intro x hx
  rcases mem_write hx with h1 | h1
  · omega
  · exact h x h1

/-- A range write inside the storage keeps its size. -/
theorem writeRange_within (bs : List Byte) : ∀ {m : Memory} {cap : Nat}, m.within cap →
    ∀ i, i + bs.length ≤ cap → (m.writeRange i bs).within cap := by
  induction bs with
  | nil => intro m cap h i _; exact h
  | cons b bs ih =>
    intro m cap h i hi
    simp only [List.length_cons] at hi
    exact ih (write_within h (by omega) b) (i + 1) (by omega)

/-- A write keeps a storage sound. -/
theorem write_sound {cap : Nat} {m : Memory} (h : m.Sound cap) {a : Nat} (ha : a < cap) (v : Byte) :
    (m.write a v).Sound cap :=
  ⟨write_wf h.1 a v, write_within h.2 ha v⟩

/-- A range write keeps a storage sound. -/
theorem writeRange_sound {cap : Nat} {m : Memory} (h : m.Sound cap) {i : Nat} {bs : List Byte}
    (hi : i + bs.length ≤ cap) : (m.writeRange i bs).Sound cap :=
  ⟨writeRange_wf bs h.1 i, writeRange_within bs h.2 i hi⟩

/-- After a write from index 0, the bytes written are there. -/
theorem writeRange_filled (m : Memory) (bs : List Byte) : (m.writeRange 0 bs).filled bs.length := by
  intro j hj
  rw [read_writeRange, if_pos (by omega)]
  simp [hj]

/-- What is written from index 0 is read back as a range. -/
theorem readRange_writeRange (m : Memory) (bs : List Byte) :
    (m.writeRange 0 bs).readRange 0 bs.length = some bs := by
  rw [readRange_eq_some_iff]
  refine ⟨rfl, fun j hj => ?_⟩
  rw [read_writeRange, if_pos (by omega)]
  simp

/-- A bounded read succeeds on written bytes, and gives them. -/
theorem loadBytes_of_filled {cap : Nat} {m : Memory} {i n : Nat} (hn : i + n ≤ cap)
    (hf : m.filled (i + n)) :
    ∃ bs, loadBytes cap m i n = .ok bs ∧ m.readRange i n = some bs ∧ bs.length = n ∧
      ∀ j, j < n → bs[j]? = m.read (i + j) := by
  obtain ⟨bs, hbs⟩ := readRange_of_filled m n i (fun j hj => hf (i + j) (by omega))
  have := (readRange_eq_some_iff m n i bs).mp hbs
  exact ⟨bs, by simp [loadBytes, hn, hbs], hbs, this⟩

/-- What a bounded read that succeeds has read. -/
theorem loadBytes_ok {cap : Nat} {m : Memory} {i n : Nat} {bs : List Byte}
    (h : loadBytes cap m i n = .ok bs) : i + n ≤ cap ∧ m.readRange i n = some bs := by
  unfold loadBytes at h
  split at h
  · rename_i hle
    split at h
    · rename_i bs' hbs
      cases h
      exact ⟨hle, hbs⟩
    · cases h
  · cases h

/-- A bounded write inside the storage succeeds. -/
theorem storeBytes_of_le {cap : Nat} {m : Memory} {i : Nat} {bs : List Byte} (h : i + bs.length ≤ cap) :
    storeBytes cap m i bs = .ok (m.writeRange i bs) := by
  simp [storeBytes, h]

/-- What a bounded write that succeeds has written. -/
theorem storeBytes_ok {cap : Nat} {m m' : Memory} {i : Nat} {bs : List Byte}
    (h : storeBytes cap m i bs = .ok m') : i + bs.length ≤ cap ∧ m' = m.writeRange i bs := by
  unfold storeBytes at h
  split at h
  · rename_i hle
    cases h
    exact ⟨hle, rfl⟩
  · cases h

end Sys2Proof.Machine
end

