-- ==== Sys2Proof/Laws/State.lean ====
section
/-!
SUPPORT. One lemma per field per update of the state.
-/

namespace Sys2Proof.Machine

/-- Writing a continuation is writing the context. -/
@[simp] theorem setCont_eq (s : State) (c : Nat) (x : Ctx) (k : Cont) :
    s.setCont c x k = s.setCtx c { x with cont := k } := rfl

/-- Writing the wait mark is writing the context. -/
@[simp] theorem setWait_eq (s : State) (c : Nat) (x : Ctx) (w : Option WaitOp) :
    s.setWait c x w = s.setCtx c { x with wait := w } := rfl

@[simp] theorem done_txq (s : State) (r : Returned) : (s.done r).txq = s.txq := rfl
@[simp] theorem done_tx (s : State) (r : Returned) : (s.done r).tx = s.tx := rfl
@[simp] theorem done_txIe (s : State) (r : Returned) : (s.done r).txIe = s.txIe := rfl
@[simp] theorem done_rxIe (s : State) (r : Returned) : (s.done r).rxIe = s.rxIe := rfl
@[simp] theorem done_active (s : State) (r : Returned) : (s.done r).active = s.active := rfl
@[simp] theorem done_rx (s : State) (r : Returned) : (s.done r).rx = s.rx := rfl
@[simp] theorem done_mbx (s : State) (r : Returned) : (s.done r).mbx = s.mbx := rfl
@[simp] theorem done_rxSig (s : State) (r : Returned) : (s.done r).rxSig = s.rxSig := rfl
@[simp] theorem done_txDoneSig (s : State) (r : Returned) : (s.done r).txDoneSig = s.txDoneSig := rfl
@[simp] theorem done_ctxs (s : State) (r : Returned) : (s.done r).ctxs = s.ctxs := rfl
@[simp] theorem done_wireTx (s : State) (r : Returned) : (s.done r).wireTx = s.wireTx := rfl
@[simp] theorem done_events (s : State) (r : Returned) : (s.done r).events = s.events := rfl
@[simp] theorem done_refused (s : State) (r : Returned) : (s.done r).refused = s.refused := rfl
@[simp] theorem done_params (s : State) (r : Returned) : (s.done r).params = s.params := rfl
@[simp] theorem done_replies (s : State) (r : Returned) : (s.done r).replies = s.replies := rfl
@[simp] theorem done_last (s : State) (r : Returned) : (s.done r).last = .completed r := rfl
@[simp] theorem done_port (s : State) (r : Returned) : (s.done r).port = s.port := rfl

@[simp] theorem answer_txq (s : State) (r : Reply) : (s.answer r).txq = s.txq := rfl
@[simp] theorem answer_tx (s : State) (r : Reply) : (s.answer r).tx = s.tx := rfl
@[simp] theorem answer_txIe (s : State) (r : Reply) : (s.answer r).txIe = s.txIe := rfl
@[simp] theorem answer_rxIe (s : State) (r : Reply) : (s.answer r).rxIe = s.rxIe := rfl
@[simp] theorem answer_active (s : State) (r : Reply) : (s.answer r).active = s.active := rfl
@[simp] theorem answer_rx (s : State) (r : Reply) : (s.answer r).rx = s.rx := rfl
@[simp] theorem answer_mbx (s : State) (r : Reply) : (s.answer r).mbx = s.mbx := rfl
@[simp] theorem answer_rxSig (s : State) (r : Reply) : (s.answer r).rxSig = s.rxSig := rfl
@[simp] theorem answer_txDoneSig (s : State) (r : Reply) : (s.answer r).txDoneSig = s.txDoneSig := rfl
@[simp] theorem answer_ctxs (s : State) (r : Reply) : (s.answer r).ctxs = s.ctxs := rfl
@[simp] theorem answer_wireTx (s : State) (r : Reply) : (s.answer r).wireTx = s.wireTx := rfl
@[simp] theorem answer_events (s : State) (r : Reply) : (s.answer r).events = s.events := rfl
@[simp] theorem answer_refused (s : State) (r : Reply) : (s.answer r).refused = s.refused := rfl
@[simp] theorem answer_params (s : State) (r : Reply) : (s.answer r).params = s.params := rfl
@[simp] theorem answer_replies (s : State) (r : Reply) : (s.answer r).replies = s.replies ++ [r] := rfl
@[simp] theorem answer_last (s : State) (r : Reply) : (s.answer r).last = .completed (.toCtx r) := rfl
@[simp] theorem answer_port (s : State) (r : Reply) : (s.answer r).port = s.port := rfl

@[simp] theorem notEnabled_txq (s : State) : (s.notEnabled).txq = s.txq := rfl
@[simp] theorem notEnabled_tx (s : State) : (s.notEnabled).tx = s.tx := rfl
@[simp] theorem notEnabled_txIe (s : State) : (s.notEnabled).txIe = s.txIe := rfl
@[simp] theorem notEnabled_rxIe (s : State) : (s.notEnabled).rxIe = s.rxIe := rfl
@[simp] theorem notEnabled_active (s : State) : (s.notEnabled).active = s.active := rfl
@[simp] theorem notEnabled_rx (s : State) : (s.notEnabled).rx = s.rx := rfl
@[simp] theorem notEnabled_mbx (s : State) : (s.notEnabled).mbx = s.mbx := rfl
@[simp] theorem notEnabled_rxSig (s : State) : (s.notEnabled).rxSig = s.rxSig := rfl
@[simp] theorem notEnabled_txDoneSig (s : State) : (s.notEnabled).txDoneSig = s.txDoneSig := rfl
@[simp] theorem notEnabled_ctxs (s : State) : (s.notEnabled).ctxs = s.ctxs := rfl
@[simp] theorem notEnabled_wireTx (s : State) : (s.notEnabled).wireTx = s.wireTx := rfl
@[simp] theorem notEnabled_events (s : State) : (s.notEnabled).events = s.events := rfl
@[simp] theorem notEnabled_refused (s : State) : (s.notEnabled).refused = s.refused := rfl
@[simp] theorem notEnabled_params (s : State) : (s.notEnabled).params = s.params := rfl
@[simp] theorem notEnabled_replies (s : State) : (s.notEnabled).replies = s.replies := rfl
@[simp] theorem notEnabled_last (s : State) : (s.notEnabled).last = .notEnabled := rfl
@[simp] theorem notEnabled_port (s : State) : (s.notEnabled).port = s.port := rfl

@[simp] theorem refuse_txq (s : State) (r : RefuseReason) : (s.refuse r).txq = s.txq := rfl
@[simp] theorem refuse_tx (s : State) (r : RefuseReason) : (s.refuse r).tx = s.tx := rfl
@[simp] theorem refuse_txIe (s : State) (r : RefuseReason) : (s.refuse r).txIe = s.txIe := rfl
@[simp] theorem refuse_rxIe (s : State) (r : RefuseReason) : (s.refuse r).rxIe = s.rxIe := rfl
@[simp] theorem refuse_active (s : State) (r : RefuseReason) : (s.refuse r).active = s.active := rfl
@[simp] theorem refuse_rx (s : State) (r : RefuseReason) : (s.refuse r).rx = s.rx := rfl
@[simp] theorem refuse_mbx (s : State) (r : RefuseReason) : (s.refuse r).mbx = s.mbx := rfl
@[simp] theorem refuse_rxSig (s : State) (r : RefuseReason) : (s.refuse r).rxSig = s.rxSig := rfl
@[simp] theorem refuse_txDoneSig (s : State) (r : RefuseReason) : (s.refuse r).txDoneSig = s.txDoneSig := rfl
@[simp] theorem refuse_ctxs (s : State) (r : RefuseReason) : (s.refuse r).ctxs = s.ctxs := rfl
@[simp] theorem refuse_wireTx (s : State) (r : RefuseReason) : (s.refuse r).wireTx = s.wireTx := rfl
@[simp] theorem refuse_events (s : State) (r : RefuseReason) : (s.refuse r).events = s.events := rfl
@[simp] theorem refuse_refused (s : State) (r : RefuseReason) : (s.refuse r).refused = true := rfl
@[simp] theorem refuse_params (s : State) (r : RefuseReason) : (s.refuse r).params = s.params := rfl
@[simp] theorem refuse_replies (s : State) (r : RefuseReason) : (s.refuse r).replies = s.replies := rfl
@[simp] theorem refuse_last (s : State) (r : RefuseReason) : (s.refuse r).last = .refused r := rfl
@[simp] theorem refuse_port (s : State) (r : RefuseReason) : (s.refuse r).port = s.port := rfl

@[simp] theorem setCtx_txq (s : State) (c : Nat) (x : Ctx) : (s.setCtx c x).txq = s.txq := rfl
@[simp] theorem setCtx_tx (s : State) (c : Nat) (x : Ctx) : (s.setCtx c x).tx = s.tx := rfl
@[simp] theorem setCtx_txIe (s : State) (c : Nat) (x : Ctx) : (s.setCtx c x).txIe = s.txIe := rfl
@[simp] theorem setCtx_rxIe (s : State) (c : Nat) (x : Ctx) : (s.setCtx c x).rxIe = s.rxIe := rfl
@[simp] theorem setCtx_active (s : State) (c : Nat) (x : Ctx) : (s.setCtx c x).active = s.active := rfl
@[simp] theorem setCtx_rx (s : State) (c : Nat) (x : Ctx) : (s.setCtx c x).rx = s.rx := rfl
@[simp] theorem setCtx_mbx (s : State) (c : Nat) (x : Ctx) : (s.setCtx c x).mbx = s.mbx := rfl
@[simp] theorem setCtx_rxSig (s : State) (c : Nat) (x : Ctx) : (s.setCtx c x).rxSig = s.rxSig := rfl
@[simp] theorem setCtx_txDoneSig (s : State) (c : Nat) (x : Ctx) : (s.setCtx c x).txDoneSig = s.txDoneSig := rfl
@[simp] theorem setCtx_ctxs (s : State) (c : Nat) (x : Ctx) : (s.setCtx c x).ctxs = s.ctxs.set c x := rfl
@[simp] theorem setCtx_wireTx (s : State) (c : Nat) (x : Ctx) : (s.setCtx c x).wireTx = s.wireTx := rfl
@[simp] theorem setCtx_events (s : State) (c : Nat) (x : Ctx) : (s.setCtx c x).events = s.events := rfl
@[simp] theorem setCtx_refused (s : State) (c : Nat) (x : Ctx) : (s.setCtx c x).refused = s.refused := rfl
@[simp] theorem setCtx_params (s : State) (c : Nat) (x : Ctx) : (s.setCtx c x).params = s.params := rfl
@[simp] theorem setCtx_replies (s : State) (c : Nat) (x : Ctx) : (s.setCtx c x).replies = s.replies := rfl
@[simp] theorem setCtx_last (s : State) (c : Nat) (x : Ctx) : (s.setCtx c x).last = s.last := rfl
@[simp] theorem setCtx_port (s : State) (c : Nat) (x : Ctx) : (s.setCtx c x).port = s.port := rfl

@[simp] theorem emitWire_txq (s : State) (bs : List Byte) : (s.emitWire bs).txq = s.txq := rfl
@[simp] theorem emitWire_tx (s : State) (bs : List Byte) : (s.emitWire bs).tx = s.tx := rfl
@[simp] theorem emitWire_txIe (s : State) (bs : List Byte) : (s.emitWire bs).txIe = s.txIe := rfl
@[simp] theorem emitWire_rxIe (s : State) (bs : List Byte) : (s.emitWire bs).rxIe = s.rxIe := rfl
@[simp] theorem emitWire_active (s : State) (bs : List Byte) : (s.emitWire bs).active = s.active := rfl
@[simp] theorem emitWire_rx (s : State) (bs : List Byte) : (s.emitWire bs).rx = s.rx := rfl
@[simp] theorem emitWire_mbx (s : State) (bs : List Byte) : (s.emitWire bs).mbx = s.mbx := rfl
@[simp] theorem emitWire_rxSig (s : State) (bs : List Byte) : (s.emitWire bs).rxSig = s.rxSig := rfl
@[simp] theorem emitWire_txDoneSig (s : State) (bs : List Byte) : (s.emitWire bs).txDoneSig = s.txDoneSig := rfl
@[simp] theorem emitWire_ctxs (s : State) (bs : List Byte) : (s.emitWire bs).ctxs = s.ctxs := rfl
@[simp] theorem emitWire_wireTx (s : State) (bs : List Byte) : (s.emitWire bs).wireTx = s.wireTx ++ bs := rfl
@[simp] theorem emitWire_events (s : State) (bs : List Byte) : (s.emitWire bs).events = s.events := rfl
@[simp] theorem emitWire_refused (s : State) (bs : List Byte) : (s.emitWire bs).refused = s.refused := rfl
@[simp] theorem emitWire_params (s : State) (bs : List Byte) : (s.emitWire bs).params = s.params := rfl
@[simp] theorem emitWire_replies (s : State) (bs : List Byte) : (s.emitWire bs).replies = s.replies := rfl
@[simp] theorem emitWire_last (s : State) (bs : List Byte) : (s.emitWire bs).last = s.last := rfl
@[simp] theorem emitWire_port (s : State) (bs : List Byte) : (s.emitWire bs).port = s.port := rfl

@[simp] theorem emitEvent_txq (s : State) (e : Event) : (s.emitEvent e).txq = s.txq := rfl
@[simp] theorem emitEvent_tx (s : State) (e : Event) : (s.emitEvent e).tx = s.tx := rfl
@[simp] theorem emitEvent_txIe (s : State) (e : Event) : (s.emitEvent e).txIe = s.txIe := rfl
@[simp] theorem emitEvent_rxIe (s : State) (e : Event) : (s.emitEvent e).rxIe = s.rxIe := rfl
@[simp] theorem emitEvent_active (s : State) (e : Event) : (s.emitEvent e).active = s.active := rfl
@[simp] theorem emitEvent_rx (s : State) (e : Event) : (s.emitEvent e).rx = s.rx := rfl
@[simp] theorem emitEvent_mbx (s : State) (e : Event) : (s.emitEvent e).mbx = s.mbx := rfl
@[simp] theorem emitEvent_rxSig (s : State) (e : Event) : (s.emitEvent e).rxSig = s.rxSig := rfl
@[simp] theorem emitEvent_txDoneSig (s : State) (e : Event) : (s.emitEvent e).txDoneSig = s.txDoneSig := rfl
@[simp] theorem emitEvent_ctxs (s : State) (e : Event) : (s.emitEvent e).ctxs = s.ctxs := rfl
@[simp] theorem emitEvent_wireTx (s : State) (e : Event) : (s.emitEvent e).wireTx = s.wireTx := rfl
@[simp] theorem emitEvent_events (s : State) (e : Event) : (s.emitEvent e).events = s.events ++ [e] := rfl
@[simp] theorem emitEvent_refused (s : State) (e : Event) : (s.emitEvent e).refused = s.refused := rfl
@[simp] theorem emitEvent_params (s : State) (e : Event) : (s.emitEvent e).params = s.params := rfl
@[simp] theorem emitEvent_replies (s : State) (e : Event) : (s.emitEvent e).replies = s.replies := rfl
@[simp] theorem emitEvent_last (s : State) (e : Event) : (s.emitEvent e).last = s.last := rfl
@[simp] theorem emitEvent_port (s : State) (e : Event) : (s.emitEvent e).port = s.port := rfl

@[simp] theorem giveRx_txq (s : State) : (s.giveRx).txq = s.txq := rfl
@[simp] theorem giveRx_tx (s : State) : (s.giveRx).tx = s.tx := rfl
@[simp] theorem giveRx_txIe (s : State) : (s.giveRx).txIe = s.txIe := rfl
@[simp] theorem giveRx_rxIe (s : State) : (s.giveRx).rxIe = s.rxIe := rfl
@[simp] theorem giveRx_active (s : State) : (s.giveRx).active = s.active := rfl
@[simp] theorem giveRx_rx (s : State) : (s.giveRx).rx = s.rx := rfl
@[simp] theorem giveRx_mbx (s : State) : (s.giveRx).mbx = s.mbx := rfl
@[simp] theorem giveRx_rxSig (s : State) : (s.giveRx).rxSig = give s.rxSig := rfl
@[simp] theorem giveRx_txDoneSig (s : State) : (s.giveRx).txDoneSig = s.txDoneSig := rfl
@[simp] theorem giveRx_ctxs (s : State) : (s.giveRx).ctxs = s.ctxs := rfl
@[simp] theorem giveRx_wireTx (s : State) : (s.giveRx).wireTx = s.wireTx := rfl
@[simp] theorem giveRx_events (s : State) : (s.giveRx).events = s.events := rfl
@[simp] theorem giveRx_refused (s : State) : (s.giveRx).refused = s.refused := rfl
@[simp] theorem giveRx_params (s : State) : (s.giveRx).params = s.params := rfl
@[simp] theorem giveRx_replies (s : State) : (s.giveRx).replies = s.replies := rfl
@[simp] theorem giveRx_last (s : State) : (s.giveRx).last = s.last := rfl
@[simp] theorem giveRx_port (s : State) : (s.giveRx).port = s.port := rfl

@[simp] theorem takeRx_txq (s : State) : (s.takeRx).txq = s.txq := rfl
@[simp] theorem takeRx_tx (s : State) : (s.takeRx).tx = s.tx := rfl
@[simp] theorem takeRx_txIe (s : State) : (s.takeRx).txIe = s.txIe := rfl
@[simp] theorem takeRx_rxIe (s : State) : (s.takeRx).rxIe = s.rxIe := rfl
@[simp] theorem takeRx_active (s : State) : (s.takeRx).active = s.active := rfl
@[simp] theorem takeRx_rx (s : State) : (s.takeRx).rx = s.rx := rfl
@[simp] theorem takeRx_mbx (s : State) : (s.takeRx).mbx = s.mbx := rfl
@[simp] theorem takeRx_rxSig (s : State) : (s.takeRx).rxSig = 0 := rfl
@[simp] theorem takeRx_txDoneSig (s : State) : (s.takeRx).txDoneSig = s.txDoneSig := rfl
@[simp] theorem takeRx_ctxs (s : State) : (s.takeRx).ctxs = s.ctxs := rfl
@[simp] theorem takeRx_wireTx (s : State) : (s.takeRx).wireTx = s.wireTx := rfl
@[simp] theorem takeRx_events (s : State) : (s.takeRx).events = s.events := rfl
@[simp] theorem takeRx_refused (s : State) : (s.takeRx).refused = s.refused := rfl
@[simp] theorem takeRx_params (s : State) : (s.takeRx).params = s.params := rfl
@[simp] theorem takeRx_replies (s : State) : (s.takeRx).replies = s.replies := rfl
@[simp] theorem takeRx_last (s : State) : (s.takeRx).last = s.last := rfl
@[simp] theorem takeRx_port (s : State) : (s.takeRx).port = s.port := rfl

@[simp] theorem takeTxDone_txq (s : State) : (s.takeTxDone).txq = s.txq := rfl
@[simp] theorem takeTxDone_tx (s : State) : (s.takeTxDone).tx = s.tx := rfl
@[simp] theorem takeTxDone_txIe (s : State) : (s.takeTxDone).txIe = s.txIe := rfl
@[simp] theorem takeTxDone_rxIe (s : State) : (s.takeTxDone).rxIe = s.rxIe := rfl
@[simp] theorem takeTxDone_active (s : State) : (s.takeTxDone).active = s.active := rfl
@[simp] theorem takeTxDone_rx (s : State) : (s.takeTxDone).rx = s.rx := rfl
@[simp] theorem takeTxDone_mbx (s : State) : (s.takeTxDone).mbx = s.mbx := rfl
@[simp] theorem takeTxDone_rxSig (s : State) : (s.takeTxDone).rxSig = s.rxSig := rfl
@[simp] theorem takeTxDone_txDoneSig (s : State) : (s.takeTxDone).txDoneSig = 0 := rfl
@[simp] theorem takeTxDone_ctxs (s : State) : (s.takeTxDone).ctxs = s.ctxs := rfl
@[simp] theorem takeTxDone_wireTx (s : State) : (s.takeTxDone).wireTx = s.wireTx := rfl
@[simp] theorem takeTxDone_events (s : State) : (s.takeTxDone).events = s.events := rfl
@[simp] theorem takeTxDone_refused (s : State) : (s.takeTxDone).refused = s.refused := rfl
@[simp] theorem takeTxDone_params (s : State) : (s.takeTxDone).params = s.params := rfl
@[simp] theorem takeTxDone_replies (s : State) : (s.takeTxDone).replies = s.replies := rfl
@[simp] theorem takeTxDone_last (s : State) : (s.takeTxDone).last = s.last := rfl
@[simp] theorem takeTxDone_port (s : State) : (s.takeTxDone).port = s.port := rfl

@[simp] theorem goIdle_txq (s : State) : (s.goIdle).txq = s.txq := rfl
@[simp] theorem goIdle_tx (s : State) : (s.goIdle).tx = { s.tx with busy := false } := rfl
@[simp] theorem goIdle_txIe (s : State) : (s.goIdle).txIe = false := rfl
@[simp] theorem goIdle_rxIe (s : State) : (s.goIdle).rxIe = s.rxIe := rfl
@[simp] theorem goIdle_active (s : State) : (s.goIdle).active = s.active := rfl
@[simp] theorem goIdle_rx (s : State) : (s.goIdle).rx = s.rx := rfl
@[simp] theorem goIdle_mbx (s : State) : (s.goIdle).mbx = s.mbx := rfl
@[simp] theorem goIdle_rxSig (s : State) : (s.goIdle).rxSig = s.rxSig := rfl
@[simp] theorem goIdle_txDoneSig (s : State) : (s.goIdle).txDoneSig = s.txDoneSig := rfl
@[simp] theorem goIdle_ctxs (s : State) : (s.goIdle).ctxs = s.ctxs := rfl
@[simp] theorem goIdle_wireTx (s : State) : (s.goIdle).wireTx = s.wireTx := rfl
@[simp] theorem goIdle_events (s : State) : (s.goIdle).events = s.events := rfl
@[simp] theorem goIdle_refused (s : State) : (s.goIdle).refused = s.refused := rfl
@[simp] theorem goIdle_params (s : State) : (s.goIdle).params = s.params := rfl
@[simp] theorem goIdle_replies (s : State) : (s.goIdle).replies = s.replies := rfl
@[simp] theorem goIdle_last (s : State) : (s.goIdle).last = s.last := rfl
@[simp] theorem goIdle_port (s : State) : (s.goIdle).port = s.port := rfl

@[simp] theorem toggleRx_txq (s : State) : (s.toggleRx).txq = s.txq := rfl
@[simp] theorem toggleRx_tx (s : State) : (s.toggleRx).tx = s.tx := rfl
@[simp] theorem toggleRx_txIe (s : State) : (s.toggleRx).txIe = s.txIe := rfl
@[simp] theorem toggleRx_rxIe (s : State) : (s.toggleRx).rxIe = s.rxIe := rfl
@[simp] theorem toggleRx_active (s : State) : (s.toggleRx).active = s.active := rfl
@[simp] theorem toggleRx_rx (s : State) : (s.toggleRx).rx = s.rx.toggle := rfl
@[simp] theorem toggleRx_mbx (s : State) : (s.toggleRx).mbx = s.mbx := rfl
@[simp] theorem toggleRx_rxSig (s : State) : (s.toggleRx).rxSig = s.rxSig := rfl
@[simp] theorem toggleRx_txDoneSig (s : State) : (s.toggleRx).txDoneSig = s.txDoneSig := rfl
@[simp] theorem toggleRx_ctxs (s : State) : (s.toggleRx).ctxs = s.ctxs := rfl
@[simp] theorem toggleRx_wireTx (s : State) : (s.toggleRx).wireTx = s.wireTx := rfl
@[simp] theorem toggleRx_events (s : State) : (s.toggleRx).events = s.events := rfl
@[simp] theorem toggleRx_refused (s : State) : (s.toggleRx).refused = s.refused := rfl
@[simp] theorem toggleRx_params (s : State) : (s.toggleRx).params = s.params := rfl
@[simp] theorem toggleRx_replies (s : State) : (s.toggleRx).replies = s.replies := rfl
@[simp] theorem toggleRx_last (s : State) : (s.toggleRx).last = s.last := rfl
@[simp] theorem toggleRx_port (s : State) : (s.toggleRx).port = s.port := rfl

@[simp] theorem loadTx_txq (s : State) (m : Memory) (n : Nat) : (s.loadTx m n).txq = s.txq := rfl
@[simp] theorem loadTx_tx (s : State) (m : Memory) (n : Nat) :
    (s.loadTx m n).tx = { buf := m, len := n, pos := 0, busy := true } := rfl
@[simp] theorem loadTx_txIe (s : State) (m : Memory) (n : Nat) : (s.loadTx m n).txIe = s.txIe := rfl
@[simp] theorem loadTx_rxIe (s : State) (m : Memory) (n : Nat) : (s.loadTx m n).rxIe = s.rxIe := rfl
@[simp] theorem loadTx_active (s : State) (m : Memory) (n : Nat) : (s.loadTx m n).active = s.active := rfl
@[simp] theorem loadTx_rx (s : State) (m : Memory) (n : Nat) : (s.loadTx m n).rx = s.rx := rfl
@[simp] theorem loadTx_mbx (s : State) (m : Memory) (n : Nat) : (s.loadTx m n).mbx = s.mbx := rfl
@[simp] theorem loadTx_rxSig (s : State) (m : Memory) (n : Nat) : (s.loadTx m n).rxSig = s.rxSig := rfl
@[simp] theorem loadTx_txDoneSig (s : State) (m : Memory) (n : Nat) : (s.loadTx m n).txDoneSig = s.txDoneSig := rfl
@[simp] theorem loadTx_ctxs (s : State) (m : Memory) (n : Nat) : (s.loadTx m n).ctxs = s.ctxs := rfl
@[simp] theorem loadTx_wireTx (s : State) (m : Memory) (n : Nat) : (s.loadTx m n).wireTx = s.wireTx := rfl
@[simp] theorem loadTx_events (s : State) (m : Memory) (n : Nat) : (s.loadTx m n).events = s.events := rfl
@[simp] theorem loadTx_refused (s : State) (m : Memory) (n : Nat) : (s.loadTx m n).refused = s.refused := rfl
@[simp] theorem loadTx_params (s : State) (m : Memory) (n : Nat) : (s.loadTx m n).params = s.params := rfl
@[simp] theorem loadTx_replies (s : State) (m : Memory) (n : Nat) : (s.loadTx m n).replies = s.replies := rfl
@[simp] theorem loadTx_last (s : State) (m : Memory) (n : Nat) : (s.loadTx m n).last = s.last := rfl
@[simp] theorem loadTx_port (s : State) (m : Memory) (n : Nat) : (s.loadTx m n).port = s.port := rfl

@[simp] theorem relaunch_txq (s : State) : (s.relaunch).txq = TxQueue.atReset s.params := rfl
@[simp] theorem relaunch_tx (s : State) : (s.relaunch).tx = InFlight.atReset := rfl
@[simp] theorem relaunch_txIe (s : State) : (s.relaunch).txIe = false := rfl
@[simp] theorem relaunch_rxIe (s : State) : (s.relaunch).rxIe = false := rfl
@[simp] theorem relaunch_active (s : State) : (s.relaunch).active = false := rfl
@[simp] theorem relaunch_rx (s : State) : (s.relaunch).rx = RxAsm.atReset := rfl
@[simp] theorem relaunch_mbx (s : State) : (s.relaunch).mbx = Mailbox.atReset := rfl
@[simp] theorem relaunch_rxSig (s : State) : (s.relaunch).rxSig = 0 := rfl
@[simp] theorem relaunch_txDoneSig (s : State) : (s.relaunch).txDoneSig = 0 := rfl
@[simp] theorem relaunch_ctxs (s : State) : (s.relaunch).ctxs = s.ctxs := rfl
@[simp] theorem relaunch_wireTx (s : State) : (s.relaunch).wireTx = [] := rfl
@[simp] theorem relaunch_events (s : State) : (s.relaunch).events = [] := rfl
@[simp] theorem relaunch_refused (s : State) : (s.relaunch).refused = s.refused := rfl
@[simp] theorem relaunch_params (s : State) : (s.relaunch).params = s.params := rfl
@[simp] theorem relaunch_replies (s : State) : (s.relaunch).replies = s.replies := rfl
@[simp] theorem relaunch_last (s : State) : (s.relaunch).last = s.last := rfl
@[simp] theorem relaunch_port (s : State) : (s.relaunch).port = s.port := rfl

/-- The TX-completion give touches the signal alone. -/
theorem giveTxDone_eq (s : State) :
    s.giveTxDone = { s with txDoneSig := if s.params.hasTxDone then give s.txDoneSig else s.txDoneSig } := by
  unfold State.giveTxDone; split <;> simp [*]

@[simp] theorem toggle_buf0 (r : RxAsm) : r.toggle.buf0 = r.buf0 := rfl
@[simp] theorem toggle_buf1 (r : RxAsm) : r.toggle.buf1 = r.buf1 := rfl
@[simp] theorem toggle_widx (r : RxAsm) : r.toggle.widx = !r.widx := rfl
@[simp] theorem toggle_pos (r : RxAsm) : r.toggle.pos = 0 := rfl

@[simp] theorem setCurrent_widx (r : RxAsm) (m : Memory) : (r.setCurrent m).widx = r.widx := by
  unfold RxAsm.setCurrent; split <;> rfl
@[simp] theorem setCurrent_pos (r : RxAsm) (m : Memory) : (r.setCurrent m).pos = r.pos := by
  unfold RxAsm.setCurrent; split <;> rfl
@[simp] theorem setCurrent_current (r : RxAsm) (m : Memory) : (r.setCurrent m).current = m := by
  unfold RxAsm.setCurrent RxAsm.current; cases r.widx <;> rfl
@[simp] theorem setCurrent_other (r : RxAsm) (m : Memory) : (r.setCurrent m).other = r.other := by
  unfold RxAsm.setCurrent RxAsm.other; cases r.widx <;> simp

end Sys2Proof.Machine
end

