-- ==== Sys2Proof/Laws/Ops.lean ====
section
/-!
SUPPORT. What each shared operation can do, said once.
-/

namespace Sys2Proof.Machine

/-- Context `c` is blocked in another operation than `op`. -/
abbrev BlockedElsewhere (c : Nat) (op : Option WaitOp) (s : State) : Prop :=
  ∃ x w, s.ctxs[c]? = some x ∧ x.cont = .none ∧ x.wait = some w ∧ op ≠ some w

/-- Context `c`, as `x`, may issue `op`: no continuation pending, and blocked in nothing but `op` itself. -/
abbrev MayIssue (c : Nat) (op : Option WaitOp) (s : State) (x : Ctx) : Prop :=
  s.ctxs[c]? = some x ∧ x.cont = .none ∧ (x.wait = none ∨ x.wait = op)

/-- A host operation is refused, or not enabled, or its context may issue it and the operation goes on. -/
theorem asIssuer_cases {c : Nat} {op : Option WaitOp} {s : State} {k : Ctx → Res} {r : Res}
    (h : asIssuer c op s k = r) :
    ((∀ x, s.ctxs[c]? = some x → x.cont ≠ .none) ∧ r = .next (s.refuse .wrongAgent)) ∨
    (BlockedElsewhere c op s ∧ r = .next s.notEnabled) ∨
    ∃ x, MayIssue c op s x ∧ k x = r := by
  unfold asIssuer at h
  split at h
  · rename_i hn
    exact .inl ⟨fun x hx => (by simp [hn] at hx), h.symm⟩
  · rename_i x hx
    split at h
    · rename_i hc
      split at h
      · rename_i hw
        exact .inr (.inr ⟨x, ⟨hx, hc, by simpa [Ctx.mayIssue] using hw⟩, h⟩)
      · rename_i hw
        simp only [Ctx.mayIssue, decide_eq_true_eq, not_or] at hw
        obtain ⟨w, hs⟩ := Option.ne_none_iff_exists'.mp hw.1
        exact .inr (.inl ⟨⟨x, w, hx, hc, hs, fun e => hw.2 (hs.trans e.symm)⟩, h.symm⟩)
    all_goals
      rename_i hc
      refine .inl ⟨fun y hy => ?_, h.symm⟩
      rw [hx] at hy
      cases hy
      rw [hc]
      simp

/-- A host operation goes on for a context that may issue it. -/
theorem asIssuer_of_mayIssue {c : Nat} {op : Option WaitOp} {s : State} {k : Ctx → Res} {x : Ctx}
    (h : MayIssue c op s x) : asIssuer c op s k = k x := by
  simp [asIssuer, h.1, h.2.1, Ctx.mayIssue, h.2.2]

/-- A host operation is not enabled for a context blocked in another one. -/
theorem asIssuer_of_blocked {c : Nat} {op : Option WaitOp} {s : State} {k : Ctx → Res}
    (h : BlockedElsewhere c op s) : asIssuer c op s k = .next s.notEnabled := by
  obtain ⟨x, w, hx, hc, hw, ho⟩ := h
  simp [asIssuer, hx, hc, Ctx.mayIssue, hw, ho.symm]

/-- What a push that succeeds in answering has done. -/
theorem push_cases {p : Params} {q q' : TxQueue} {d : Frame} {b : Bool} (h : q.push p d = .ok (q', b)) :
    (b = false ∧ q' = q ∧ (p.txMax < d.length ∨ q.count = p.n)) ∨
    (b = true ∧ d.length ≤ p.txMax ∧ q.count ≠ p.n ∧ ∃ slot, q.slots[q.head]? = some slot ∧
      q' = { slots := q.slots.set q.head { len := d.length, data := slot.data.writeRange 0 d },
             head := nextIndex p q.head, tail := q.tail, count := q.count + 1 }) := by
  unfold TxQueue.push at h
  split at h
  · rename_i hl
    cases h
    exact .inl ⟨rfl, rfl, .inl hl⟩
  · rename_i hl
    split at h
    · rename_i hc
      cases h
      exact .inl ⟨rfl, rfl, .inr hc⟩
    · rename_i hc
      split at h
      · cases h
      · rename_i slot hs
        split at h
        · cases h
        · rename_i m hm
          obtain ⟨-, rfl⟩ := storeBytes_ok hm
          cases h
          exact .inr ⟨rfl, by omega, hc, slot, hs, rfl⟩

/-- What a pop that succeeds in answering has done. -/
theorem pop_cases {p : Params} {q q' : TxQueue} {r : Option Frame} (h : q.pop p = .ok (q', r)) :
    (r = none ∧ q' = q ∧ q.count = 0) ∨
    (q.count ≠ 0 ∧ ∃ slot d, q.slots[q.tail]? = some slot ∧ slot.len ≤ p.txMax ∧
      slot.data.readRange 0 slot.len = some d ∧ r = some d ∧
      q' = { q with tail := nextIndex p q.tail, count := q.count - 1 }) := by
  unfold TxQueue.pop at h
  split at h
  · rename_i hc
    cases h
    exact .inl ⟨rfl, rfl, hc⟩
  · rename_i hc
    split at h
    · cases h
    · rename_i slot hs
      split at h
      · cases h
      · rename_i d hd
        obtain ⟨hle, hr⟩ := loadBytes_ok hd
        cases h
        exact .inr ⟨hc, slot, d, hs, by omega, hr, rfl, rfl⟩

/-- What a frame completion has done: Idle, or the next frame loaded (R140). -/
theorem completeFrame_cases {s t : State} (h : completeFrame s = .next t) :
    (s.txq.count = 0 ∧ t = (s.giveTxDone.goIdle).done .nothing) ∨
    (s.txq.count ≠ 0 ∧ ∃ slot d, s.txq.slots[s.txq.tail]? = some slot ∧ slot.len ≤ s.params.txMax ∧
      slot.data.readRange 0 slot.len = some d ∧ d.length ≤ s.params.txMax ∧
      t = (({ s.giveTxDone with
              txq := { s.txq with tail := nextIndex s.params s.txq.tail, count := s.txq.count - 1 } }).loadTx
            (s.tx.buf.writeRange 0 d) d.length).done .nothing) := by
  have hq : s.giveTxDone.txq = s.txq := by rw [giveTxDone_eq]
  have hp : s.giveTxDone.params = s.params := by rw [giveTxDone_eq]
  have ht : s.giveTxDone.tx = s.tx := by rw [giveTxDone_eq]
  simp only [completeFrame, hq, hp, ht] at h
  split at h
  · cases h
  · rename_i q hpop
    cases h
    rcases pop_cases hpop with ⟨-, -, hc⟩ | ⟨-, _, _, -, -, -, hr, -⟩
    · exact .inl ⟨hc, rfl⟩
    · cases hr
  · rename_i q d hpop
    split at h
    · cases h
    · rename_i m hm
      obtain ⟨hle, rfl⟩ := storeBytes_ok hm
      cases h
      rcases pop_cases hpop with ⟨hr, -, -⟩ | ⟨hc, slot, d', hs, hl, hd, hr, rfl⟩
      · cases hr
      · cases hr
        exact .inr ⟨hc, slot, d, hs, hl, hd, by omega, by simp only [State.loadTx, State.done, hp]⟩

/-- What a delivery that succeeds has done (R162). -/
theorem deliver_cases {s t : State} {n : Nat} (h : deliver s n = .ok t) :
    ∃ bs, s.rx.current.readRange 0 n = some bs ∧ n ≤ s.params.rxCap ∧
      t = ({ s with mbx := { data := s.mbx.data.writeRange 0 bs, len := n, ready := true } }).giveRx := by
  unfold deliver at h
  split at h
  · cases h
  · rename_i bs hbs
    obtain ⟨hle, hr⟩ := loadBytes_ok hbs
    split at h
    · cases h
    · rename_i m hm
      obtain ⟨-, rfl⟩ := storeBytes_ok hm
      cases h
      exact ⟨bs, hr, by omega, rfl⟩

/-- What a finalization has done: an empty line, a delivery or a drop, and the toggle in every case (R160). -/
theorem finalize_cases {s t : State} {n : Nat} (h : finalize s n = .next t) :
    (n = 0 ∧ t = s.toggleRx.done .nothing) ∨
    (0 < n ∧ s.mbx.ready = false ∧ ∃ bs, s.rx.current.readRange 0 n = some bs ∧ n ≤ s.params.rxCap ∧
      t = ((({ s with mbx := { data := s.mbx.data.writeRange 0 bs, len := n, ready := true } }).giveRx).toggleRx).done
            .nothing) ∨
    (0 < n ∧ s.mbx.ready = true ∧ t = ((s.emitEvent (.rxDrop n)).toggleRx).done .nothing) := by
  unfold finalize at h
  split at h
  · rename_i hn
    split at h
    · rename_i hr
      split at h
      · cases h
      · rename_i t' ht
        obtain ⟨bs, hb, hl, rfl⟩ := deliver_cases ht
        cases h
        exact .inr (.inl ⟨hn, hr, bs, hb, hl, rfl⟩)
    · rename_i hr
      cases h
      exact .inr (.inr ⟨hn, by simpa using hr, rfl⟩)
  · rename_i hn
    cases h
    exact .inl ⟨by omega, rfl⟩

/-- What one step has done: waited for operations, refused an offer, or performed the operation it decoded. -/
theorem step_cases {s t : State} (h : step s = .next t) :
    (s.port = [] ∧ t = s) ∨
    ∃ o rest, s.port = o :: rest ∧
      ((∃ r, decode s.params o = .error r ∧ t = ({ s with port := rest }).refuse r) ∨
       ∃ i, decode s.params o = .ok i ∧ exec i { s with port := rest } = .next t) := by
  unfold step at h
  split at h
  · rename_i hp
    cases h
    exact .inl ⟨hp, rfl⟩
  · rename_i o rest hp
    refine .inr ⟨o, rest, hp, ?_⟩
    split at h
    · rename_i r hd
      cases h
      exact .inl ⟨r, hd, rfl⟩
    · rename_i i hd
      exact .inr ⟨i, hd, h⟩

end Sys2Proof.Machine
end

