-- ==== Sys2Proof/Laws/Meanings.lean ====
section
/-!
SUPPORT. One inversion lemma per meaning: if it answers a next state, one of these cases holds.
-/

namespace Sys2Proof.Machine

theorem execReset_cases {s t : State} (h : execReset s = .next t) :
    (s.contPending = true ∧ t = s.refuse .resetPending) ∨
    (s.contPending = false ∧ t = s.relaunch.done .nothing) := by
  unfold execReset at h
  split at h
  · rename_i hp
    cases h
    exact .inl ⟨hp, rfl⟩
  · rename_i hp
    cases h
    exact .inr ⟨by simpa using hp, rfl⟩

theorem execActivate_cases {c : Nat} {r : Bool} {s t : State} (h : execActivate c r s = .next t) :
    t = s.refuse .wrongAgent ∨
    (BlockedElsewhere c none s ∧ t = s.notEnabled) ∨
    (∃ x, MayIssue c none s x) ∧
      ((r = true ∧ t = ({ s with active := true, rxIe := true }).answer ⟨c, .ok, none⟩) ∨
       (r = false ∧ t = s.answer ⟨c, .notReady, none⟩)) := by
  rcases asIssuer_cases h with ⟨-, h⟩ | ⟨hw, h⟩ | ⟨x, hx, h⟩
  · cases h
    exact .inl rfl
  · cases h
    exact .inr (.inl ⟨hw, rfl⟩)
  · refine .inr (.inr ⟨⟨x, hx⟩, ?_⟩)
    cases r
    · cases h
      exact .inr ⟨rfl, rfl⟩
    · cases h
      exact .inl ⟨rfl, rfl⟩

theorem execSend_cases {c : Nat} {d : Frame} {s t : State} (h : execSend c d s = .next t) :
    t = s.refuse .wrongAgent ∨
    (BlockedElsewhere c none s ∧ t = s.notEnabled) ∨
    ∃ x, MayIssue c none s x ∧
      ((s.active = false ∧ t = s.refuse .notActive) ∨
       (s.active = true ∧ s.params.txMax < d.length ∧ t = s.answer ⟨c, .tooLarge, none⟩) ∨
       (s.active = true ∧ d.length ≤ s.params.txMax ∧ s.tx.busy = false ∧
         t = ((s.loadTx (s.tx.buf.writeRange 0 d) d.length).setCtx c { x with cont := .ien }).done .nothing) ∨
       (s.active = true ∧ d.length ≤ s.params.txMax ∧ s.tx.busy = true ∧
         t = (s.setCtx c { x with cont := .enq d }).done .nothing)) := by
  rcases asIssuer_cases h with ⟨-, h⟩ | ⟨hw, h⟩ | ⟨x, hx, h⟩
  · cases h
    exact .inl rfl
  · cases h
    exact .inr (.inl ⟨hw, rfl⟩)
  · refine .inr (.inr ⟨x, hx, ?_⟩)
    split at h
    · rename_i ha
      cases h
      exact .inl ⟨ha, rfl⟩
    · rename_i ha
      replace ha : s.active = true := by simpa using ha
      split at h
      · rename_i hl
        cases h
        exact .inr (.inl ⟨ha, hl, rfl⟩)
      · rename_i hl
        split at h
        · rename_i hb
          split at h
          · cases h
          · rename_i m hm
            obtain ⟨-, rfl⟩ := storeBytes_ok hm
            cases h
            exact .inr (.inr (.inl ⟨ha, by omega, hb, rfl⟩))
        · rename_i hb
          cases h
          exact .inr (.inr (.inr ⟨ha, by omega, by simpa using hb, rfl⟩))

theorem execSendEnq_cases {c : Nat} {s t : State} (h : execSendEnq c s = .next t) :
    t = s.refuse .wrongAgent ∨
    ∃ x d, s.ctxs[c]? = some x ∧ x.cont = .enq d ∧ ∃ q b, s.txq.push s.params d = .ok (q, b) ∧
      t = (({ s with txq := q }).setCtx c { x with cont := .none }).answer
            ⟨c, if b then .ok else .queueFull, none⟩ := by
  unfold execSendEnq at h
  split at h
  · cases h
    exact .inl rfl
  · rename_i x hx
    split at h
    · cases h
      exact .inl rfl
    · cases h
      exact .inl rfl
    · rename_i d hd
      split at h
      · cases h
      · rename_i q b hp
        cases h
        exact .inr ⟨x, d, hx, hd, q, b, hp, rfl⟩

theorem execSendIen_cases {c : Nat} {s t : State} (h : execSendIen c s = .next t) :
    t = s.refuse .wrongAgent ∨
    ∃ x, s.ctxs[c]? = some x ∧ x.cont = .ien ∧
      t = (({ s with txIe := true }).setCtx c { x with cont := .none }).answer ⟨c, .ok, none⟩ := by
  unfold execSendIen at h
  split at h
  · cases h
    exact .inl rfl
  · rename_i x hx
    split at h
    · cases h
      exact .inl rfl
    · cases h
      exact .inl rfl
    · rename_i hc
      cases h
      exact .inr ⟨x, hx, hc, rfl⟩

theorem execTxReady_cases {k : BitVec 16} {s t : State} (h : execTxReady k s = .next t) :
    (s.txIe = false ∧ t = s.notEnabled) ∨
    (s.txIe = true ∧ s.tx.busy = false ∧ t = ({ s with txIe := false }).done .nothing) ∨
    (s.txIe = true ∧ s.tx.busy = true ∧
      ∃ bs, s.tx.buf.readRange s.tx.pos (s.tx.accept k) = some bs ∧
        let u := { s.emitWire bs with tx := { s.tx with pos := s.tx.pos + s.tx.accept k } }
        (s.tx.pos + s.tx.accept k ≠ s.tx.len ∧ t = u.done .nothing) ∨
        (s.tx.pos + s.tx.accept k = s.tx.len ∧ completeFrame u = .next t)) := by
  unfold execTxReady at h
  split at h
  · rename_i hi
    cases h
    exact .inl ⟨hi, rfl⟩
  · rename_i hi
    replace hi : s.txIe = true := by simpa using hi
    split at h
    · rename_i hb
      cases h
      exact .inr (.inl ⟨hi, hb, rfl⟩)
    · rename_i hb
      refine .inr (.inr ⟨hi, by simpa using hb, ?_⟩)
      split at h
      · cases h
      · rename_i bs hbs
        refine ⟨bs, (loadBytes_ok hbs).2, ?_⟩
        simp only at h
        split at h
        · rename_i he
          exact .inr ⟨he, h⟩
        · rename_i he
          cases h
          exact .inl ⟨he, rfl⟩

theorem execRxByte_cases {b : Byte} {s t : State} (h : execRxByte b s = .next t) :
    (s.rxIe = false ∧ t = s.notEnabled) ∨
    (s.rxIe = true ∧ s.rx.pos < s.params.rxCap ∧
      let u := { s with rx := s.rx.setCurrent (s.rx.current.write s.rx.pos b) }
      (isTerm b = true ∧ finalize u s.rx.pos = .next t) ∨
      (isTerm b = false ∧ s.rx.pos + 1 = s.params.rxCap ∧
        ((s.params.rxFullDelivers = true ∧ finalize u (s.rx.pos + 1) = .next t) ∨
         (s.params.rxFullDelivers = false ∧ t = ((u.emitEvent .rxOverflow).toggleRx).done .nothing))) ∨
      (isTerm b = false ∧ s.rx.pos + 1 ≠ s.params.rxCap ∧
        t = ({ u with rx := { u.rx with pos := s.rx.pos + 1 } }).done .nothing)) := by
  unfold execRxByte at h
  split at h
  · rename_i hi
    cases h
    exact .inl ⟨hi, rfl⟩
  · rename_i hi
    split at h
    · cases h
    · rename_i hp
      refine .inr ⟨by simpa using hi, by omega, ?_⟩
      simp only at h
      split at h
      · rename_i ht
        exact .inl ⟨ht, by simpa using h⟩
      · rename_i ht
        replace ht : isTerm b = false := by simpa using ht
        split at h
        · rename_i hc
          refine .inr (.inl ⟨ht, hc, ?_⟩)
          split at h
          · rename_i hf
            exact .inl ⟨hf, h⟩
          · rename_i hf
            cases h
            exact .inr ⟨by simpa using hf, rfl⟩
        · rename_i hc
          cases h
          exact .inr (.inr ⟨ht, hc, rfl⟩)

theorem execSigTake_cases {c : Nat} {s t : State} (h : execSigTake c s = .next t) :
    t = s.refuse .wrongAgent ∨
    (BlockedElsewhere c (some .sigTake) s ∧ t = s.notEnabled) ∨
    ∃ x, MayIssue c (some .sigTake) s x ∧
      ((s.rxSig = 0 ∧ t = (s.setCtx c { x with wait := some .sigTake }).notEnabled) ∨
       (s.rxSig ≠ 0 ∧ t = (s.takeRx.setCtx c { x with wait := none }).answer ⟨c, .ok, none⟩)) := by
  rcases asIssuer_cases h with ⟨-, h⟩ | ⟨hw, h⟩ | ⟨x, hx, h⟩
  · cases h
    exact .inl rfl
  · cases h
    exact .inr (.inl ⟨hw, rfl⟩)
  · refine .inr (.inr ⟨x, hx, ?_⟩)
    split at h
    · rename_i hr
      cases h
      exact .inl ⟨hr, rfl⟩
    · rename_i hr
      cases h
      exact .inr ⟨hr, rfl⟩

theorem execMbxRead_cases {c : Nat} {s t : State} (h : execMbxRead c s = .next t) :
    t = s.refuse .wrongAgent ∨
    (BlockedElsewhere c none s ∧ t = s.notEnabled) ∨
    (∃ x, MayIssue c none s x) ∧
      ((s.mbx.ready = false ∧ t = s.answer ⟨c, .empty, none⟩) ∨
       (s.mbx.ready = true ∧ ∃ d, s.mbx.data.readRange 0 s.mbx.len = some d ∧
         t = ({ s with mbx := { s.mbx with ready := false } }).answer ⟨c, .ok, some d⟩)) := by
  rcases asIssuer_cases h with ⟨-, h⟩ | ⟨hw, h⟩ | ⟨x, hx, h⟩
  · cases h
    exact .inl rfl
  · cases h
    exact .inr (.inl ⟨hw, rfl⟩)
  · refine .inr (.inr ⟨⟨x, hx⟩, ?_⟩)
    split at h
    · rename_i hr
      split at h
      · cases h
      · rename_i d hd
        cases h
        exact .inr ⟨hr, d, (loadBytes_ok hd).2, rfl⟩
    · rename_i hr
      cases h
      exact .inl ⟨by simpa using hr, rfl⟩

theorem execTxWait_cases {c : Nat} {w : Draw} {s t : State} (h : execTxWait c w s = .next t) :
    (s.params.hasTxDone = false ∧ t = s.refuse .noTxDone) ∨
    (s.params.hasTxDone = true ∧
      (t = s.refuse .wrongAgent ∨
       (BlockedElsewhere c (some .txWait) s ∧ t = s.notEnabled) ∨
       ∃ x, MayIssue c (some .txWait) s x ∧
        ((w = .expire ∧ t = (s.setCtx c { x with wait := none }).answer ⟨c, .timeout, none⟩) ∨
         (w = .take ∧ s.txDoneSig = 0 ∧ t = (s.setCtx c { x with wait := some .txWait }).notEnabled) ∨
         (w = .take ∧ s.txDoneSig ≠ 0 ∧
           t = (s.takeTxDone.setCtx c { x with wait := none }).answer ⟨c, .ok, none⟩)))) := by
  unfold execTxWait at h
  split at h
  · rename_i hd
    cases h
    exact .inl ⟨hd, rfl⟩
  · rename_i hd
    refine .inr ⟨by simpa using hd, ?_⟩
    rcases asIssuer_cases h with ⟨-, h⟩ | ⟨hb, h⟩ | ⟨x, hx, h⟩
    · cases h
      exact .inl rfl
    · cases h
      exact .inr (.inl ⟨hb, rfl⟩)
    · refine .inr (.inr ⟨x, hx, ?_⟩)
      cases w
      · simp only at h
        split at h
        · rename_i hz
          cases h
          exact .inr (.inl ⟨rfl, hz, rfl⟩)
        · rename_i hz
          cases h
          exact .inr (.inr ⟨rfl, hz, rfl⟩)
      · cases h
        exact .inl ⟨rfl, rfl⟩

theorem execTxqPush_cases {d : Frame} {s t : State} (h : execTxqPush d s = .next t) :
    ∃ q b, s.txq.push s.params d = .ok (q, b) ∧ t = ({ s with txq := q }).done (.pushed b) := by
  unfold execTxqPush at h
  split at h
  · cases h
  · rename_i q b hp
    cases h
    exact ⟨q, b, hp, rfl⟩

theorem execTxqPop_cases {s t : State} (h : execTxqPop s = .next t) :
    ∃ q r, s.txq.pop s.params = .ok (q, r) ∧ t = ({ s with txq := q }).done (.popped r) := by
  unfold execTxqPop at h
  split at h
  · cases h
  · rename_i q r hp
    cases h
    exact ⟨q, r, hp, rfl⟩

end Sys2Proof.Machine
end

