-- ==== Sys2Proof/Laws/PerInstr.lean ====
section
/-!
SUPPORT. The family EncodedWord: an instruction's word has its opcode of R84 in bits 31:28, zero reserved bits, its
argument in bits 15:0, and no unused argument bit set (R81, R82, R87).
-/

namespace Sys2Proof.Laws.EncodedWord

/-- The word of `i` spells its code and argument and is clean. -/
def Statement (i : Instr) : Prop :=
  opField (encodeWord i) = i.opcode ∧ rsvField (encodeWord i) = 0 ∧ argField (encodeWord i) = i.argument ∧
    argClean i.opcode i.argument = true

/-- Packing gives the three fields back; what is left is the argument's cleanness. -/
theorem of_clean (i : Instr) (h : argClean i.opcode i.argument = true) : Statement i :=
  ⟨opField_packWord _ _, rsvField_packWord _ _, argField_packWord _ _, h⟩

/-- ACTIVATE's two arguments use bit 0 alone. -/
theorem activate_clean : ∀ r : Bool, argClean 0x2#4 (if r then 1 else 0) = true := by decide

theorem reset : Statement .reset := of_clean _ (by decide)

theorem activate (c : Nat) (r : Bool) : Statement (.activate c r) := of_clean _ (activate_clean r)

theorem send (c : Nat) (d : Frame) : Statement (.send c d) := of_clean _ rfl

theorem sigTake (c : Nat) : Statement (.sigTake c) := of_clean _ rfl

theorem mbxRead (c : Nat) : Statement (.mbxRead c) := of_clean _ rfl

theorem txWait (c : Nat) (t : Draw) : Statement (.txWait c t) := of_clean _ rfl

theorem txReady (k : BitVec 16) : Statement (.txReady k) := of_clean _ rfl

theorem rxByte (b : Byte) : Statement (.rxByte b) := of_clean _ (by
  have h : argAboveByte (b.setWidth 16) = 0 := by
    apply BitVec.eq_of_getLsbD_eq
    intro i hi
    simp [argAboveByte, show 8 + i < 16 by omega]
  simp [argClean, Instr.opcode, Instr.argument, h])

theorem txqPush (d : Frame) : Statement (.txqPush d) := of_clean _ rfl

theorem txqPop : Statement .txqPop := of_clean _ rfl

theorem sendEnq (c : Nat) : Statement (.sendEnq c) := of_clean _ rfl

theorem sendIen (c : Nat) : Statement (.sendIen c) := of_clean _ rfl

end Sys2Proof.Laws.EncodedWord
end

