-- ==== Sys2Proof/Laws/Queue.lean ====
section
/-!
SUPPORT. The ring of the TX queue: its indices, when push and pop succeed, the frames it holds, and its invariant.
-/

namespace Sys2Proof.Machine

/-- `next(i)` is `(i + 1) mod N` on indices in range (R10). -/
theorem nextIndex_eq_mod {p : Params} {i : Nat} (h : i < p.n) : nextIndex p i = (i + 1) % p.n := by
  unfold nextIndex
  split
  · rw [show i + 1 = p.n by omega, Nat.mod_self]
  · rw [Nat.mod_eq_of_lt (by omega)]

/-- `next(i)` stays in range. -/
theorem nextIndex_lt {p : Params} {i : Nat} (h : i < p.n) : nextIndex p i < p.n := by
  rw [nextIndex_eq_mod h]; exact Nat.mod_lt _ (by omega)

/-- The slots `heldFrom` lists are `i, i + 1, ..., i + m - 1`, mod N (R26). -/
theorem mem_heldFrom (p : Params) : ∀ m i, i < p.n → ∀ j,
    j ∈ heldFrom p i m ↔ ∃ k, k < m ∧ j = (i + k) % p.n := by
  intro m
  induction m with
  | zero => intro i hi j; simp [heldFrom]
  | succ m ih =>
    intro i hi j
    rw [heldFrom, List.mem_cons, ih _ (nextIndex_lt hi), nextIndex_eq_mod hi]
    constructor
    · rintro (rfl | ⟨k, hk, rfl⟩)
      · exact ⟨0, by omega, by simp [Nat.mod_eq_of_lt hi]⟩
      · exact ⟨k+1, by omega, by rw [Nat.mod_add_mod]; congr 1; omega⟩
    · rintro ⟨k, hk, rfl⟩
      cases k with
      | zero => left; simp [Nat.mod_eq_of_lt hi]
      | succ k => right; exact ⟨k, by omega, by rw [Nat.mod_add_mod]; congr 1; omega⟩

/-- The last slot `heldFrom` lists. -/
theorem heldFrom_succ (p : Params) : ∀ m i, i < p.n →
    heldFrom p i (m + 1) = heldFrom p i m ++ [(i + m) % p.n] := by
  intro m
  induction m with
  | zero => intro i hi; simp [heldFrom, Nat.mod_eq_of_lt hi]
  | succ m ih =>
    intro i hi
    rw [heldFrom, ih _ (nextIndex_lt hi), nextIndex_eq_mod hi]
    simp only [heldFrom, List.cons_append, nextIndex_eq_mod hi]
    rw [Nat.mod_add_mod]; congr 4; omega

/-- A queue with room holds no frame in the slot at `head`. -/
theorem head_not_held {p : Params} {q : TxQueue} (h : QueueInv p q) (hc : q.count < p.n) :
    q.head ∉ q.heldSlots p := by
  intro hm
  rw [TxQueue.heldSlots, mem_heldFrom _ _ _ h.tailLt] at hm
  obtain ⟨k, hk, e⟩ := hm
  have e2 := h.headEq
  rw [e2] at e
  have ht := h.tailLt
  by_cases a : q.tail + q.count < p.n
  · rw [Nat.mod_eq_of_lt a, Nat.mod_eq_of_lt (by omega)] at e; omega
  · rw [Nat.mod_eq_sub_mod (by omega), Nat.mod_eq_of_lt (by omega)] at e
    by_cases b : q.tail + k < p.n
    · rw [Nat.mod_eq_of_lt b] at e; omega
    · rw [Nat.mod_eq_sub_mod (by omega), Nat.mod_eq_of_lt (by omega)] at e; omega

/-- Every index in range has a slot. -/
theorem exists_slot {p : Params} {q : TxQueue} (h : QueueInv p q) {i : Nat} (hi : i < p.n) :
    ∃ x, q.slots[i]? = some x := by
  have : i < q.slots.length := by rw [h.slots]; exact hi
  exact ⟨q.slots[i], by simp [this]⟩

/-- The queue after a push with room, `slot` being the slot at `head` (R100). -/
abbrev TxQueue.pushed (p : Params) (q : TxQueue) (d : Frame) (slot : Slot) : TxQueue :=
  { slots := q.slots.set q.head { len := d.length, data := slot.data.writeRange 0 d },
    head := (q.head + 1) % p.n, tail := q.tail, count := q.count + 1 }

/-- The queue after a pop of a held frame (R101). -/
abbrev TxQueue.popped (p : Params) (q : TxQueue) : TxQueue :=
  { q with tail := (q.tail + 1) % p.n, count := q.count - 1 }

/-- A push that is too long or finds the queue full answers false and changes nothing (R100). -/
theorem push_of_refused {p : Params} {q : TxQueue} {d : Frame} (h : p.txMax < d.length ∨ q.count = p.n) :
    q.push p d = .ok (q, false) := by
  unfold TxQueue.push
  by_cases h1 : p.txMax < d.length
  · simp [h1]
  · simp [h1, h.resolve_left h1]

/-- A push with room answers true (R100). -/
theorem push_of_room {p : Params} {q : TxQueue} {d : Frame} (h : QueueInv p q)
    (h1 : d.length ≤ p.txMax) (h2 : q.count < p.n) :
    ∃ slot, q.slots[q.head]? = some slot ∧ q.push p d = .ok (q.pushed p d slot, true) := by
  obtain ⟨x, hx⟩ := exists_slot h h.headLt
  refine ⟨x, hx, ?_⟩
  unfold TxQueue.push
  simp [Nat.not_lt.mpr h1, Nat.ne_of_lt h2, hx, storeBytes, h1, nextIndex_eq_mod h.headLt]

/-- A push appends its frame to the frames held. -/
theorem frames_push {p : Params} {q : TxQueue} {d : Frame} {slot : Slot} (h : QueueInv p q)
    (h2 : q.count < p.n) :
    (q.pushed p d slot).frames p = q.frames p ++ [d] := by
  unfold TxQueue.frames TxQueue.heldSlots
  simp only
  rw [heldFrom_succ _ _ _ h.tailLt, List.map_append]
  congr 1
  · apply List.map_congr_left
    intro i hi
    have : q.head ≠ i := by
      rintro rfl; exact head_not_held h h2 hi
    simp [TxQueue.frameAt, this]
  · rw [← h.headEq]
    have : q.head < q.slots.length := by rw [h.slots]; exact h.headLt
    simp [TxQueue.frameAt, this, Slot.frame, readRange_writeRange]

/-- A pop of a held frame answers it, the oldest (R101). -/
theorem pop_of_held {p : Params} {q : TxQueue} (h : QueueInv p q) (h2 : q.count ≠ 0) :
    ∃ slot d, q.slots[q.tail]? = some slot ∧ slot.len ≤ p.txMax ∧
      slot.data.readRange 0 slot.len = some d ∧
      d.length = slot.len ∧ (∀ j, j < slot.len → d[j]? = slot.data.read j) ∧
      q.pop p = .ok (q.popped p, some d) ∧ q.frames p = d :: (q.popped p).frames p := by
  obtain ⟨x, hx⟩ := exists_slot h h.tailLt
  have hl := h.slotLen x (List.mem_of_getElem? hx)
  have hm : q.tail ∈ q.heldSlots p := by
    rw [TxQueue.heldSlots, mem_heldFrom _ _ _ h.tailLt]
    exact ⟨0, by omega, by simp [Nat.mod_eq_of_lt h.tailLt]⟩
  have hf := h.heldFilled _ hm x hx
  obtain ⟨d, hd, hr, hlen, hj⟩ := loadBytes_of_filled (cap := p.txMax) (m := x.data) (i := 0) (n := x.len)
    (by omega) (by simpa using hf)
  refine ⟨x, d, hx, hl, hr, hlen, by simpa using hj, ?_, ?_⟩
  · unfold TxQueue.pop
    simp [h2, hx, hd, nextIndex_eq_mod h.tailLt]
  · obtain ⟨k, hk⟩ := Nat.exists_eq_succ_of_ne_zero h2
    unfold TxQueue.frames TxQueue.heldSlots
    simp only [hk, heldFrom, List.map_cons, nextIndex_eq_mod h.tailLt]
    have e : q.frameAt q.tail = d := by simp [TxQueue.frameAt, hx, Slot.frame, hr]
    rw [e]; rfl

/-- A push keeps the queue's invariant. -/
theorem QueueInv.push {p : Params} {q : TxQueue} {d : Frame} {slot : Slot} (h : QueueInv p q)
    (h1 : d.length ≤ p.txMax) (h2 : q.count < p.n) (hs : q.slots[q.head]? = some slot) :
    QueueInv p (q.pushed p d slot) := by
  have hn : 0 < p.n := by omega
  refine ⟨by simp [h.slots], Nat.mod_lt _ hn, h.tailLt, h2, ?_, ?_, ?_, ?_⟩
  · simp only; rw [h.headEq, Nat.mod_add_mod]; congr 1
  · intro x hx
    rcases List.mem_or_eq_of_mem_set hx with hx | rfl
    · exact h.slotLen x hx
    · exact h1
  · intro x hx
    rcases List.mem_or_eq_of_mem_set hx with hx | rfl
    · exact h.slotData x hx
    · exact writeRange_sound (h.slotData slot (List.mem_of_getElem? hs)) (by simpa using h1)
  · intro i hi x hx
    simp only [TxQueue.heldSlots] at hi hx
    rw [heldFrom_succ _ _ _ h.tailLt, ← h.headEq] at hi
    simp only [Option.mem_def, List.getElem?_set] at hx
    split at hx
    · split at hx
      · cases hx; exact writeRange_filled _ _
      · cases hx
    · rename_i hne
      rcases List.mem_append.mp hi with hi | hi
      · exact h.heldFilled i hi x hx
      · simp at hi; exact absurd hi.symm hne

/-- A pop keeps the queue's invariant. -/
theorem QueueInv.pop {p : Params} {q : TxQueue} (h : QueueInv p q) (h2 : q.count ≠ 0) :
    QueueInv p (q.popped p) := by
  have hn : 0 < p.n := by have := h.tailLt; omega
  refine ⟨h.slots, h.headLt, Nat.mod_lt _ hn, by have := h.countLe; simp only; omega, ?_, h.slotLen, h.slotData, ?_⟩
  · simp only; rw [h.headEq, Nat.mod_add_mod]; congr 1; omega
  · intro i hi x hx
    refine h.heldFilled i ?_ x hx
    simp only [TxQueue.heldSlots] at hi ⊢
    obtain ⟨k, hk⟩ := Nat.exists_eq_succ_of_ne_zero h2
    rw [hk, heldFrom, nextIndex_eq_mod h.tailLt]
    rw [hk] at hi
    exact List.mem_cons_of_mem _ hi

/-- The queue holds `count` frames. -/
theorem frames_length (p : Params) (q : TxQueue) : (TxQueue.frames p q).length = q.count := by
  have : ∀ m i, (heldFrom p i m).length = m := by
    intro m; induction m with
    | zero => intro i; rfl
    | succ m ih => intro i; simp [heldFrom, ih]
  simp [TxQueue.frames, TxQueue.heldSlots, this]

end Sys2Proof.Machine
end

