-- ==== Sys2Proof/Machine/Assembly.lean ====
section
/-!
DEFINITION. The assembly syntax of R89: one line gives one offer. The timeout draw of TX_WAIT has no syntax there and is
an argument. A line's agent need not be admitted by its operation: that is the decoder's test.
-/

namespace Sys2Proof.Machine

/-- A parser reads a value from the front of the characters and leaves the rest. -/
abbrev Parser (α : Type) := List Char → Option (α × List Char)

/-- Drop leading blanks. -/
def skipBlanks (cs : List Char) : List Char := cs.dropWhile (fun c => decide (c = ' '))

/-- Drop `pre` from the front. -/
def dropPrefix : List Char → List Char → Option (List Char)
  | [], cs => some cs
  | _ :: _, [] => none
  | p :: pre, c :: cs => if p = c then dropPrefix pre cs else none

/-- A decimal digit's value. -/
def digitValue (c : Char) : Option Nat :=
  if '0'.toNat ≤ c.toNat ∧ c.toNat ≤ '9'.toNat then some (c.toNat - '0'.toNat) else none

/-- A hexadecimal digit's value, either case. -/
def hexValue (c : Char) : Option Nat :=
  if 'A'.toNat ≤ c.toNat ∧ c.toNat ≤ 'F'.toNat then some (c.toNat - 'A'.toNat + 10)
  else if 'a'.toNat ≤ c.toNat ∧ c.toNat ≤ 'f'.toNat then some (c.toNat - 'a'.toNat + 10)
  else digitValue c

/-- The digits at the front, added to what was read before. -/
def digitsAfter (acc : Nat) : List Char → Nat × List Char
  | [] => (acc, [])
  | c :: cs =>
    match digitValue c with
    | some v => digitsAfter (acc * 10 + v) cs
    | none => (acc, c :: cs)

/-- A decimal number of at least one digit. Leading zeros are taken (DESIGN CHOICE, log 12). -/
def decimal : Parser Nat
  | [] => none
  | c :: cs =>
    match digitValue c with
    | some v => some (digitsAfter v cs)
    | none => none

/-- A byte written `0xHH`. -/
def hexByte : Parser Byte
  | '0' :: 'x' :: h :: l :: cs =>
    match hexValue h, hexValue l with
    | some a, some b => some (BitVec.ofNat 8 (a * 16 + b), cs)
    | _, _ => none
  | _ => none

/-- A character's byte: its ASCII code (R89). -/
def charByte (c : Char) : Option Byte := if c.toNat < 128 then some (BitVec.ofNat 8 c.toNat) else none

/-- The escapes `\r` and `\n` of R89. -/
def escapeByte (c : Char) : Option Byte :=
  if c = 'r' then some 0x0D#8 else if c = 'n' then some 0x0A#8 else none

/-- A byte written as a quoted character. A single quote or backslash alone between the quotes stands for itself, and a
backslash followed by anything but `r` or `n` gives no byte (DESIGN CHOICE, log 12). -/
def quotedByte : Parser Byte
  | '\'' :: '\\' :: e :: '\'' :: cs => (escapeByte e).map (·, cs)
  | '\'' :: c :: '\'' :: cs => (charByte c).map (·, cs)
  | _ => none

/-- The bytes of a text up to its closing quote. The escapes of a quoted character are taken inside a text too,
and a backslash followed by anything but `r` or `n` gives no text (DESIGN CHOICE, log 12). -/
def textBytes : Parser (List Byte)
  | [] => none
  | '"' :: cs => some ([], cs)
  | '\\' :: e :: cs =>
    match escapeByte e, textBytes cs with
    | some b, some (bs, rest) => some (b :: bs, rest)
    | _, _ => none
  | c :: cs =>
    match charByte c, textBytes cs with
    | some b, some (bs, rest) => some (b :: bs, rest)
    | _, _ => none

/-- One `0xHH` with blanks around it. -/
def listItem (cs : List Char) : Option Byte :=
  match hexByte (skipBlanks cs) with
  | some (b, rest) => if skipBlanks rest = [] then some b else none
  | none => none

/-- The items between commas, `cur` being the item under way, reversed. -/
def splitItems (cur : List Char) : List Char → List (List Char)
  | [] => [cur.reverse]
  | c :: cs => if c = ',' then cur.reverse :: splitItems [] cs else splitItems (c :: cur) cs

/-- The bytes of a list after its opening bracket. R89 writes a list `[0xHH, ...]` and gives `SEND ""` alone for the empty
frame; that an empty list, blanks in it or not, is the empty frame too is a DESIGN CHOICE (log 12). -/
def listBytes (cs : List Char) : Option (List Byte × List Char) :=
  let inner := cs.takeWhile (fun c => decide (c ≠ ']'))
  match cs.dropWhile (fun c => decide (c ≠ ']')) with
  | ']' :: rest =>
    if skipBlanks inner = [] then some ([], rest)
    else ((splitItems [] inner).mapM listItem).map (·, rest)
  | _ => none

/-- SEND's operand: a text or a byte list. -/
def frameOperand : Parser (List Byte)
  | '"' :: cs => textBytes cs
  | '[' :: cs => listBytes cs
  | _ => none

/-- RX_BYTE's operand. -/
def byteOperand (cs : List Char) : Option (Byte × List Char) :=
  match hexByte cs with
  | some r => some r
  | none => quotedByte cs

/-- The agent before the colon. -/
def agentName (cs : List Char) : Option (Agent × List Char) :=
  match dropPrefix "env".toList cs, dropPrefix "irq".toList cs, dropPrefix "c".toList cs with
  | some rest, _, _ => some (.env, rest)
  | _, some rest, _ => some (.irq, rest)
  | _, _, some rest => (decimal rest).map (fun r => (.ctx r.1, r.2))
  | _, _, _ => none

/-- The word and data operand of a mnemonic and its operands. -/
def operation (name operands : List Char) : Option ((OpWord × Option Frame) × List Char) :=
  if name = "RESET".toList then some ((packWord 0x1#4 0, none), operands)
  else if name = "ACTIVATE".toList then
    match decimal operands with
    | some (v, rest) => if v ≤ 1 then some ((packWord 0x2#4 (BitVec.ofNat 16 v), none), rest) else none
    | none => none
  else if name = "SEND".toList then
    match frameOperand operands with
    | some (d, rest) =>
      if d.length ≤ 65535 then some ((packWord 0x3#4 (BitVec.ofNat 16 d.length), some d), rest) else none
    | none => none
  else if name = "SIG_TAKE".toList then some ((packWord 0x4#4 0, none), operands)
  else if name = "MBX_READ".toList then some ((packWord 0x5#4 0, none), operands)
  else if name = "TX_WAIT".toList then some ((packWord 0x6#4 0, none), operands)
  else if name = "TX_READY".toList then
    match decimal operands with
    | some (v, rest) => if v ≤ 65535 then some ((packWord 0x8#4 (BitVec.ofNat 16 v), none), rest) else none
    | none => none
  else if name = "RX_BYTE".toList then
    match byteOperand operands with
    | some (b, rest) => some ((packWord 0x9#4 (b.setWidth 16), none), rest)
    | none => none
  else if name = "SEND.ENQ".toList then some ((packWord 0xE#4 0, none), operands)
  else if name = "SEND.IEN".toList then some ((packWord 0xF#4 0, none), operands)
  else none

/-- Nothing is left but blanks or a comment. -/
def lineEnds (cs : List Char) : Bool :=
  match skipBlanks cs with
  | [] => true
  | c :: _ => decide (c = ';')

/-- One line of assembly, `<agent>: <mnemonic> <operands>` (R89), as an offer; a line outside the syntax gives none (DESIGN
CHOICE, log 12). -/
def assemble (t : Draw) (line : List Char) : Option Offer :=
  match agentName (skipBlanks line) with
  | some (a, ':' :: rest) =>
    let body := skipBlanks rest
    let ends := fun c : Char => decide (c = ' ' ∨ c = ';')
    let name := body.takeWhile (fun c => !ends c)
    match operation name (skipBlanks (body.dropWhile (fun c => !ends c))) with
    | some ((w, d), after) =>
      if lineEnds after then some { agent := a, word := w, data := d, draw := t } else none
    | none => none
  | _ => none

end Sys2Proof.Machine
end

