-- ==== Sys2Proof/Tests/Slice0.lean ====
section
/-!
SUPPORT. Tests of the model on single steps and single words, with results taken from the spec's vectors (95), and a
witness for the hypotheses of every obligation that has some.
-/

namespace Sys2Proof.Tests

open Sys2Proof Sys2Proof.Machine

/-! ## Helpers -/

/-- The parameters of the spec's vectors: the reference values, two contexts, no TX-completion variant. -/
def vec : Params :=
  { n := 4, txMax := 64, rxCap := 64, rxFullDelivers := false, nCtx := 2, hasTxDone := false }

/-- Small parameters, with the TX-completion variant. -/
def small : Params :=
  { n := 2, txMax := 4, rxCap := 4, rxFullDelivers := false, nCtx := 2, hasTxDone := true }

/-- The same, a filled RX buffer being delivered. -/
def smallFull : Params := { small with rxFullDelivers := true }

/-- A storage that holds `bs` from index 0. -/
def bytes (bs : List Byte) : Memory := Memory.writeRange [] 0 bs

/-- A slot that holds a frame. -/
def slotOf (d : Frame) : Slot := { len := d.length, data := bytes d }

/-- An activated block, otherwise as launched. -/
def live (p : Params) : State := { State.launch p with active := true, rxIe := true }

/-- A frame in flight. -/
def flight (d : Frame) (pos : Nat) : InFlight := { buf := bytes d, len := d.length, pos := pos, busy := true }

/-- A context with a continuation. -/
def ctxWith (k : Cont) : Ctx := { cont := k, wait := none }

/-- A context blocked in an operation. -/
def ctxIn (w : WaitOp) : Ctx := { cont := .none, wait := some w }

/-- The part of a next state that a test looks at. -/
def after {α : Type} (r : Res) (f : State → α) : Option α :=
  match r with
  | .next t => some (f t)
  | .fault _ => none
  | .refused _ => none

/-! ## Well-formedness -/

theorem smoke_context_out_of_range : (Instr.sigTake 2).wf vec = false := by decide

theorem smoke_continuation_out_of_range : (Instr.sendEnq 2).wf vec = false := by decide

theorem smoke_frame_too_long : ∀ d : Frame, d.length = 65536 → (Instr.send 0 d).wf vec = false := by
  intro d h
  simp [Instr.wf, h]

theorem smoke_push_too_long : ∀ d : Frame, d.length = 65536 → (Instr.txqPush d).wf vec = false := by
  intro d h
  simp [Instr.wf, h]

theorem smoke_tx_wait_without_variant : (Instr.txWait 0 .take).wf vec = false := by decide

theorem smoke_well_formed : (Instr.send 1 [0x41]).wf vec = true ∧ (Instr.txWait 1 .expire).wf small = true := by
  decide

/-! ## Parameters and widths (R9 at the reference values) -/

theorem test_widths : Params.reference.idxw = 2 ∧ Params.reference.cntw = 3 ∧ Params.reference.tlw = 7 ∧
    Params.reference.rlw = 7 ∧ Params.reference.rxMaxp = 63 := by decide

theorem test_result_codes : [Result.ok, .tooLarge, .queueFull, .timeout, .empty, .notReady].map Result.code =
    [0, 1, 2, 3, 4, 5] := by decide

/-! ## Decoding: words written out from R81, R84, R91 and vectors E1 to E12 -/

theorem test_decode_reset : decode vec ⟨.env, 0b00010000000000000000000000000000, none, .take⟩ = .ok .reset := by
  decide

theorem test_decode_activate :
    decode vec ⟨.ctx 1, 0b00100000000000000000000000000001, none, .take⟩ = .ok (.activate 1 true) ∧
    decode vec ⟨.ctx 0, 0x20000000, none, .take⟩ = .ok (.activate 0 false) := by decide

theorem test_decode_send :
    decode vec ⟨.ctx 0, 0b00110000000000000000000000000010, some [0x48, 0x69], .take⟩ =
      .ok (.send 0 [0x48, 0x69]) := by decide

theorem test_decode_sigTake :
    decode vec ⟨.ctx 1, 0b01000000000000000000000000000000, none, .take⟩ = .ok (.sigTake 1) := by decide

theorem test_decode_mbxRead :
    decode vec ⟨.ctx 0, 0b01010000000000000000000000000000, none, .take⟩ = .ok (.mbxRead 0) := by decide

theorem test_decode_txWait :
    decode small ⟨.ctx 0, 0b01100000000000000000000000000000, none, .expire⟩ = .ok (.txWait 0 .expire) := by decide

theorem test_decode_txReady :
    decode vec ⟨.irq, 0b10000000000000000000000001000000, none, .take⟩ = .ok (.txReady 64) := by decide

theorem test_decode_rxByte :
    decode vec ⟨.irq, 0b10010000000000000000000001100001, none, .take⟩ = .ok (.rxByte 0x61) := by decide

theorem test_list_txqPush :
    decodeListing ⟨.irq, 0b11000000000000000000000000000001, some [0x41], .take⟩ = some (.txqPush [0x41]) := by decide

theorem test_list_txqPop :
    decodeListing ⟨.irq, 0b11010000000000000000000000000000, none, .take⟩ = some .txqPop := by decide

theorem test_decode_sendEnq :
    decode vec ⟨.ctx 1, 0b11100000000000000000000000000000, none, .take⟩ = .ok (.sendEnq 1) := by decide

theorem test_decode_sendIen :
    decode vec ⟨.ctx 0, 0b11110000000000000000000000000000, none, .take⟩ = .ok (.sendIen 0) := by decide

/-- E2 to E6, E8 to E10, M9, M10. -/
theorem test_decode_refusals :
    decode vec ⟨.ctx 0, 0x30000002, some [0x48], .take⟩ = .error .dataLength ∧
    decode vec ⟨.ctx 0, 0x31000001, some [0x41], .take⟩ = .error .rsvBits ∧
    decode vec ⟨.ctx 0, 0x70000000, none, .take⟩ = .error .reservedOp ∧
    decode vec ⟨.ctx 0, 0xC0000001, some [0x41], .take⟩ = .error .internalOp ∧
    decode vec ⟨.irq, 0x90000161, none, .take⟩ = .error .argBits ∧
    decode vec ⟨.ctx 0, 0x90000061, none, .take⟩ = .error .wrongAgent ∧
    decode vec ⟨.ctx 0, 0x20000003, none, .take⟩ = .error .argBits ∧
    decode vec ⟨.ctx 0, 0x40000001, none, .take⟩ = .error .argBits ∧
    decode vec ⟨.ctx 0, 0x60000000, none, .take⟩ = .error .noTxDone ∧
    decode vec ⟨.irq, 0x40000000, none, .take⟩ = .error .wrongAgent := by decide

/-- E12: SEND.IEN from a context without a continuation. -/
theorem test_continuation_mismatch :
    after (step { live vec with port := [⟨.ctx 0, 0xF0000000, none, .take⟩] })
      (fun t => (t.refused, t.last)) = some (true, .refused .wrongAgent) := by rfl

theorem test_table_word : decodeTableWord 32 0x9000000D = some (.rxByte 0x0D) ∧
    decodeTableWord 32 0xD0000000 = some .txqPop ∧ decodeTableWord 32 0xA0000000 = none := by decide

theorem test_step_runs_fetch_word :
    step (State.reset.withFetchWord 32 0x20000001) = exec (.activate 0 true) State.reset := by rfl

/-! ## Assembly text (R89) -/

theorem test_assemble_text :
    assemble .take "c0: SEND \"Hi\" ; two bytes".toList =
      some ⟨.ctx 0, 0x30000002, some [0x48, 0x69], .take⟩ := by decide

theorem test_assemble_list :
    assemble .take "c1: SEND [0x0A, 0xff]".toList = some ⟨.ctx 1, 0x30000002, some [0x0A, 0xFF], .take⟩ := by decide

theorem test_assemble_empty :
    assemble .take "c0: SEND \"\"".toList = some ⟨.ctx 0, 0x30000000, some [], .take⟩ := by decide

theorem test_assemble_byte :
    assemble .take "irq: RX_BYTE '\\r'".toList = some ⟨.irq, 0x9000000D, none, .take⟩ := by decide

/-! ## The queue (Q2, Q4, Q8, Q9, Q10) -/

/-- Q2: `head` wraps from 3 to 0. -/
theorem test_push_wraps :
    after (exec (.txqPush [0x7A]) { live vec with
        txq := { slots := [slotOf [], slotOf [0x78], slotOf [0x79], slotOf []], head := 3, tail := 1, count := 2 } })
      (fun t => (t.txq.head, t.txq.tail, t.txq.count, t.txq.frames vec, t.last)) =
    some (0, 1, 3, [[0x78], [0x79], [0x7A]], .completed (.pushed true)) := by rfl

/-- Q4: longer than TX_MAX. -/
theorem test_push_too_long :
    after (exec (.txqPush (List.replicate 65 0)) (live vec)) (fun t => (t.txq.count, t.last)) =
    some (0, .completed (.pushed false)) := by rfl

/-- Q8: `tail` wraps from 3 to 0. -/
theorem test_pop_wraps :
    after (exec .txqPop { live vec with
        txq := { slots := [slotOf [], slotOf [], slotOf [], slotOf [0x68, 0x69]], head := 0, tail := 3, count := 1 } })
      (fun t => (t.txq.head, t.txq.tail, t.txq.count, t.last)) =
    some (0, 0, 0, .completed (.popped (some [0x68, 0x69]))) := by rfl

/-- Q9: a full queue, `head = tail`. -/
theorem test_pop_full :
    after (exec .txqPop { live vec with
        txq := { slots := [slotOf [3], slotOf [4], slotOf [1], slotOf [2]], head := 2, tail := 2, count := 4 } })
      (fun t => (t.txq.tail, t.txq.frames vec, t.last)) =
    some (3, [[2], [3], [4]], .completed (.popped (some [1]))) := by rfl

/-! ## The send port (S1, S2, S4, S5, S8) -/

/-- S1: the fast path. -/
theorem test_send_fast :
    after (exec (.send 0 [0x48, 0x69]) (live vec))
      (fun t => (t.tx.busy, t.tx.len, t.tx.pos, t.txIe, t.ctxs.map Ctx.cont, t.last)) =
    some (true, 2, 0, false, [.ien, .none], .completed .nothing) := by rfl

/-- S8: SEND before activation. -/
theorem test_send_inactive :
    after (exec (.send 0 [0x41]) (State.launch vec)) (fun t => (t.refused, t.tx.busy, t.last)) =
    some (true, false, .refused .notActive) := by rfl

/-- S2: the enable follows. -/
theorem test_sendIen :
    after (exec (.sendIen 0) { live vec with tx := flight [0x48, 0x69] 0, ctxs := [ctxWith .ien, ctxWith .none] })
      (fun t => (t.txIe, t.tx.busy, t.ctxs.map Ctx.cont, t.replies)) =
    some (true, true, [.none, .none], [⟨0, .ok, none⟩]) := by rfl

/-- S4: the queue is full. -/
theorem test_sendEnq_full :
    after (exec (.sendEnq 1) { live vec with
        tx := flight [0x41] 0, txIe := true, ctxs := [ctxWith .none, ctxWith (.enq [0x45])],
        txq := { slots := List.replicate 4 (slotOf [1]), head := 0, tail := 0, count := 4 } })
      (fun t => (t.txq.count, t.ctxs.map Ctx.cont, t.replies)) =
    some (4, [.none, .none], [⟨1, .queueFull, none⟩]) := by rfl

/-- S3: the queue has room; the enable is not touched. -/
theorem test_sendEnq_room :
    after (exec (.sendEnq 1) { live vec with
        tx := flight [0x48, 0x69] 0, txIe := true, ctxs := [ctxWith .none, ctxWith (.enq [0x59, 0x6F])] })
      (fun t => (t.txq.head, t.txq.tail, t.txq.frames vec, t.txIe, t.replies)) =
    some (1, 0, [[0x59, 0x6F]], true, [⟨1, .ok, none⟩]) := by rfl

/-! ## The drainer (T1, T6) -/

theorem test_txReady_partial :
    after (exec (.txReady 2) { live vec with tx := flight [0x41, 0x42, 0x43] 0, txIe := true })
      (fun t => (t.wireTx, t.tx.busy, t.tx.len, t.tx.pos, t.txIe)) =
    some ([0x41, 0x42], true, 3, 2, true) := by rfl

/-- T6: the next frame is loaded. -/
theorem test_txReady_loads_next :
    after (exec (.txReady 5) { live vec with
        tx := flight [0x41] 0, txIe := true,
        txq := { slots := [slotOf [0x42, 0x43], slotOf [], slotOf [], slotOf []], head := 1, tail := 0, count := 1 } })
      (fun t => (t.wireTx, t.tx.busy, t.tx.len, t.tx.pos, t.txIe, t.txq.tail, t.txq.count)) =
    some ([0x41], true, 2, 0, true, 1, 0) := by rfl

/-! ## The assembler (R2, R11) -/

/-- R2: a terminator delivers the payload. -/
theorem test_rxByte_delivers :
    after (exec (.rxByte 0x0A) { live vec with
        rx := { buf0 := bytes [0x61, 0x62], buf1 := [], widx := false, pos := 2 } })
      (fun t => (t.rx.widx, t.rx.pos, t.mbx.ready, t.mbx.len, t.mailboxFrame, t.rxSig, t.events)) =
    some (true, 0, true, 2, some [0x61, 0x62], 1, []) := by rfl

/-- R11: with RX_CAP = 1 a byte that is no terminator overflows. -/
theorem test_rxByte_overflows :
    after (exec (.rxByte 0x61) (live { vec with rxCap := 1 })) (fun t => (t.rx.widx, t.rx.pos, t.mbx.ready, t.events)) =
    some (true, 0, false, [.rxOverflow]) := by rfl

/-! ## The mailbox and the signals (M1, M2, M4, M5, M6, M7) -/

theorem test_sigTake :
    after (exec (.sigTake 1) { live vec with rxSig := 1 }) (fun t => (t.rxSig, t.replies)) =
    some (0, [⟨1, .ok, none⟩]) := by rfl

theorem test_sigTake_blocks :
    after (exec (.sigTake 1) (live vec)) (fun t => (t.rxSig, t.replies, t.last, t.endOfRun)) =
    some (0, [], .notEnabled, false) := by rfl

/-- R181, R200: the give lifts the wait of the context blocked in SIG_TAKE, at its next attempt. -/
theorem test_sigTake_wakes :
    after (exec (.sigTake 1) { live vec with rxSig := 1, ctxs := [ctxWith .none, ctxIn .sigTake] })
      (fun t => (t.rxSig, t.replies, t.endOfRun)) = some (0, [⟨1, .ok, none⟩], true) := by rfl

/-- R11, R13: a context blocked in SIG_TAKE issues nothing else. -/
theorem test_blocked_context :
    after (exec (.txWait 1 .expire) { live small with ctxs := [ctxWith .none, ctxIn .sigTake] })
      (fun t => (t.ctxs, t.replies, t.last)) = some ([ctxWith .none, ctxIn .sigTake], [], .notEnabled) ∧
    after (exec (.send 1 [0x41]) { live small with ctxs := [ctxWith .none, ctxIn .sigTake] })
      (fun t => (t.tx.busy, t.ctxs, t.last)) = some (false, [ctxWith .none, ctxIn .sigTake], .notEnabled) := by
  exact ⟨rfl, rfl⟩

theorem test_mbxRead :
    after (exec (.mbxRead 1) { live vec with mbx := { data := bytes [0x61, 0x62, 0x63], len := 3, ready := true } })
      (fun t => (t.mbx.ready, t.mbx.len, t.replies)) =
    some (false, 3, [⟨1, .ok, some [0x61, 0x62, 0x63]⟩]) := by rfl

/-- M5's last step: the spurious wake. -/
theorem test_mbxRead_empty :
    after (exec (.mbxRead 1) { live vec with mbx := { data := bytes [0x61, 0x62], len := 2, ready := false } })
      (fun t => (t.mbx.ready, t.replies)) = some (false, [⟨1, .empty, none⟩]) := by rfl

theorem test_txWait :
    after (exec (.txWait 0 .take) { live small with txDoneSig := 1 }) (fun t => (t.txDoneSig, t.replies)) =
    some (0, [⟨0, .ok, none⟩]) := by rfl

theorem test_txWait_expires :
    after (exec (.txWait 0 .expire) { live small with txDoneSig := 1 }) (fun t => (t.txDoneSig, t.replies)) =
    some (1, [⟨0, .timeout, none⟩]) := by rfl

/-! ## Control (C1, C2, C4, C5) -/

theorem test_activate :
    after (exec (.activate 0 true) (State.launch vec)) (fun t => (t.active, t.rxIe, t.replies)) =
    some (true, true, [⟨0, .ok, none⟩]) := by rfl

theorem test_activate_not_ready :
    after (exec (.activate 0 false) (State.launch vec)) (fun t => (t.active, t.rxIe, t.replies)) =
    some (false, false, [⟨0, .notReady, none⟩]) := by rfl

theorem test_reset :
    after (exec .reset { live vec with
        mbx := { data := bytes [1], len := 1, ready := true }, rxSig := 1, wireTx := [1], refused := true,
        txq := { slots := List.replicate 4 (slotOf [1]), head := 2, tail := 0, count := 2 } })
      (fun t => (t.txq.count, t.mbx.ready, t.rxSig, t.active, t.wireTx, t.refused)) =
    some (0, false, 0, false, [], true) := by rfl

theorem test_reset_pending :
    after (exec .reset { live vec with ctxs := [ctxWith .none, ctxWith (.enq [1])] })
      (fun t => (t.active, t.refused, t.last)) = some (true, true, .refused .resetPending) := by rfl

/-! ## Witnesses: states that meet the invariant -/

/-- The queue invariant from its parts, each of which `decide` settles on a concrete queue. -/
theorem queueInv_of {p : Params} {q : TxQueue}
    (h : q.slots.length = p.n ∧ q.head < p.n ∧ q.tail < p.n ∧ q.count ≤ p.n ∧ q.head = (q.tail + q.count) % p.n ∧
      (∀ x ∈ q.slots, x.len ≤ p.txMax) ∧ (∀ x ∈ q.slots, x.data.Sound p.txMax) ∧
      (∀ i ∈ q.heldSlots p, ∀ x ∈ q.slots[i]?, x.data.filled x.len)) : QueueInv p q :=
  ⟨h.1, h.2.1, h.2.2.1, h.2.2.2.1, h.2.2.2.2.1, h.2.2.2.2.2.1, h.2.2.2.2.2.2.1, h.2.2.2.2.2.2.2⟩

/-- The mailbox invariant from its parts. -/
theorem mbxInv_of {s : State}
    (h : s.mbx.len ≤ s.params.rxCap ∧ s.mbx.data.Sound s.params.rxCap ∧
      (s.mbx.ready = true → 1 ≤ s.mbx.len ∧ s.mbx.len ≤ s.params.rxMaxp) ∧
      (s.mbx.ready = true → s.mbx.data.filled s.mbx.len)) : MbxInv s :=
  ⟨h.1, h.2.1, h.2.2.1, h.2.2.2⟩

/-- The block's invariant from its parts. -/
theorem blockInv_of {s : State} (hq : QueueInv s.params s.txq) (hm : MbxInv s)
    (hp : s.params.wf ∧ s.rxSig ≤ 1 ∧ s.txDoneSig ≤ 1 ∧ (s.params.hasTxDone = false → s.txDoneSig = 0))
    (ht : s.tx.len ≤ s.params.txMax ∧ s.tx.pos ≤ s.tx.len ∧ s.tx.buf.Sound s.params.txMax ∧
      (s.tx.busy = true → s.tx.buf.filled s.tx.len) ∧ (s.txIe = true → s.tx.busy = true) ∧
      (s.tx.busy = true → s.active = true))
    (hc : s.ctxs.length = s.params.nCtx ∧ (∀ x ∈ s.ctxs, x.cont.fits s.params = true) ∧
      s.ctxs.countP Ctx.isIen ≤ 1 ∧ (∀ x ∈ s.ctxs, x.cont = .ien → s.tx.busy = true ∧ s.txIe = false) ∧
      (∀ x ∈ s.ctxs, x.cont ≠ .none → s.active = true) ∧ (∀ x ∈ s.ctxs, x.wait ≠ none → x.cont = .none) ∧
      (∀ x ∈ s.ctxs, x.wait = some .txWait → s.params.hasTxDone = true))
    (hr : s.rx.pos < s.params.rxCap ∧ s.rx.buf0.Sound s.params.rxCap ∧ s.rx.buf1.Sound s.params.rxCap ∧
      s.rx.current.filled s.rx.pos ∧ s.rxIe = s.active) : BlockInv s :=
  ⟨hp.1, hq, ⟨ht.1, ht.2.1, ht.2.2.1, ht.2.2.2.1, ht.2.2.2.2.1, ht.2.2.2.2.2⟩,
    ⟨hc.1, hc.2.1, hc.2.2.1, hc.2.2.2.1, hc.2.2.2.2.1, hc.2.2.2.2.2.1, hc.2.2.2.2.2.2⟩,
    ⟨hr.1, hr.2.1, hr.2.2.1, hr.2.2.2.1, hr.2.2.2.2⟩, hm,
    ⟨hp.2.1, hp.2.2.1, hp.2.2.2⟩⟩

/-- A queue of depth 2 with one frame, its slots in the middle of a turn. -/
def oneQueued : TxQueue := { slots := [slotOf [9, 9], slotOf [0x44]], head := 0, tail := 1, count := 1 }

/-- A full queue of depth 2. -/
def fullQueue : TxQueue := { slots := [slotOf [0x45], slotOf [0x44]], head := 1, tail := 1, count := 2 }

/-- Idle, nothing queued, contexts free. -/
def idle : State := live small

/-- Transmitting with one byte out, the source enabled, one frame queued, a busy path pending in context 1. -/
def busy : State :=
  { idle with tx := flight [0x41, 0x42, 0x43] 1, txIe := true, txq := oneQueued,
              ctxs := [ctxWith .none, ctxWith (.enq [0x46])] }

/-- The same with nothing queued. -/
def busyAlone : State := { busy with txq := TxQueue.atReset small }

/-- The same with a full queue. -/
def busyFull : State := { busy with txq := fullQueue }

/-- The fast path between its two steps, in context 0. -/
def window : State := { idle with tx := flight [0x41] 0, ctxs := [ctxWith .ien, ctxWith .none] }

/-- Idle, with a busy path still pending in context 1 and one frame already stranded. -/
def stranded : State := { idle with txq := oneQueued, ctxs := [ctxWith .none, ctxWith (.enq [0x46])] }

/-- Idle, with context 0 blocked in TX_WAIT and context 1 in SIG_TAKE. -/
def waiting : State := { idle with ctxs := [ctxIn .txWait, ctxIn .sigTake] }

/-- Two bytes of a line received into buffer 1, the mailbox empty. -/
def midLine : State := { idle with rx := { buf0 := [], buf1 := bytes [0x61, 0x62], widx := true, pos := 2 } }

/-- A buffer with room for one byte only. -/
def lastByte (p : Params) : State :=
  { live p with rx := { buf0 := bytes [0x61, 0x62, 0x63], buf1 := [], widx := false, pos := 3 } }

/-- A full mailbox with its signal. -/
def withMail (s : State) : State := { s with mbx := { data := bytes [0x6D], len := 1, ready := true }, rxSig := 1 }

theorem oneQueued_inv : QueueInv small oneQueued := queueInv_of (by decide)

theorem fullQueue_inv : QueueInv small fullQueue := queueInv_of (by decide)

theorem emptyQueue_inv : QueueInv small (TxQueue.atReset small) := queueInv_of (by decide)

theorem idle_inv : BlockInv idle :=
  blockInv_of emptyQueue_inv (mbxInv_of (by decide)) (by decide) (by decide) (by decide) (by decide)

theorem busy_inv : BlockInv busy :=
  blockInv_of oneQueued_inv (mbxInv_of (by decide)) (by decide) (by decide) (by decide) (by decide)

theorem busyAlone_inv : BlockInv busyAlone :=
  blockInv_of emptyQueue_inv (mbxInv_of (by decide)) (by decide) (by decide) (by decide) (by decide)

theorem busyFull_inv : BlockInv busyFull :=
  blockInv_of fullQueue_inv (mbxInv_of (by decide)) (by decide) (by decide) (by decide) (by decide)

theorem window_inv : BlockInv window :=
  blockInv_of emptyQueue_inv (mbxInv_of (by decide)) (by decide) (by decide) (by decide) (by decide)

theorem stranded_inv : BlockInv stranded :=
  blockInv_of oneQueued_inv (mbxInv_of (by decide)) (by decide) (by decide) (by decide) (by decide)

theorem waiting_inv : BlockInv waiting :=
  blockInv_of emptyQueue_inv (mbxInv_of (by decide)) (by decide) (by decide) (by decide) (by decide)

theorem midLine_inv : BlockInv midLine :=
  blockInv_of emptyQueue_inv (mbxInv_of (by decide)) (by decide) (by decide) (by decide) (by decide)

theorem midLine_mail_inv : BlockInv (withMail midLine) :=
  blockInv_of emptyQueue_inv (mbxInv_of (by decide)) (by decide) (by decide) (by decide) (by decide)

theorem lastByte_inv : BlockInv (lastByte smallFull) :=
  blockInv_of (queueInv_of (by decide)) (mbxInv_of (by decide)) (by decide) (by decide) (by decide) (by decide)

theorem lastByte_mail_inv : BlockInv (withMail (lastByte smallFull)) :=
  blockInv_of (queueInv_of (by decide)) (mbxInv_of (by decide)) (by decide) (by decide) (by decide) (by decide)

/-! ## Witnesses: the hypotheses of the obligations -/

/-- A word presented to a block. -/
def present (s : State) (o : Offer) : State := { s with port := [o] }

theorem witness_DecodeEncodeAgree :
    (Instr.send 1 [0x41]).wf small = true ∧ (Instr.send 1 [0x41]).isInternal = false ∧
    (Instr.txWait 1 .expire).wf small = true ∧ (Instr.txReady 0xFFFF).wf small = true ∧
    (Instr.rxByte 0xFF).wf small = true := by decide

theorem witness_ListingNamesEveryOperation :
    (Instr.txqPush []).wf small = true ∧ Instr.txqPop.wf small = true ∧ (Instr.sendIen 1).wf small = true := by decide

theorem witness_DecodedOfferIsTheEncoding :
    decode small ⟨.ctx 1, 0x60000000, none, .expire⟩ = .ok (.txWait 1 .expire) ∧
    decode small ⟨.ctx 1, 0x30000000, some [], .take⟩ = .ok (.send 1 []) := by decide

/-- Each clause at the ends of its range: bits 16 and 27, 1 and 15, 8 and 15, 0 and 15. -/
theorem witness_StrayBitsRefused :
    ((0x80010000 : OpWord).getLsbD 16 = true ∧ (0x88000000 : OpWord).getLsbD 27 = true) ∧
    ((0x20000002 : OpWord).toNat / 2 ^ 28 = 2 ∧ (0x20000002 : OpWord).getLsbD 1 = true ∧
      (0x20008000 : OpWord).toNat / 2 ^ 28 = 2 ∧ (0x20008000 : OpWord).getLsbD 15 = true) ∧
    ((0x90000100 : OpWord).toNat / 2 ^ 28 = 9 ∧ (0x90000100 : OpWord).getLsbD 8 = true ∧
      (0x90008000 : OpWord).toNat / 2 ^ 28 = 9 ∧ (0x90008000 : OpWord).getLsbD 15 = true) ∧
    ((0x10000001 : OpWord).toNat / 2 ^ 28 ∈ [1, 4, 5, 6, 14, 15] ∧ (0x10000001 : OpWord).getLsbD 0 = true ∧
      (0xF0008000 : OpWord).toNat / 2 ^ 28 ∈ [1, 4, 5, 6, 14, 15] ∧ (0xF0008000 : OpWord).getLsbD 15 = true) := by
  decide

theorem witness_ReservedCodesRefused :
    (0x00000000 : OpWord).toNat / 2 ^ 28 ∈ [0, 7, 10, 11] ∧ (0xBFFFFFFF : OpWord).toNat / 2 ^ 28 ∈ [0, 7, 10, 11] ∧
    (0xB0000000 : OpWord).toNat / 2 ^ 28 ∈ [0, 7, 10, 11] ∧ (0xB0000000 : OpWord).toNat / 2 ^ 16 % 2 ^ 12 = 0 ∧
    decode small ⟨.irq, 0x8000FFFF, none, .take⟩ = .ok (.txReady 0xFFFF) := by decide

theorem witness_BypassingAccessesRefused :
    ((0xC0000001 : OpWord).toNat / 2 ^ 28 = 12 ∧ (0xC0000001 : OpWord).toNat / 2 ^ 16 % 2 ^ 12 = 0 ∧
      (0xD000FFFF : OpWord).toNat / 2 ^ 28 = 13 ∧ (0xD000FFFF : OpWord).toNat / 2 ^ 16 % 2 ^ 12 = 0) ∧
    ((0xE0000000 : OpWord).toNat / 2 ^ 28 = 14 ∧ idle.ctxs[0]? = some (ctxWith .none) ∧
      (0xF0000000 : OpWord).toNat / 2 ^ 28 = 15 ∧ busy.ctxs[1]? = some (ctxWith (.enq [0x46]))) ∧
    (0x40000000 : OpWord).toNat / 2 ^ 28 = 4 ∧ (0x60000000 : OpWord).toNat / 2 ^ 28 = 6 := by decide

theorem witness_AgentsPerformTheirClassOnly :
    decode small ⟨.env, 0x10000000, none, .take⟩ = .ok .reset ∧
    decode small ⟨.irq, 0x900000FF, none, .take⟩ = .ok (.rxByte 0xFF) ∧
    decode small ⟨.ctx 1, 0x60000000, none, .take⟩ = .ok (.txWait 1 .take) := by decide

theorem witness_StepPerformsTheDecodedOperation :
    idle.port = [] ∧
    (present idle ⟨.irq, 0x80000001, none, .take⟩).port = [⟨.irq, 0x80000001, none, .take⟩] ∧
    decode idle.params ⟨.irq, 0x80000001, none, .take⟩ = .ok (.txReady 1) ∧
    (present idle (encode (.sigTake 1))).port = encode (.sigTake 1) :: [] ∧
    (Instr.sigTake 1).wf idle.params = true ∧ (Instr.sigTake 1).isInternal = false := by decide

theorem witness_RefusedWordSetsTheMarkOnly :
    (present idle ⟨.ctx 0, 0xC0000000, some [], .take⟩).port = ⟨.ctx 0, 0xC0000000, some [], .take⟩ :: [] ∧
    decode idle.params ⟨.ctx 0, 0xC0000000, some [], .take⟩ = .error .internalOp := by decide

theorem witness_ResetEffect :
    (∃ x ∈ busy.ctxs, x.cont ≠ .none) ∧ (∀ x ∈ (withMail midLine).ctxs, x.cont = .none) := by decide

theorem witness_ActivateEffect : (State.launch small).ctxs[1]? = some (ctxWith .none) ∧
    (ctxWith .none).cont = .none ∧ (ctxWith .none).wait = none := by decide

/-- The four clauses: inactive, one byte too long, the longest frame while Idle, the longest frame while busy. -/
theorem witness_SendFirstStep :
    ((ctxWith .none).cont = .none ∧ (ctxWith .none).wait = none) ∧
    ((State.launch small).ctxs[0]? = some (ctxWith .none) ∧ (State.launch small).active = false) ∧
    (idle.ctxs[0]? = some (ctxWith .none) ∧ idle.active = true ∧ idle.params.txMax < [1, 2, 3, 4, 5].length) ∧
    ([1, 2, 3, 4].length ≤ idle.params.txMax ∧ idle.tx.busy = false) ∧
    (busy.ctxs[0]? = some (ctxWith .none) ∧ busy.active = true ∧ [1, 2, 3, 4].length ≤ busy.params.txMax ∧
      busy.tx.busy = true) := by decide

theorem witness_SendEnqEffect :
    (QueueInv busyFull.params busyFull.txq ∧ QueueInv busy.params busy.txq) ∧
    busyFull.ctxs[1]? = some (ctxWith (.enq [0x46])) ∧ busy.ctxs[1]? = some (ctxWith (.enq [0x46])) ∧
    [0x46].length ≤ busy.params.txMax ∧ busyFull.txq.count = busyFull.params.n ∧ busy.txq.count < busy.params.n :=
  ⟨⟨fullQueue_inv, oneQueued_inv⟩, by decide⟩

theorem witness_SendIenEffect : window.ctxs[0]? = some (ctxWith .ien) ∧ (ctxWith .ien).cont = .ien := by decide

/-- A host operation with a pending continuation, a continuation without one, the wrong continuation, and a context that
is missing from a state no run reaches (log 10). -/
theorem witness_ContinuationMismatchRefused :
    ((Instr.sigTake 0).issuer = .ctx 0 ∧ window.ctxs[0]? = some (ctxWith .ien) ∧ Instr.sigTake 0 ≠ .sendIen 0 ∧
      (Instr.sigTake 0).wf window.params = true) ∧
    ((Instr.sendIen 0).issuer = .ctx 0 ∧ idle.ctxs[0]? = some (ctxWith .none) ∧
      (Instr.sendIen 0).wf idle.params = true) ∧
    ((Instr.sendIen 1).issuer = .ctx 1 ∧ busy.ctxs[1]? = some (ctxWith (.enq [0x46])) ∧
      Instr.sendIen 1 ≠ .sendEnq 1 ∧ (Instr.sendIen 1).wf busy.params = true) ∧
    ((Instr.mbxRead 1).issuer = .ctx 1 ∧ ({ idle with ctxs := [] }).ctxs[1]? = none ∧
      (Instr.mbxRead 1).wf ({ idle with ctxs := [] }).params = true) := by decide

theorem witness_SendCallReturnsOnce :
    BlockInv idle ∧ idle.active = true ∧ idle.ctxs[0]? = some (ctxWith .none) ∧
    BlockInv busyFull ∧ busyFull.active = true ∧ busyFull.ctxs[0]? = some (ctxWith .none) ∧
    (ctxWith .none).cont = .none ∧ (ctxWith .none).wait = none :=
  ⟨idle_inv, by decide, by decide, busyFull_inv, by decide, by decide, by decide, by decide⟩

theorem witness_TxqPushEffect :
    (QueueInv busyFull.params busyFull.txq ∧ QueueInv busy.params busy.txq) ∧
    busyFull.txq.count = busyFull.params.n ∧ busy.params.txMax < [1, 2, 3, 4, 5].length ∧
    [1, 2, 3, 4].length ≤ busy.params.txMax ∧ busy.txq.count < busy.params.n :=
  ⟨⟨fullQueue_inv, oneQueued_inv⟩, by decide⟩

theorem witness_TxqPopEffect :
    (QueueInv idle.params idle.txq ∧ QueueInv busy.params busy.txq) ∧ idle.txq.count = 0 ∧ busy.txq.count ≠ 0 :=
  ⟨⟨emptyQueue_inv, oneQueued_inv⟩, by decide⟩

theorem witness_RingIsABoundedFifo : small.wf ∧ QueueInv small oneQueued := ⟨by decide, oneQueued_inv⟩

theorem witness_IndicesMeetIffEmptyOrFull :
    QueueInv small fullQueue ∧ fullQueue.head = fullQueue.tail ∧
    QueueInv small oneQueued ∧ oneQueued.head ≠ oneQueued.tail :=
  ⟨fullQueue_inv, by decide, oneQueued_inv, by decide⟩

/-- Disabled; enabled but Idle; enabled with bytes left, with the last byte and nothing queued, and with the last byte
and a frame queued. -/
theorem witness_TxReadyEffect :
    (BlockInv idle ∧ BlockInv busy ∧ BlockInv busyAlone) ∧ idle.txIe = false ∧
    (({ idle with txIe := true }).txIe = true ∧ ({ idle with txIe := true }).tx.busy = false) ∧
    (busy.txIe = true ∧ busy.tx.pos + min 1 (busy.tx.len - busy.tx.pos) < busy.tx.len) ∧
    (busyAlone.tx.pos + min 2 (busyAlone.tx.len - busyAlone.tx.pos) = busyAlone.tx.len ∧ busyAlone.txq.count = 0) ∧
    (busy.tx.pos + min 65535 (busy.tx.len - busy.tx.pos) = busy.tx.len ∧ busy.txq.count ≠ 0) :=
  ⟨⟨idle_inv, busy_inv, busyAlone_inv⟩, by decide⟩

theorem witness_DrainFinishesInOrder :
    BlockInv busy ∧ busy.tx.busy = true ∧ busy.txIe = true ∧ (∀ k ∈ [1#16, 1#16, 2#16, 1#16, 1#16], k ≠ 0) ∧
    busy.drainBound ≤ [1#16, 1#16, 2#16, 1#16, 1#16].length :=
  ⟨busy_inv, by decide, by decide, by simp, Nat.le_of_eq (by rfl)⟩

/-- A run that commits two frames, one on each path. -/
def twoSends : List Instr := [.send 0 [0x41], .sendIen 0, .send 1 [0x42], .sendEnq 1, .txReady 8]

theorem witness_WireFollowsCommitOrder :
    BlockInv idle ∧ idle.NoStranded ∧ (∀ i ∈ twoSends, isRunning i = true) ∧ noIdleEnq twoSends idle ∧
    commits twoSends idle = [[0x41], [0x42]] ∧ ∃ t, execAll twoSends idle = .next t :=
  ⟨idle_inv, fun _ => rfl, by decide, ⟨by decide, by decide, by decide, fun _ => rfl, by decide, trivial⟩, by rfl,
    ⟨_, rfl⟩⟩

theorem witness_StrandedFrameWaits :
    (BlockInv stranded ∧ stranded.tx.busy = false ∧ stranded.txq.count < stranded.params.n ∧
      stranded.ctxs[1]? = some (ctxWith (.enq [0x46]))) ∧
    (1 ≤ stranded.txq.count ∧ isRunning (.rxByte 0x0D) = true ∧ ∃ t, exec (.rxByte 0x0D) stranded = .next t) :=
  ⟨⟨stranded_inv, by decide, by decide, by decide⟩, by decide, by decide, ⟨_, rfl⟩⟩

theorem witness_RxByteIsStored :
    (State.launch small).rxIe = false ∧ midLine.rxIe = true ∧ (0x0C : Byte) ≠ 0x0D ∧ (0x0C : Byte) ≠ 0x0A ∧
    midLine.rx.pos + 1 < midLine.params.rxCap := by decide

theorem witness_RxTerminatorFinalizes :
    (BlockInv idle ∧ BlockInv midLine ∧ BlockInv (withMail midLine)) ∧ idle.rxIe = true ∧ idle.rx.pos = 0 ∧
    (midLine.rxIe = true ∧ midLine.rx.pos ≠ 0 ∧ midLine.mbx.ready = false) ∧
    ((withMail midLine).rxIe = true ∧ (withMail midLine).rx.pos ≠ 0 ∧ (withMail midLine).mbx.ready = true) :=
  ⟨⟨idle_inv, midLine_inv, midLine_mail_inv⟩, by decide⟩

theorem witness_RxFullBufferOverflows :
    (lastByte small).params.rxFullDelivers = false ∧ (lastByte small).rxIe = true ∧
    (lastByte small).rx.pos + 1 = (lastByte small).params.rxCap := by decide

theorem witness_RxFullBufferDelivers :
    (BlockInv (lastByte smallFull) ∧ BlockInv (withMail (lastByte smallFull))) ∧
    (lastByte smallFull).params.rxFullDelivers = true ∧ (lastByte smallFull).rxIe = true ∧
    (lastByte smallFull).rx.pos + 1 = (lastByte smallFull).params.rxCap ∧
    (lastByte smallFull).mbx.ready = false ∧ (withMail (lastByte smallFull)).mbx.ready = true :=
  ⟨⟨lastByte_inv, lastByte_mail_inv⟩, by decide⟩

/-- The longest line. -/
theorem witness_LineGivesExactlyOneFrame :
    BlockInv idle ∧ idle.rxIe = true ∧ idle.rx.pos = 0 ∧
    (∀ b ∈ ([0x61, 0x62, 0x63] : List Byte), b ≠ 0x0D ∧ b ≠ 0x0A) ∧ [0x61, 0x62, 0x63].length < idle.params.rxCap ∧
    idle.mbx.ready = false :=
  ⟨idle_inv, by decide, by decide, by decide, by decide, by decide⟩

theorem witness_OverflowThenRecovery :
    BlockInv idle ∧ idle.params.rxFullDelivers = false ∧ idle.rxIe = true ∧ idle.rx.pos = 0 ∧
    idle.mbx.ready = false ∧ [0x78, 0x78, 0x78, 0x78].length = idle.params.rxCap ∧
    (∀ b ∈ ([0x78] : List Byte), b ≠ 0x0D ∧ b ≠ 0x0A) ∧ [0x79].length < idle.params.rxCap :=
  ⟨idle_inv, by decide, by decide, by decide, by decide, by decide, by decide, by decide⟩

/-- Each clause at a first attempt and at a later one. -/
theorem witness_SigTakeEffect :
    ((ctxWith .none).cont = .none ∧ (ctxWith .none).wait = none) ∧
    ((ctxIn .sigTake).cont = .none ∧ (ctxIn .sigTake).wait = some .sigTake) ∧
    (idle.ctxs[1]? = some (ctxWith .none) ∧ waiting.ctxs[1]? = some (ctxIn .sigTake) ∧
      idle.rxSig = 0 ∧ waiting.rxSig = 0) ∧
    ((withMail idle).ctxs[1]? = some (ctxWith .none) ∧ (withMail waiting).ctxs[1]? = some (ctxIn .sigTake) ∧
      (withMail idle).rxSig ≠ 0 ∧ (withMail waiting).rxSig ≠ 0) := by decide

theorem witness_MbxReadEffect :
    (MbxInv (withMail idle) ∧ MbxInv idle) ∧ (withMail idle).ctxs[1]? = some (ctxWith .none) ∧
    (withMail idle).mbx.ready = true ∧ idle.ctxs[1]? = some (ctxWith .none) ∧ idle.mbx.ready = false ∧
    (ctxWith .none).cont = .none ∧ (ctxWith .none).wait = none :=
  ⟨⟨mbxInv_of (by decide), mbxInv_of (by decide)⟩, by decide⟩

/-- Each clause at a first attempt and at a later one. -/
theorem witness_TxWaitEffect :
    (live vec).params.hasTxDone = false ∧ idle.params.hasTxDone = true ∧ waiting.params.hasTxDone = true ∧
    ((ctxWith .none).cont = .none ∧ (ctxWith .none).wait = none) ∧
    ((ctxIn .txWait).cont = .none ∧ (ctxIn .txWait).wait = some .txWait) ∧
    (idle.ctxs[0]? = some (ctxWith .none) ∧ waiting.ctxs[0]? = some (ctxIn .txWait) ∧
      idle.txDoneSig = 0 ∧ waiting.txDoneSig = 0) ∧
    (({ idle with txDoneSig := 1 }).ctxs[0]? = some (ctxWith .none) ∧
      ({ idle with txDoneSig := 1 }).txDoneSig ≠ 0 ∧
      ({ waiting with txDoneSig := 1 }).ctxs[0]? = some (ctxIn .txWait) ∧
      ({ waiting with txDoneSig := 1 }).txDoneSig ≠ 0) := by decide

/-- An operation that does not block, and each blocking operation while the other is waited in. -/
theorem witness_BlockedContextIssuesNothingElse :
    ((ctxIn .sigTake).cont = .none ∧ (ctxIn .sigTake).wait = some .sigTake ∧ (ctxIn .txWait).cont = .none ∧
      (ctxIn .txWait).wait = some .txWait) ∧
    (waiting.ctxs[1]? = some (ctxIn .sigTake) ∧ (Instr.mbxRead 1).issuer = .ctx 1 ∧
      (Instr.mbxRead 1).wf waiting.params = true ∧ Instr.mbxRead 1 ≠ .sendEnq 1 ∧ Instr.mbxRead 1 ≠ .sendIen 1 ∧
      Instr.mbxRead 1 ≠ .sigTake 1) ∧
    ((Instr.txWait 1 .take).issuer = .ctx 1 ∧ (Instr.txWait 1 .take).wf waiting.params = true ∧
      Instr.txWait 1 .take ≠ .sendEnq 1 ∧ Instr.txWait 1 .take ≠ .sendIen 1 ∧ Instr.txWait 1 .take ≠ .sigTake 1) ∧
    (waiting.ctxs[0]? = some (ctxIn .txWait) ∧ (Instr.sigTake 0).issuer = .ctx 0 ∧
      (Instr.sigTake 0).wf waiting.params = true ∧ Instr.sigTake 0 ≠ .sendEnq 0 ∧ Instr.sigTake 0 ≠ .sendIen 0 ∧
      Instr.sigTake 0 ≠ .txWait 0 .take ∧ Instr.sigTake 0 ≠ .txWait 0 .expire) := by decide

/-- Each way a wait ends, and RESET, which leaves it. -/
theorem witness_WaitLastsUntilItsOwnReturn :
    ((ctxIn .sigTake).cont = .none ∧ (ctxIn .sigTake).wait = some .sigTake ∧ (ctxIn .txWait).cont = .none ∧
      (ctxIn .txWait).wait = some .txWait) ∧
    (waiting.ctxs[1]? = some (ctxIn .sigTake) ∧ ∃ t, exec .reset waiting = .next t ∧ t.ctxs = waiting.ctxs) ∧
    ((withMail waiting).ctxs[1]? = some (ctxIn .sigTake) ∧
      ∃ t, exec (.sigTake 1) (withMail waiting) = .next t ∧ t.ctxs[1]? = some (ctxWith .none)) ∧
    (({ waiting with txDoneSig := 1 }).ctxs[0]? = some (ctxIn .txWait) ∧
      ∃ t, exec (.txWait 0 .take) { waiting with txDoneSig := 1 } = .next t ∧ t.ctxs[0]? = some (ctxWith .none)) ∧
    (waiting.ctxs[0]? = some (ctxIn .txWait) ∧
      ∃ t, exec (.txWait 0 .expire) waiting = .next t ∧ t.ctxs[0]? = some (ctxWith .none)) :=
  ⟨by decide, ⟨rfl, _, rfl, rfl⟩, ⟨rfl, _, rfl, rfl⟩, ⟨rfl, _, rfl, rfl⟩, rfl, _, rfl, rfl⟩

theorem witness_SignalMeansReadyKept :
    (withMail midLine).SignalMeansReady ∧ (∃ t, exec (.rxByte 0x0D) (withMail midLine) = .next t) ∧
    idle.SignalMeansReady ∧ idle.rxSig = 0 ∧ ∃ t, exec (.mbxRead 1) idle = .next t :=
  ⟨fun _ => rfl, ⟨_, rfl⟩, fun h => absurd rfl h, rfl, ⟨_, rfl⟩⟩

theorem witness_SpuriousWakeReadsEmpty :
    ({ idle with rxSig := 1 }).ctxs[1]? = some (ctxWith .none) ∧ ({ idle with rxSig := 1 }).rxSig ≠ 0 ∧
    ({ idle with rxSig := 1 }).mbx.ready = false ∧ ({ waiting with rxSig := 1 }).ctxs[1]? = some (ctxIn .sigTake) ∧
    (ctxWith .none).cont = .none ∧ (ctxWith .none).wait ≠ some .txWait ∧ (ctxIn .sigTake).cont = .none ∧
    (ctxIn .sigTake).wait ≠ some .txWait := by decide

theorem witness_ReadyFrameIsKept :
    (withMail midLine).mbx.ready = true ∧ ∃ t, exec (.rxByte 0x0D) (withMail midLine) = .next t :=
  ⟨rfl, ⟨_, rfl⟩⟩

theorem witness_LaunchMeetsInvariant : small.wf ∧ Params.reference.wf := by decide

theorem witness_StepKeepsInvariant :
    BlockInv busy ∧ BlockInv waiting ∧ ∃ t, exec (.txReady 8) busy = .next t ∧ t.wireTx = [0x42, 0x43] ∧ t.tx.len = 1 :=
  ⟨busy_inv, waiting_inv, _, rfl, by decide, by decide⟩

theorem witness_InvariantStateStepsOn : BlockInv busy ∧ BlockInv (withMail (lastByte smallFull)) ∧ BlockInv waiting :=
  ⟨busy_inv, lastByte_mail_inv, waiting_inv⟩

theorem witness_StepKeepsStorageCanonical :
    busy.MemWf ∧ ∃ t, step (present busy ⟨.ctx 1, 0xE0000000, none, .take⟩) = .next t ∧ t.txq.count = 2 :=
  ⟨⟨by decide, by decide, by decide, by decide, by decide⟩, _, rfl, rfl⟩

theorem witness_ValuesFitTheirWidths : BlockInv busyFull ∧ busyFull.txq.count = busyFull.params.n :=
  ⟨busyFull_inv, by decide⟩

theorem witness_RefusedMarkIsSticky :
    (∃ t, step (present { idle with refused := true } ⟨.env, 0x10000000, none, .take⟩) = .next t ∧ t.active = false) ∧
    ∃ t, step (present idle ⟨.env, 0x00000000, none, .take⟩) = .next t ∧ t.last = .refused .reservedOp :=
  ⟨⟨_, rfl, rfl⟩, _, rfl, rfl⟩

theorem witness_StepKeepsParameters :
    ∃ t, step (present idle ⟨.ctx 0, 0x40000000, none, .take⟩) = .next t ∧ t.last = .notEnabled := ⟨_, rfl, rfl⟩

theorem witness_OnlyTxReadyWritesTheWire :
    ∃ t, exec (.txReady 1) busy = .next t ∧ t.wireTx = [0x42] := ⟨_, rfl, by decide⟩

theorem witness_OnlyRxByteEmitsEvents :
    ∃ t, exec (.rxByte 0x0D) (withMail midLine) = .next t ∧ t.events = [.rxDrop 2] := ⟨_, rfl, by decide⟩

theorem witness_TxEnableWriters :
    (∃ t, exec (.sendIen 0) window = .next t ∧ window.txIe = false ∧ t.txIe = true) ∧
    (∃ t, exec (.txReady 2) busyAlone = .next t ∧ busyAlone.txIe = true ∧ t.txIe = false) ∧
    ∃ t, exec (.txReady 2) idle = .next t ∧ idle.txIe = false :=
  ⟨⟨_, rfl, by decide, by decide⟩, ⟨_, rfl, by decide, by decide⟩, _, rfl, by decide⟩

theorem witness_ActivationWriters :
    (∃ t, exec (.activate 0 true) (State.launch small) = .next t ∧ t.rxIe ≠ (State.launch small).rxIe) ∧
    (∃ t, exec .reset idle = .next t ∧ t.active ≠ idle.active) ∧
    ∃ t, exec (.rxByte 0) (State.launch small) = .next t ∧ (State.launch small).rxIe = false :=
  ⟨⟨_, rfl, by decide⟩, ⟨_, rfl, by decide⟩, _, rfl, by decide⟩

theorem witness_QueueWriters :
    (∃ t, exec (.sendEnq 1) busy = .next t ∧ t.txq ≠ busy.txq) ∧
    ∃ t, exec (.txReady 2) busy = .next t ∧ t.txq ≠ busy.txq :=
  ⟨⟨_, rfl, by decide⟩, _, rfl, by decide⟩

theorem witness_MailboxWriters :
    (∃ t, exec (.rxByte 0x0A) midLine = .next t ∧ midLine.mbx.ready = false ∧ t.mbx.ready = true) ∧
    ∃ t, exec (.mbxRead 1) (withMail idle) = .next t ∧ (withMail idle).mbx.ready = true ∧ t.mbx.ready = false ∧
      t.last = .completed (.toCtx ⟨1, .ok, some [0x6D]⟩) :=
  ⟨⟨_, rfl, by decide, by decide⟩, _, rfl, by decide, by decide, rfl⟩

theorem witness_InFlightWriters :
    (∃ t, exec (.send 0 [1]) idle = .next t ∧ t.tx ≠ idle.tx) ∧
    ∃ t, exec (.txReady 1) busy = .next t ∧ t.tx ≠ busy.tx :=
  ⟨⟨_, rfl, by decide⟩, _, rfl, by decide⟩

theorem witness_OnlySelectedBufferIsWritten :
    ∃ t, exec (.rxByte 0x0A) midLine = .next t ∧ t.rx.widx ≠ midLine.rx.widx ∧ t.rx.buf1 ≠ midLine.rx.buf1 :=
  ⟨_, rfl, by decide, by decide⟩

theorem witness_AtMostOneResultPerStep :
    ∃ t, exec (.mbxRead 1) (withMail idle) = .next t ∧ t.replies = [⟨1, .ok, some [0x6D]⟩] := ⟨_, rfl, by decide⟩

theorem witness_OthersContinuationsKept :
    (Instr.send 0 [1]).issuer ≠ .ctx 1 ∧ ∃ t, exec (.send 0 [1]) busy = .next t ∧
      t.ctxs[1]? = some (ctxWith (.enq [0x46])) := ⟨by decide, _, rfl, by decide⟩

theorem witness_TurnedAwayChangesNothing :
    (∃ t, exec (.sigTake 1) busy = .next t ∧ t.last = .refused .wrongAgent) ∧
    (∃ t, exec (.sigTake 0) busy = .next t ∧ t.last = .notEnabled) ∧
    ∃ t, exec (.mbxRead 1) (withMail waiting) = .next t ∧ t.last = .notEnabled :=
  ⟨⟨_, rfl, by decide⟩, ⟨_, rfl, by decide⟩, _, rfl, by decide⟩

end Sys2Proof.Tests
end

section
/-!
PROOFS. The scope rules (00_scope.md): the outcomes of a step, blocked contexts, the parameters and the derived widths.
-/

namespace Sys2Proof.Machine

/-! ### How a step ends -/

/-- The step of an event completes and returns nothing: it writes the drainer, the assembler, the mailbox, the signals
and the outputs alone. -/
structure EventDone (s t : State) : Prop where
  ctxs : t.ctxs = s.ctxs
  refused : t.refused = s.refused
  params : t.params = s.params
  replies : t.replies = s.replies
  port : t.port = s.port
  last : t.last = .completed .nothing

theorem completeFrame_eventDone {s t : State} (h : completeFrame s = .next t) : EventDone s t := by
  rcases completeFrame_cases h with ⟨-, rfl⟩ | ⟨-, _, _, -, -, -, -, rfl⟩
  · rw [giveTxDone_eq]
    exact ⟨rfl, rfl, rfl, rfl, rfl, rfl⟩
  · rw [giveTxDone_eq]
    exact ⟨rfl, rfl, rfl, rfl, rfl, rfl⟩

theorem finalize_eventDone {s t : State} {n : Nat} (h : finalize s n = .next t) : EventDone s t := by
  rcases finalize_cases h with ⟨-, rfl⟩ | ⟨-, -, _, -, -, rfl⟩ | ⟨-, -, rfl⟩ <;>
    exact ⟨rfl, rfl, rfl, rfl, rfl, rfl⟩

/-- TX_READY is not enabled, or completes as an event does (R140). -/
theorem execTxReady_eventDone {k : BitVec 16} {s t : State} (h : execTxReady k s = .next t) :
    t = s.notEnabled ∨ EventDone s t := by
  rcases execTxReady_cases h with ⟨-, rfl⟩ | ⟨-, -, rfl⟩ | ⟨-, -, bs, -, ⟨-, rfl⟩ | ⟨-, hf⟩⟩
  · exact .inl rfl
  · exact .inr ⟨rfl, rfl, rfl, rfl, rfl, rfl⟩
  · exact .inr ⟨rfl, rfl, rfl, rfl, rfl, rfl⟩
  · obtain ⟨hc, hr, hp, hre, hpo, hl⟩ := completeFrame_eventDone hf
    exact .inr ⟨hc, hr, hp, hre, hpo, hl⟩

/-- RX_BYTE is not enabled, or completes as an event does (R160). -/
theorem execRxByte_eventDone {b : Byte} {s t : State} (h : execRxByte b s = .next t) :
    t = s.notEnabled ∨ EventDone s t := by
  have of_finalize {n : Nat} {r : RxAsm} (hf : finalize { s with rx := r } n = .next t) : EventDone s t := by
    obtain ⟨hc, hr, hp, hre, hpo, hl⟩ := finalize_eventDone hf
    exact ⟨hc, hr, hp, hre, hpo, hl⟩
  rcases execRxByte_cases h with ⟨-, rfl⟩ | ⟨-, -, ⟨-, hf⟩ | ⟨-, -, ⟨-, hf⟩ | ⟨-, rfl⟩⟩ | ⟨-, -, rfl⟩⟩
  · exact .inl rfl
  · exact .inr (of_finalize hf)
  · exact .inr (of_finalize hf)
  · exact .inr ⟨rfl, rfl, rfl, rfl, rfl, rfl⟩
  · exact .inr ⟨rfl, rfl, rfl, rfl, rfl, rfl⟩

/-- The ends of an operation performed in `s` (R13), with the state after it. -/
inductive EndsIn (s : State) : State → Prop
  /-- Refused. -/
  | refused (r : RefuseReason) : EndsIn s (s.refuse r)
  /-- Not enabled, the wait marks as they were. -/
  | notEnabled : EndsIn s s.notEnabled
  /-- Not enabled, and context `c` waits in `w` from now on. -/
  | blocked (c : Nat) (x : Ctx) (w : WaitOp) (hx : s.ctxs[c]? = some x) :
      EndsIn s (s.setCtx c { x with wait := some w }).notEnabled
  /-- Completed: the mark, the parameters and the port stay. -/
  | completed {t : State} (r : Returned) (last : t.last = .completed r) (refused : t.refused = s.refused)
      (params : t.params = s.params) (port : t.port = s.port) : EndsIn s t

theorem EventDone.endsIn {s t : State} (h : EventDone s t) : EndsIn s t :=
  .completed _ h.last h.refused h.params h.port

/-- Every operation that answers a next state ends in one of R13's ways. -/
theorem exec_endsIn {i : Instr} {s t : State} (h : exec i s = .next t) : EndsIn s t := by
  cases i with
  | reset =>
    rcases execReset_cases h with ⟨-, rfl⟩ | ⟨-, rfl⟩
    · exact .refused _
    · exact .completed _ rfl rfl rfl rfl
  | activate c r =>
    rcases execActivate_cases h with rfl | ⟨-, rfl⟩ | ⟨-, ⟨-, rfl⟩ | ⟨-, rfl⟩⟩
    · exact .refused _
    · exact .notEnabled
    · exact .completed _ rfl rfl rfl rfl
    · exact .completed _ rfl rfl rfl rfl
  | send c d =>
    rcases execSend_cases h with
      rfl | ⟨-, rfl⟩ | ⟨x, -, ⟨-, rfl⟩ | ⟨-, -, rfl⟩ | ⟨-, -, -, rfl⟩ | ⟨-, -, -, rfl⟩⟩
    · exact .refused _
    · exact .notEnabled
    · exact .refused _
    · exact .completed _ rfl rfl rfl rfl
    · exact .completed _ rfl rfl rfl rfl
    · exact .completed _ rfl rfl rfl rfl
  | sigTake c =>
    rcases execSigTake_cases h with rfl | ⟨-, rfl⟩ | ⟨x, hx, ⟨-, rfl⟩ | ⟨-, rfl⟩⟩
    · exact .refused _
    · exact .notEnabled
    · exact .blocked c x _ hx.1
    · exact .completed _ rfl rfl rfl rfl
  | mbxRead c =>
    rcases execMbxRead_cases h with rfl | ⟨-, rfl⟩ | ⟨-, ⟨-, rfl⟩ | ⟨-, d, -, rfl⟩⟩
    · exact .refused _
    · exact .notEnabled
    · exact .completed _ rfl rfl rfl rfl
    · exact .completed _ rfl rfl rfl rfl
  | txWait c w =>
    rcases execTxWait_cases h with
      ⟨-, rfl⟩ | ⟨-, rfl | ⟨-, rfl⟩ | ⟨x, hx, ⟨-, rfl⟩ | ⟨-, -, rfl⟩ | ⟨-, -, rfl⟩⟩⟩
    · exact .refused _
    · exact .refused _
    · exact .notEnabled
    · exact .completed _ rfl rfl rfl rfl
    · exact .blocked c x _ hx.1
    · exact .completed _ rfl rfl rfl rfl
  | txReady k =>
    rcases execTxReady_eventDone h with rfl | hd
    · exact .notEnabled
    · exact hd.endsIn
  | rxByte b =>
    rcases execRxByte_eventDone h with rfl | hd
    · exact .notEnabled
    · exact hd.endsIn
  | txqPush d =>
    obtain ⟨q, b, -, rfl⟩ := execTxqPush_cases h
    exact .completed _ rfl rfl rfl rfl
  | txqPop =>
    obtain ⟨q, r, -, rfl⟩ := execTxqPop_cases h
    exact .completed _ rfl rfl rfl rfl
  | sendEnq c =>
    rcases execSendEnq_cases h with rfl | ⟨x, d, -, -, q, b, -, rfl⟩
    · exact .refused _
    · exact .completed _ rfl rfl rfl rfl
  | sendIen c =>
    rcases execSendIen_cases h with rfl | ⟨x, -, -, rfl⟩
    · exact .refused _
    · exact .completed _ rfl rfl rfl rfl

/-- No operation writes the parameters or the port. -/
theorem EndsIn.params_port {s t : State} (h : EndsIn s t) : t.params = s.params ∧ t.port = s.port := by
  cases h with
  | refused r => exact ⟨rfl, rfl⟩
  | notEnabled => exact ⟨rfl, rfl⟩
  | blocked c x w hx => exact ⟨rfl, rfl⟩
  | completed r last refused params port => exact ⟨params, port⟩

/-- Writing a context that has the same continuation leaves the continuations as they are. -/
theorem map_cont_set {cs : List Ctx} {c : Nat} {x y : Ctx} (hx : cs[c]? = some x) (hy : y.cont = x.cont) :
    (cs.set c y).map Ctx.cont = cs.map Ctx.cont := by
  obtain ⟨hc, rfl⟩ := List.getElem?_eq_some_iff.mp hx
  rw [List.map_set, hy, ← List.getElem_map Ctx.cont (h := by simpa using hc), List.set_getElem_self]

/-- Settles O47: every end of an operation keeps both fields, and so does a refused word. -/
theorem stepKeepsParameters : Obligations.StepKeepsParameters := by
  intro s t h
  rcases step_cases h with ⟨hp, rfl⟩ | ⟨o, rest, hp, ⟨r, -, rfl⟩ | ⟨i, -, hi⟩⟩
  · simp [hp]
  · simp [hp]
  · obtain ⟨hpar, hport⟩ := (exec_endsIn hi).params_port
    exact ⟨hpar, by simp [hport, hp]⟩

/-- Settles O58, from the ends of an operation: only `refused` records a refusal, only `notEnabled` and `blocked` record
a step not enabled. -/
theorem turnedAwayChangesNothing : Obligations.TurnedAwayChangesNothing := by
  intro s t i h
  cases exec_endsIn h with
  | refused r =>
    refine ⟨fun r' hr => ?_, fun hn => by cases hn⟩
    cases hr
    rfl
  | notEnabled => exact ⟨fun r hr => (by cases hr), fun _ => ⟨s.ctxs, rfl, rfl⟩⟩
  | blocked c x w hx =>
    exact ⟨fun r hr => (by cases hr),
      fun _ => ⟨s.ctxs.set c { x with wait := some w }, map_cont_set hx rfl, rfl⟩⟩
  | completed r last _ _ _ => exact ⟨fun r' hr => by simp [last] at hr, fun hn => by simp [last] at hn⟩

/-- Settles O10: the refusing branch of the step. -/
theorem refusedWordSetsTheMarkOnly : Obligations.RefusedWordSetsTheMarkOnly := by
  intro s o rest r hp hd
  simp only [step, hp, hd, State.refuse]

/-! ### Blocked contexts -/

/-- The blocking operation an instruction is an attempt of, if it is one (R232). -/
def waitOpOf : Instr → Option WaitOp
  | .sigTake _ => some .sigTake
  | .txWait _ _ => some .txWait
  | .reset | .activate _ _ | .send _ _ | .mbxRead _ | .txReady _ | .rxByte _ | .txqPush _ | .txqPop | .sendEnq _
  | .sendIen _ => none

/-- An operation of a context blocked in another one is not enabled, the continuations excepted. -/
theorem exec_of_blockedElsewhere {i : Instr} {c : Nat} {s : State} (hb : BlockedElsewhere c (waitOpOf i) s)
    (hi : i.issuer = .ctx c) (hwf : i.wf s.params = true) (hne : i ≠ .sendEnq c) (hni : i ≠ .sendIen c) :
    exec i s = .next s.notEnabled := by
  cases i with
  | activate _ _ => cases hi; exact asIssuer_of_blocked hb
  | send _ _ => cases hi; exact asIssuer_of_blocked hb
  | sigTake _ => cases hi; exact asIssuer_of_blocked hb
  | mbxRead _ => cases hi; exact asIssuer_of_blocked hb
  | txWait _ _ =>
    cases hi
    have hd : s.params.hasTxDone = true := (Bool.and_eq_true_iff.mp hwf).1
    exact (if_neg (by simp [hd])).trans (asIssuer_of_blocked hb)
  | sendEnq _ => cases hi; exact absurd rfl hne
  | sendIen _ => cases hi; exact absurd rfl hni
  | reset | txReady _ | rxByte _ | txqPush _ | txqPop => cases hi

/-- An attempt of context `c` at the operation `w` is SIG_TAKE or TX_WAIT, as `w` says. -/
theorem eq_of_waitOpOf {i : Instr} {c : Nat} {w : WaitOp} (hi : i.issuer = .ctx c) (hw : waitOpOf i = some w) :
    (w = .sigTake ∧ i = .sigTake c) ∨ ∃ d, w = .txWait ∧ i = .txWait c d := by
  cases i with
  | sigTake _ => cases hi; cases hw; exact .inl ⟨rfl, rfl⟩
  | txWait _ d => cases hi; cases hw; exact .inr ⟨d, rfl, rfl⟩
  | reset | activate _ _ | send _ _ | mbxRead _ | txReady _ | rxByte _ | txqPush _ | txqPop | sendEnq _ | sendIen _ =>
    cases hw

/-- Settles O36: the context is blocked in another operation than the one it presents. -/
theorem blockedContextIssuesNothingElse : Obligations.BlockedContextIssuesNothingElse := by
  intro s c x w i hx hc hw hi hwf hne hni hsig htx
  have hother : waitOpOf i ≠ some w := fun h => by
    rcases eq_of_waitOpOf hi h with ⟨hs, h⟩ | ⟨d, ht, h⟩
    · exact hsig hs h
    · exact htx ht d h
  exact exec_of_blockedElsewhere ⟨x, w, hx, hc, hw, hother⟩ hi hwf hne hni

/-- The context list `cs` after operation `i` in state `s`: as before, or its issuer alone is written, which then had a
continuation pending or was blocked in nothing but `i` itself. -/
inductive CtxsAfter (i : Instr) (s : State) (cs : List Ctx) : Prop
  /-- No context is written. -/
  | kept (same : cs = s.ctxs)
  /-- The issuer `c`, which stood as `x`, is written. -/
  | written (c : Nat) (x y : Ctx) (issuer : i.issuer = .ctx c) (hx : s.ctxs[c]? = some x) (set : cs = s.ctxs.set c y)
      (turn : x.cont ≠ .none ∨ x.wait = none ∨ x.wait = waitOpOf i)

/-- An operation writes no context but its issuer, and the issuer only when it is its turn to perform it. -/
theorem exec_ctxsAfter {i : Instr} {s t : State} (h : exec i s = .next t) : CtxsAfter i s t.ctxs := by
  cases i with
  | reset => rcases execReset_cases h with ⟨-, rfl⟩ | ⟨-, rfl⟩ <;> exact .kept rfl
  | activate c r =>
    rcases execActivate_cases h with rfl | ⟨-, rfl⟩ | ⟨-, ⟨-, rfl⟩ | ⟨-, rfl⟩⟩ <;> exact .kept rfl
  | send c d =>
    rcases execSend_cases h with
      rfl | ⟨-, rfl⟩ | ⟨x, ⟨hx, -, hw⟩, ⟨-, rfl⟩ | ⟨-, -, rfl⟩ | ⟨-, -, -, rfl⟩ | ⟨-, -, -, rfl⟩⟩
    · exact .kept rfl
    · exact .kept rfl
    · exact .kept rfl
    · exact .kept rfl
    · exact .written c x _ rfl hx rfl (.inr hw)
    · exact .written c x _ rfl hx rfl (.inr hw)
  | sigTake c =>
    rcases execSigTake_cases h with rfl | ⟨-, rfl⟩ | ⟨x, ⟨hx, -, hw⟩, ⟨-, rfl⟩ | ⟨-, rfl⟩⟩
    · exact .kept rfl
    · exact .kept rfl
    · exact .written c x _ rfl hx rfl (.inr hw)
    · exact .written c x _ rfl hx rfl (.inr hw)
  | mbxRead c =>
    rcases execMbxRead_cases h with rfl | ⟨-, rfl⟩ | ⟨-, ⟨-, rfl⟩ | ⟨-, d, -, rfl⟩⟩ <;> exact .kept rfl
  | txWait c w =>
    rcases execTxWait_cases h with
      ⟨-, rfl⟩ | ⟨-, rfl | ⟨-, rfl⟩ | ⟨x, ⟨hx, -, hw⟩, ⟨-, rfl⟩ | ⟨-, -, rfl⟩ | ⟨-, -, rfl⟩⟩⟩
    · exact .kept rfl
    · exact .kept rfl
    · exact .kept rfl
    · exact .written c x _ rfl hx rfl (.inr hw)
    · exact .written c x _ rfl hx rfl (.inr hw)
    · exact .written c x _ rfl hx rfl (.inr hw)
  | txReady k =>
    rcases execTxReady_eventDone h with rfl | hd
    · exact .kept rfl
    · exact .kept hd.ctxs
  | rxByte b =>
    rcases execRxByte_eventDone h with rfl | hd
    · exact .kept rfl
    · exact .kept hd.ctxs
  | txqPush d =>
    obtain ⟨q, b, -, rfl⟩ := execTxqPush_cases h
    exact .kept rfl
  | txqPop =>
    obtain ⟨q, r, -, rfl⟩ := execTxqPop_cases h
    exact .kept rfl
  | sendEnq c =>
    rcases execSendEnq_cases h with rfl | ⟨x, d, hx, hc, q, b, -, rfl⟩
    · exact .kept rfl
    · exact .written c x _ rfl hx rfl (.inl (by simp [hc]))
  | sendIen c =>
    rcases execSendIen_cases h with rfl | ⟨x, hx, hc, rfl⟩
    · exact .kept rfl
    · exact .written c x _ rfl hx rfl (.inl (by simp [hc]))

/-- A waiting context is left as it is by everything but its own next attempt at the operation it waits in. -/
theorem exec_waiting_kept_or_own {i : Instr} {s t : State} {c : Nat} {x : Ctx} {w : WaitOp} (h : exec i s = .next t)
    (hx : s.ctxs[c]? = some x) (hc : x.cont = .none) (hw : x.wait = some w) :
    t.ctxs[c]? = some x ∨ (i.issuer = .ctx c ∧ waitOpOf i = some w) := by
  cases exec_ctxsAfter h with
  | kept same => exact .inl (same ▸ hx)
  | written c' x' y issuer hx' set turn =>
    by_cases hcc : c' = c
    · subst hcc
      obtain rfl : x' = x := Option.some.inj (hx'.symm.trans hx)
      have hown : x'.wait = waitOpOf i := by simpa [hc, hw] using turn
      exact .inr ⟨issuer, hown ▸ hw⟩
    · exact .inl (by rw [set, List.getElem?_set_ne hcc, hx])

/-- The context read back after it was written. -/
theorem getElem?_set_of_some {cs : List Ctx} {c : Nat} {x : Ctx} (y : Ctx) (hx : cs[c]? = some x) :
    (cs.set c y)[c]? = some y :=
  List.getElem?_set_self (List.getElem?_eq_some_iff.mp hx).1

/-- A context that waits in SIG_TAKE attempts it again: it stays as it is, or takes the given signal (R181). -/
theorem execSigTake_waiting {s t : State} {c : Nat} {x : Ctx} (h : execSigTake c s = .next t)
    (hx : s.ctxs[c]? = some x) (hw : x.wait = some .sigTake) :
    t.ctxs[c]? = some x ∨
    (t.ctxs[c]? = some { x with wait := none } ∧ s.rxSig ≠ 0 ∧ t.rxSig = 0 ∧
      t.replies = s.replies ++ [⟨c, .ok, none⟩]) := by
  rcases execSigTake_cases h with rfl | ⟨-, rfl⟩ | ⟨x', ⟨hx', -⟩, hr⟩
  · exact .inl hx
  · exact .inl hx
  · obtain rfl : x' = x := Option.some.inj (hx'.symm.trans hx)
    rcases hr with ⟨-, rfl⟩ | ⟨hs, rfl⟩
    · exact .inl (hw ▸ getElem?_set_of_some _ hx)
    · exact .inr ⟨getElem?_set_of_some _ hx, hs, rfl, rfl⟩

/-- A context that waits in TX_WAIT attempts it again: it stays as it is, takes its signal, or times out (R187). -/
theorem execTxWait_waiting {s t : State} {c : Nat} {x : Ctx} {d : Draw} (h : execTxWait c d s = .next t)
    (hx : s.ctxs[c]? = some x) (hw : x.wait = some .txWait) :
    t.ctxs[c]? = some x ∨
    (t.ctxs[c]? = some { x with wait := none } ∧
      ((d = .take ∧ s.txDoneSig ≠ 0 ∧ t.txDoneSig = 0 ∧ t.replies = s.replies ++ [⟨c, .ok, none⟩]) ∨
       (d = .expire ∧ t.txDoneSig = s.txDoneSig ∧ t.replies = s.replies ++ [⟨c, .timeout, none⟩]))) := by
  rcases execTxWait_cases h with ⟨-, rfl⟩ | ⟨-, rfl | ⟨-, rfl⟩ | ⟨x', ⟨hx', -⟩, hr⟩⟩
  · exact .inl hx
  · exact .inl hx
  · exact .inl hx
  · obtain rfl : x' = x := Option.some.inj (hx'.symm.trans hx)
    rcases hr with ⟨hd, rfl⟩ | ⟨-, -, rfl⟩ | ⟨hd, hs, rfl⟩
    · exact .inr ⟨getElem?_set_of_some _ hx, .inr ⟨hd, rfl, rfl⟩⟩
    · exact .inl (hw ▸ getElem?_set_of_some _ hx)
    · exact .inr ⟨getElem?_set_of_some _ hx, .inl ⟨hd, hs, rfl, rfl⟩⟩

/-- Settles O37: only the context's own next attempt can end the wait, and an attempt that ends it returns. -/
theorem waitLastsUntilItsOwnReturn : Obligations.WaitLastsUntilItsOwnReturn := by
  intro s t i c x w h hx hc hw
  rcases exec_waiting_kept_or_own h hx hc hw with hk | ⟨hi, hop⟩
  · exact .inl hk
  · rcases eq_of_waitOpOf hi hop with ⟨rfl, rfl⟩ | ⟨d, rfl, rfl⟩
    · rcases execSigTake_waiting h hx hw with hk | ⟨ht, hr⟩
      · exact .inl hk
      · exact .inr ⟨ht, .inl ⟨rfl, rfl, hr⟩⟩
    · rcases execTxWait_waiting h hx hw with hk | ⟨ht, ⟨rfl, hr⟩ | ⟨rfl, hr⟩⟩
      · exact .inl hk
      · exact .inr ⟨ht, .inr (.inl ⟨rfl, rfl, hr⟩)⟩
      · exact .inr ⟨ht, .inr (.inr ⟨rfl, rfl, hr⟩)⟩

/-! ### Derived widths -/

/-- `ceil(log2 m)` bits number `m` values (R9). -/
theorem le_two_pow_ceilLog2 (m : Nat) : m ≤ 2 ^ ceilLog2 m := by
  unfold ceilLog2
  split
  · simpa using ‹m ≤ 1›
  · have := Nat.lt_log2_self (n := m - 1)
    omega

/-- A value of at most `m` fits `ceil(log2 (m + 1))` bits, and any greater width. -/
theorem lt_two_pow_of_le {v m w : Nat} (h : v ≤ m) (hw : ceilLog2 (m + 1) ≤ w) : v < 2 ^ w :=
  calc v < m + 1 := Nat.lt_succ_of_le h
    _ ≤ 2 ^ ceilLog2 (m + 1) := le_two_pow_ceilLog2 _
    _ ≤ 2 ^ w := Nat.pow_le_pow_right (by decide) hw

/-- An index below N fits `IDXW` bits. -/
theorem lt_two_pow_idxw {p : Params} {v : Nat} (h : v < p.n) : v < 2 ^ p.idxw :=
  calc v < p.n := h
    _ ≤ 2 ^ ceilLog2 p.n := le_two_pow_ceilLog2 _
    _ ≤ 2 ^ p.idxw := Nat.pow_le_pow_right (by decide) (le_max_right _ _)

/-- Settles O45, from the invariant's bounds and the sizes of the widths. -/
theorem valuesFitTheirWidths : Obligations.ValuesFitTheirWidths := by
  intro s ⟨_, hq, htx, _, hrx, hmbx, _⟩
  have fitsTlw {v : Nat} (h : v ≤ s.params.txMax) : v < 2 ^ s.params.tlw := lt_two_pow_of_le h (le_max_right _ _)
  exact ⟨lt_two_pow_idxw hq.headLt, lt_two_pow_idxw hq.tailLt, lt_two_pow_of_le hq.countLe le_rfl,
    fitsTlw htx.lenLe, fitsTlw (htx.posLe.trans htx.lenLe), lt_two_pow_of_le hrx.posLt.le le_rfl,
    lt_two_pow_of_le hmbx.lenLe le_rfl, fun x hx => fitsTlw (hq.slotLen x hx)⟩

end Sys2Proof.Machine
end

section
/-!
PROOFS. The state rules (10_state.md): the invariant of the block is kept by every step, and each state element is written
by the operations the rules name alone.
-/

namespace Sys2Proof.Machine

/-! ### The invariant under writes of single elements -/

/-- The invariant reads neither the outputs nor the record of the steps. -/
theorem BlockInv.unread {s : State} (h : BlockInv s) {wire : List Byte} {events : List Event} {refused : Bool}
    {replies : List Reply} {last : StepEnd} {port : List Offer} :
    BlockInv { s with wireTx := wire, events, refused, replies, last, port } :=
  ⟨h.params, h.queue, { h.tx with }, { h.ctx with }, { h.rx with }, { h.mbx with }, { h.sig with }⟩

theorem BlockInv.withQueue {s : State} (h : BlockInv s) {q : TxQueue} (hq : QueueInv s.params q) :
    BlockInv { s with txq := q } :=
  ⟨h.params, hq, { h.tx with }, { h.ctx with }, { h.rx with }, { h.mbx with }, { h.sig with }⟩

theorem BlockInv.withSignals {s : State} (h : BlockInv s) {a b : Nat}
    (hs : SignalInv { s with rxSig := a, txDoneSig := b }) : BlockInv { s with rxSig := a, txDoneSig := b } :=
  ⟨h.params, h.queue, { h.tx with }, { h.ctx with }, { h.rx with }, { h.mbx with }, hs⟩

theorem BlockInv.withMailbox {s : State} (h : BlockInv s) {m : Mailbox} (hm : MbxInv { s with mbx := m }) :
    BlockInv { s with mbx := m } :=
  ⟨h.params, h.queue, { h.tx with }, { h.ctx with }, { h.rx with }, hm, { h.sig with }⟩

theorem BlockInv.withAssembler {s : State} (h : BlockInv s) {r : RxAsm} (hr : RxInv { s with rx := r }) :
    BlockInv { s with rx := r } :=
  ⟨h.params, h.queue, { h.tx with }, { h.ctx with }, hr, { h.mbx with }, { h.sig with }⟩

/-- No context has IEN pending (R52). -/
def State.NoIen (s : State) : Prop := ∀ x ∈ s.ctxs, x.cont ≠ .ien

/-- IEN is pending only while the drainer transmits with its interrupt source disabled (R52). -/
theorem CtxInv.noIen {s : State} (h : CtxInv s) (hw : ¬ (s.tx.busy = true ∧ s.txIe = false)) : s.NoIen :=
  fun x hx hc => hw (h.ienWindow x hx hc)

/-- With no IEN pending, the contexts do not restrict the in-flight frame and the enable. -/
theorem BlockInv.withTx {s : State} (h : BlockInv s) (hno : s.NoIen) {f : InFlight} {ie : Bool}
    (ht : TxInv { s with tx := f, txIe := ie }) : BlockInv { s with tx := f, txIe := ie } :=
  ⟨h.params, h.queue, ht, { h.ctx with ienWindow := fun x hx hc => absurd hc (hno x hx) }, { h.rx with },
    { h.mbx with }, { h.sig with }⟩

/-- What the invariant asks of each context by itself. -/
structure CtxOk (s : State) (x : Ctx) : Prop where
  enqFits : x.cont.fits s.params = true
  ienWindow : x.cont = .ien → s.tx.busy = true ∧ s.txIe = false
  contActive : x.cont ≠ .none → s.active = true
  oneOperation : x.wait ≠ none → x.cont = .none
  waitExists : x.wait = some .txWait → s.params.hasTxDone = true

theorem CtxInv.ctxOk {s : State} (h : CtxInv s) {x : Ctx} (hx : x ∈ s.ctxs) : CtxOk s x :=
  ⟨h.enqFits x hx, h.ienWindow x hx, h.contActive x hx, h.oneOperation x hx, h.waitExists x hx⟩

theorem CtxInv.of_ctxOk {s : State} (number : s.ctxs.length = s.params.nCtx) (oneIen : s.ctxs.countP Ctx.isIen ≤ 1)
    (hok : ∀ x ∈ s.ctxs, CtxOk s x) : CtxInv s :=
  ⟨number, fun x hx => (hok x hx).enqFits, oneIen, fun x hx => (hok x hx).ienWindow,
    fun x hx => (hok x hx).contActive, fun x hx => (hok x hx).oneOperation, fun x hx => (hok x hx).waitExists⟩

/-- A context without a continuation, in TX_WAIT only where there is one. -/
theorem CtxOk.of_idle {s : State} {x : Ctx} (hc : x.cont = .none)
    (hw : x.wait = some .txWait → s.params.hasTxDone = true) : CtxOk s x :=
  ⟨by simp [hc, Cont.fits], by simp [hc], by simp [hc], fun _ => hc, hw⟩

/-- The number of pending IENs after a context is written. -/
theorem countP_isIen_set {cs : List Ctx} {c : Nat} {x : Ctx} (y : Ctx) (hx : cs[c]? = some x) :
    (cs.set c y).countP Ctx.isIen =
      cs.countP Ctx.isIen - (if x.isIen then 1 else 0) + if y.isIen then 1 else 0 := by
  obtain ⟨hc, rfl⟩ := List.getElem?_eq_some_iff.mp hx
  exact List.countP_set hc

/-- No IEN is pending exactly when their number is 0. -/
theorem noIen_iff {s : State} : s.NoIen ↔ s.ctxs.countP Ctx.isIen = 0 := by
  simp [State.NoIen, List.countP_eq_zero, Ctx.isIen]

/-- A context is written within the invariant; IEN is written only where none is pending. -/
theorem BlockInv.setCtx {s : State} (h : BlockInv s) {c : Nat} {x y : Ctx} (hx : s.ctxs[c]? = some x)
    (hy : CtxOk s y) (hone : y.cont = .ien → s.NoIen) : BlockInv (s.setCtx c y) := by
  have hall : ∀ z ∈ s.ctxs.set c y, CtxOk s z := by
    intro z hz
    rcases List.mem_or_eq_of_mem_set hz with hz | rfl
    · exact h.ctx.ctxOk hz
    · exact hy
  have hcount : (s.ctxs.set c y).countP Ctx.isIen ≤ 1 := by
    rw [countP_isIen_set y hx]
    by_cases hc : y.cont = .ien
    · simp [noIen_iff.mp (hone hc), Ctx.isIen, hc]
    · rw [if_neg (c := y.isIen = true) (by simp [Ctx.isIen, hc])]
      exact (Nat.sub_le _ _).trans h.ctx.oneIen
  exact ⟨h.params, h.queue, { h.tx with },
    .of_ctxOk (List.length_set.trans h.ctx.number) hcount fun z hz => { hall z hz with }, { h.rx with }, { h.mbx with }, { h.sig with }⟩

/-- A context without a continuation waits in an operation that exists, or in none. -/
theorem BlockInv.setWait {s : State} (h : BlockInv s) {c : Nat} {x : Ctx} (hx : s.ctxs[c]? = some x)
    (hc : x.cont = .none) (w : Option WaitOp) (hw : w = some .txWait → s.params.hasTxDone = true) :
    BlockInv (s.setCtx c { x with wait := w }) :=
  h.setCtx hx (.of_idle hc hw) (by simp [hc])

/-- A context performs the rest of its SEND. -/
theorem BlockInv.clearCont {s : State} (h : BlockInv s) {c : Nat} {x : Ctx} (hx : s.ctxs[c]? = some x) :
    BlockInv (s.setCtx c { x with cont := .none }) :=
  h.setCtx hx (.of_idle rfl (h.ctx.waitExists x (List.mem_of_getElem? hx))) nofun

/-! ### Every operation keeps the invariant -/

/-- An unwritten storage (R51). -/
theorem sound_nil (cap : Nat) : Memory.Sound cap [] := ⟨.nil, nofun⟩

/-- The empty ring (R50). -/
theorem QueueInv.atReset {p : Params} (hp : p.wf) : QueueInv p (TxQueue.atReset p) := by
  have hn : 0 < p.n := hp.1
  have hslot (x : Slot) (hx : x ∈ List.replicate p.n Slot.atReset) : x = Slot.atReset := List.eq_of_mem_replicate hx
  exact ⟨List.length_replicate, hn, hn, Nat.zero_le _, (Nat.zero_mod _).symm,
    fun x hx => hslot x hx ▸ Nat.zero_le _, fun x hx => hslot x hx ▸ sound_nil _, fun i hi => by cases hi⟩

/-- An RX buffer holds at least one byte (R8). -/
theorem BlockInv.rxCap_pos {s : State} (h : BlockInv s) : 0 < s.params.rxCap := by
  obtain ⟨-, -, hcap, -, -⟩ := h.params
  exact hcap

/-- RESET gives the invariant's base case (R50); the contexts have no continuation (R201). -/
theorem BlockInv.relaunch {s : State} (h : BlockInv s) (hc : s.contPending = false) : BlockInv s.relaunch := by
  have hnone (x : Ctx) (hx : x ∈ s.ctxs) : x.cont = .none := by simpa using List.any_eq_false.mp hc x hx
  have hok (x : Ctx) (hx : x ∈ s.ctxs) : CtxOk s.relaunch x := .of_idle (hnone x hx) (h.ctx.waitExists x hx)
  exact
    { params := h.params
      queue := .atReset h.params
      tx := ⟨Nat.zero_le _, le_rfl, sound_nil _, nofun, nofun, nofun⟩
      ctx := .of_ctxOk h.ctx.number h.ctx.oneIen hok
      rx := ⟨h.rxCap_pos, sound_nil _, sound_nil _, nofun, rfl⟩
      mbx := ⟨Nat.zero_le _, sound_nil _, nofun, nofun⟩
      sig := ⟨Nat.zero_le _, Nat.zero_le _, fun _ => rfl⟩ }

theorem execReset_keepsInvariant {s t : State} (hs : BlockInv s) (h : execReset s = .next t) : BlockInv t := by
  rcases execReset_cases h with ⟨-, rfl⟩ | ⟨hc, rfl⟩
  · exact hs.unread
  · exact (hs.relaunch hc).unread

/-- Activation only widens what the invariant allows (R204). -/
theorem BlockInv.activated {s : State} (h : BlockInv s) : BlockInv { s with active := true, rxIe := true } :=
  ⟨h.params, h.queue, { h.tx with busyActive := fun _ => rfl }, { h.ctx with contActive := fun _ _ _ => rfl },
    { h.rx with ieActive := rfl }, { h.mbx with }, { h.sig with }⟩

theorem execActivate_keepsInvariant {c : Nat} {r : Bool} {s t : State} (hs : BlockInv s)
    (h : execActivate c r s = .next t) : BlockInv t := by
  rcases execActivate_cases h with rfl | ⟨-, rfl⟩ | ⟨-, ⟨-, rfl⟩ | ⟨-, rfl⟩⟩
  · exact hs.unread
  · exact hs.unread
  · exact hs.activated.unread
  · exact hs.unread

/-- A frame of at most TX_MAX bytes goes in flight while the block is active and no IEN is pending. -/
theorem BlockInv.loadTx {s : State} (h : BlockInv s) (hno : s.NoIen) (ha : s.active = true) {d : Frame}
    (hd : d.length ≤ s.params.txMax) : BlockInv (s.loadTx (s.tx.buf.writeRange 0 d) d.length) :=
  h.withTx hno ⟨hd, Nat.zero_le _, writeRange_sound h.tx.buf (by simpa using hd), fun _ => writeRange_filled _ _,
    fun _ => rfl, fun _ => ha⟩

theorem execSend_keepsInvariant {c : Nat} {d : Frame} {s t : State} (hs : BlockInv s)
    (h : execSend c d s = .next t) : BlockInv t := by
  rcases execSend_cases h with rfl | ⟨-, rfl⟩ |
    ⟨x, ⟨hx, -, hw⟩, ⟨-, rfl⟩ | ⟨-, -, rfl⟩ | ⟨ha, hd, hb, rfl⟩ | ⟨ha, hd, -, rfl⟩⟩
  · exact hs.unread
  · exact hs.unread
  · exact hs.unread
  · exact hs.unread
  · have hwait : x.wait = none := by simpa using hw
    have hie : s.txIe = false := by simpa [hb] using mt hs.tx.ieBusy
    have hno : s.NoIen := hs.ctx.noIen (by simp [hb])
    exact ((hs.loadTx hno ha hd).setCtx hx ⟨rfl, fun _ => ⟨rfl, hie⟩, fun _ => ha, by simp [hwait], by simp [hwait]⟩
      fun _ => hno).unread
  · have hwait : x.wait = none := by simpa using hw
    have henq : CtxOk s { x with cont := .enq d } :=
      ⟨by simpa [Cont.fits] using hd, nofun, fun _ => ha, by simp [hwait], by simp [hwait]⟩
    exact (hs.setCtx hx henq nofun).unread

theorem execSigTake_keepsInvariant {c : Nat} {s t : State} (hs : BlockInv s)
    (h : execSigTake c s = .next t) : BlockInv t := by
  rcases execSigTake_cases h with rfl | ⟨-, rfl⟩ | ⟨x, ⟨hx, hc, -⟩, ⟨-, rfl⟩ | ⟨-, rfl⟩⟩
  · exact hs.unread
  · exact hs.unread
  · exact (hs.setWait hx hc (some .sigTake) nofun).unread
  · have htake : BlockInv s.takeRx := hs.withSignals { hs.sig with rx := Nat.zero_le 1 }
    exact (htake.setWait hx hc none nofun).unread

theorem execMbxRead_keepsInvariant {c : Nat} {s t : State} (hs : BlockInv s)
    (h : execMbxRead c s = .next t) : BlockInv t := by
  rcases execMbxRead_cases h with rfl | ⟨-, rfl⟩ | ⟨-, ⟨-, rfl⟩ | ⟨-, d, -, rfl⟩⟩
  · exact hs.unread
  · exact hs.unread
  · exact hs.unread
  · have hread : MbxInv { s with mbx := { s.mbx with ready := false } } := ⟨hs.mbx.lenLe, hs.mbx.data, nofun, nofun⟩
    exact (hs.withMailbox hread).unread

theorem execTxWait_keepsInvariant {c : Nat} {w : Draw} {s t : State} (hs : BlockInv s)
    (h : execTxWait c w s = .next t) : BlockInv t := by
  rcases execTxWait_cases h with
    ⟨-, rfl⟩ | ⟨hd, rfl | ⟨-, rfl⟩ | ⟨x, ⟨hx, hc, -⟩, ⟨-, rfl⟩ | ⟨-, -, rfl⟩ | ⟨-, -, rfl⟩⟩⟩
  · exact hs.unread
  · exact hs.unread
  · exact hs.unread
  · exact (hs.setWait hx hc none nofun).unread
  · exact (hs.setWait hx hc (some .txWait) fun _ => hd).unread
  · have htake : BlockInv s.takeTxDone :=
      hs.withSignals { hs.sig with txDone := Nat.zero_le 1, noTxDone := fun _ => rfl }
    exact (htake.setWait hx hc none nofun).unread

/-- A push that answers keeps the queue's invariant (R100). -/
theorem QueueInv.of_push {p : Params} {q q' : TxQueue} {d : Frame} {b : Bool} (h : QueueInv p q)
    (hp : q.push p d = .ok (q', b)) : QueueInv p q' := by
  rcases push_cases hp with ⟨-, rfl, -⟩ | ⟨-, hd, hc, slot, hs, rfl⟩
  · exact h
  · rw [nextIndex_eq_mod h.headLt]
    exact h.push hd (lt_of_le_of_ne h.countLe hc) hs

/-- The queue's invariant after a pop, in the form in which the pop writes `tail`. -/
theorem QueueInv.popNext {p : Params} {q : TxQueue} (h : QueueInv p q) (hc : q.count ≠ 0) :
    QueueInv p { q with tail := nextIndex p q.tail, count := q.count - 1 } := by
  rw [nextIndex_eq_mod h.tailLt]
  exact h.pop hc

/-- A pop that answers keeps the queue's invariant (R101). -/
theorem QueueInv.of_pop {p : Params} {q q' : TxQueue} {r : Option Frame} (h : QueueInv p q)
    (hp : q.pop p = .ok (q', r)) : QueueInv p q' := by
  rcases pop_cases hp with ⟨-, rfl, -⟩ | ⟨hc, _, _, -, -, -, -, rfl⟩
  · exact h
  · exact h.popNext hc

theorem execTxqPush_keepsInvariant {d : Frame} {s t : State} (hs : BlockInv s)
    (h : execTxqPush d s = .next t) : BlockInv t := by
  obtain ⟨q, b, hq, rfl⟩ := execTxqPush_cases h
  exact (hs.withQueue (hs.queue.of_push hq)).unread

theorem execTxqPop_keepsInvariant {s t : State} (hs : BlockInv s) (h : execTxqPop s = .next t) : BlockInv t := by
  obtain ⟨q, r, hq, rfl⟩ := execTxqPop_cases h
  exact (hs.withQueue (hs.queue.of_pop hq)).unread

theorem execSendEnq_keepsInvariant {c : Nat} {s t : State} (hs : BlockInv s)
    (h : execSendEnq c s = .next t) : BlockInv t := by
  rcases execSendEnq_cases h with rfl | ⟨x, d, hx, -, q, b, hq, rfl⟩
  · exact hs.unread
  · have hpush : BlockInv { s with txq := q } := hs.withQueue (hs.queue.of_push hq)
    exact (hpush.clearCont hx).unread

/-- The one pending IEN is performed, so none is left (R52). -/
theorem CtxInv.noIen_setCtx {s : State} (h : CtxInv s) {c : Nat} {x y : Ctx} (hx : s.ctxs[c]? = some x)
    (hxi : x.cont = .ien) (hy : y.cont = .none) : (s.setCtx c y).NoIen := by
  rw [noIen_iff, setCtx_ctxs, countP_isIen_set y hx]
  simpa [Ctx.isIen, hxi, hy, Nat.sub_eq_zero_iff_le] using h.oneIen

theorem execSendIen_keepsInvariant {c : Nat} {s t : State} (hs : BlockInv s)
    (h : execSendIen c s = .next t) : BlockInv t := by
  rcases execSendIen_cases h with rfl | ⟨x, hx, hxi, rfl⟩
  · exact hs.unread
  · have hmem : x ∈ s.ctxs := List.mem_of_getElem? hx
    have hbusy : s.tx.busy = true := (hs.ctx.ienWindow x hmem hxi).1
    exact ((hs.clearCont hx).withTx (hs.ctx.noIen_setCtx hx hxi rfl) (f := s.tx) (ie := true)
      { hs.tx with ieBusy := fun _ => hbusy }).unread

/-- The completion give keeps the signals' range (R188). -/
theorem BlockInv.giveTxDone {s : State} (h : BlockInv s) : BlockInv s.giveTxDone := by
  unfold State.giveTxDone
  split
  · rename_i hd
    exact h.withSignals { h.sig with txDone := Nat.min_le_right _ _, noTxDone := fun hn => by simp [hd] at hn }
  · exact h

theorem BlockInv.goIdle {s : State} (h : BlockInv s) (hno : s.NoIen) : BlockInv s.goIdle := by
  have hidle : TxInv s.goIdle := { h.tx with filled := nofun, ieBusy := nofun, busyActive := nofun }
  exact h.withTx hno hidle

/-- A complete frame is followed by Idle or by the oldest queued frame (R140). -/
theorem completeFrame_keepsInvariant {s t : State} (hs : BlockInv s) (hb : s.tx.busy = true) (hie : s.txIe = true)
    (h : completeFrame s = .next t) : BlockInv t := by
  have hno : s.NoIen := hs.ctx.noIen (by simp [hie])
  have hgive := hs.giveTxDone
  rcases completeFrame_cases h with ⟨-, rfl⟩ | ⟨hc, slot, d, -, -, -, hd, rfl⟩
  · rw [giveTxDone_eq] at hgive ⊢
    exact (hgive.goIdle hno).unread
  · rw [giveTxDone_eq] at hgive ⊢
    exact ((hgive.withQueue (hs.queue.popNext hc)).loadTx hno (hs.tx.busyActive hb) hd).unread

/-- The drainer hands over at most the rest of the frame (R140). -/
theorem BlockInv.advance {s : State} (h : BlockInv s) (hie : s.txIe = true) {bs : List Byte} (k : BitVec 16) :
    BlockInv { s.emitWire bs with tx := { s.tx with pos := s.tx.pos + s.tx.accept k } } := by
  have hpos : s.tx.pos + s.tx.accept k ≤ s.tx.len := by
    have hle := h.tx.posLe
    unfold InFlight.accept
    omega
  have htx : TxInv { s with tx := { s.tx with pos := s.tx.pos + s.tx.accept k } } := { h.tx with posLe := hpos }
  exact (h.withTx (h.ctx.noIen (by simp [hie])) htx).unread

theorem execTxReady_keepsInvariant {k : BitVec 16} {s t : State} (hs : BlockInv s)
    (h : execTxReady k s = .next t) : BlockInv t := by
  rcases execTxReady_cases h with ⟨-, rfl⟩ | ⟨hie, hb, -⟩ | ⟨hie, hb, bs, -, ⟨-, rfl⟩ | ⟨-, hf⟩⟩
  · exact hs.unread
  · simp [hs.tx.ieBusy hie] at hb
  · exact (hs.advance hie k).unread
  · exact completeFrame_keepsInvariant (hs.advance hie k) hb hie hf

/-- The bytes of the frame are in the buffer after the byte at its cursor is written (R160). -/
theorem write_filled_succ {m : Memory} {n : Nat} (h : m.filled n) (b : Byte) : (m.write n b).filled (n + 1) := by
  intro j hj
  rw [read_write]
  split
  · rfl
  · exact h j (by omega)

/-- A byte is stored at the cursor of the buffer being filled (R160). -/
theorem BlockInv.storeRx {s : State} (h : BlockInv s) (b : Byte) :
    BlockInv { s with rx := s.rx.setCurrent (s.rx.current.write s.rx.pos b) } := by
  have hpos := h.rx.posLt
  have hfilled := h.rx.filled
  refine h.withAssembler ⟨by simpa using hpos, ?_, ?_, ?_, h.rx.ieActive⟩
  · unfold RxAsm.setCurrent RxAsm.current
    cases s.rx.widx
    · exact write_sound h.rx.buf0 hpos b
    · exact h.rx.buf0
  · unfold RxAsm.setCurrent RxAsm.current
    cases s.rx.widx
    · exact h.rx.buf1
    · exact write_sound h.rx.buf1 hpos b
  · simp only [setCurrent_current, setCurrent_pos]
    exact fun j hj => write_filled_succ hfilled b j (by omega)

/-- The cursor moves within the bytes written (R160). -/
theorem BlockInv.moveCursor {s : State} (h : BlockInv s) {pos : Nat} (hpos : pos < s.params.rxCap)
    (hf : s.rx.current.filled pos) : BlockInv { s with rx := { s.rx with pos } } :=
  h.withAssembler { h.rx with posLt := hpos, filled := hf }

/-- The toggle leaves the assembler at a frame start (R167). -/
theorem BlockInv.toggleRx {s : State} (h : BlockInv s) : BlockInv s.toggleRx :=
  h.withAssembler ⟨h.rxCap_pos, h.rx.buf0, h.rx.buf1, nofun, h.rx.ieActive⟩

/-- FINALIZE of a payload that a mailbox may hold (R160, R162). -/
theorem finalize_keepsInvariant {n : Nat} {s t : State} (hs : BlockInv s) (hn : n ≤ s.params.rxMaxp)
    (h : finalize s n = .next t) : BlockInv t := by
  rcases finalize_cases h with ⟨-, rfl⟩ | ⟨hpos, -, bs, hbs, hcap, rfl⟩ | ⟨-, -, rfl⟩
  · exact hs.toggleRx.unread
  · obtain ⟨rfl, -⟩ := (readRange_eq_some_iff _ _ _ _).mp hbs
    have hmbx : MbxInv { s with mbx := { data := s.mbx.data.writeRange 0 bs, len := bs.length, ready := true } } :=
      ⟨hcap, writeRange_sound hs.mbx.data (by simpa using hcap), fun _ => ⟨hpos, hn⟩, fun _ => writeRange_filled _ _⟩
    have hgive := (hs.withMailbox hmbx).withSignals (a := give s.rxSig) (b := s.txDoneSig)
      { hs.sig with rx := Nat.min_le_right _ _ }
    exact hgive.toggleRx.unread
  · exact hs.toggleRx.unread

/-- A payload that a terminator ends, one byte short of the capacity at most, fits the mailbox (R39). -/
theorem le_rxMaxp_of_lt {p : Params} {n : Nat} (h : n < p.rxCap) : n ≤ p.rxMaxp := by
  unfold Params.rxMaxp
  split <;> omega

theorem execRxByte_keepsInvariant {b : Byte} {s t : State} (hs : BlockInv s)
    (h : execRxByte b s = .next t) : BlockInv t := by
  rcases execRxByte_cases h with ⟨-, rfl⟩ | ⟨-, hpos, hr⟩
  · exact hs.unread
  have hstored := hs.storeRx b
  rcases hr with ⟨-, hf⟩ | ⟨-, hcap, ⟨hfull, hf⟩ | ⟨-, rfl⟩⟩ | ⟨-, hcap, rfl⟩
  · exact finalize_keepsInvariant hstored (le_rxMaxp_of_lt hpos) hf
  · exact finalize_keepsInvariant hstored (by simp [Params.rxMaxp, hfull, hcap]) hf
  · exact hstored.toggleRx.unread
  · have hfilled : (s.rx.setCurrent (s.rx.current.write s.rx.pos b)).current.filled (s.rx.pos + 1) :=
      (setCurrent_current _ _).symm ▸ write_filled_succ hs.rx.filled b
    exact (hstored.moveCursor (lt_of_le_of_ne hpos hcap) hfilled).unread

theorem exec_keepsInvariant {i : Instr} {s t : State} (hs : BlockInv s) (h : exec i s = .next t) : BlockInv t := by
  cases i with
  | reset => exact execReset_keepsInvariant hs h
  | activate c r => exact execActivate_keepsInvariant hs h
  | send c d => exact execSend_keepsInvariant hs h
  | sigTake c => exact execSigTake_keepsInvariant hs h
  | mbxRead c => exact execMbxRead_keepsInvariant hs h
  | txWait c w => exact execTxWait_keepsInvariant hs h
  | txReady k => exact execTxReady_keepsInvariant hs h
  | rxByte b => exact execRxByte_keepsInvariant hs h
  | txqPush d => exact execTxqPush_keepsInvariant hs h
  | txqPop => exact execTxqPop_keepsInvariant hs h
  | sendEnq c => exact execSendEnq_keepsInvariant hs h
  | sendIen c => exact execSendIen_keepsInvariant hs h

/-- Settles O42: the port and the refused mark are outside the invariant, and every operation keeps it. -/
theorem stepKeepsInvariant : Obligations.StepKeepsInvariant := by
  intro s t hs h
  rcases step_cases h with ⟨-, rfl⟩ | ⟨o, rest, -, ⟨r, -, rfl⟩ | ⟨i, -, hi⟩⟩
  · exact hs
  · exact hs.unread
  · exact exec_keepsInvariant (s := { s with port := rest }) hs.unread hi

/-! ### The ring's indices -/

/-- Settles O21: `head` is `count` slots beyond `tail` mod N, and `count` is at most N. -/
theorem indicesMeetIffEmptyOrFull : Obligations.IndicesMeetIffEmptyOrFull := by
  intro p q h
  have htail := h.tailLt
  have hcount := h.countLe
  rw [h.headEq]
  by_cases hw : q.tail + q.count < p.n
  · rw [Nat.mod_eq_of_lt hw]
    omega
  · rw [Nat.mod_eq_sub_mod (by omega), Nat.mod_eq_of_lt (by omega)]
    omega

/-! ### The refused mark and the contexts -/

/-- No end of an operation clears the refused mark, and a refusal sets it. -/
theorem EndsIn.refused_sticky {s t : State} (h : EndsIn s t) :
    (s.refused = true → t.refused = true) ∧ (∀ r, t.last = .refused r → t.refused = true) := by
  cases h with
  | refused r => exact ⟨fun _ => rfl, fun _ _ => rfl⟩
  | notEnabled => exact ⟨id, fun _ hr => by cases hr⟩
  | blocked c x w hx => exact ⟨id, fun _ hr => by cases hr⟩
  | completed r last refused _ _ => exact ⟨refused.trans, fun _ hr => by simp [last] at hr⟩

/-- Settles O46, from the ends of an operation and of a refused word. -/
theorem refusedMarkIsSticky : Obligations.RefusedMarkIsSticky := by
  refine ⟨rfl, fun _ => rfl, fun s t h => ?_⟩
  rcases step_cases h with ⟨hp, rfl⟩ | ⟨o, rest, -, ⟨r, -, rfl⟩ | ⟨i, -, hi⟩⟩
  · exact ⟨id, fun r hne => absurd hp hne⟩
  · exact ⟨fun _ => rfl, fun _ _ _ => rfl⟩
  · obtain ⟨hkeep, hset⟩ := (exec_endsIn hi).refused_sticky
    exact ⟨hkeep, fun r _ => hset r⟩

/-- Settles O57: an operation writes no context but its issuer. -/
theorem othersContinuationsKept : Obligations.OthersContinuationsKept := by
  intro s t i c h hne
  cases exec_ctxsAfter h with
  | kept same => rw [same]
  | written c' x y issuer _ set _ =>
    have hcc : c' ≠ c := fun e => hne (e ▸ issuer)
    rw [set, List.getElem?_set_ne hcc]

/-! ### Which operation writes which element -/

/-- `s` with the contexts and the record of `t`, which an operation of any context may write. -/
def State.withRecordOf (s t : State) : State :=
  { s with ctxs := t.ctxs, refused := t.refused, replies := t.replies, last := t.last }

/-- `s` with what operation `i` may write taken from `t`: the contexts, the record, and of R21's elements those that the
rules of `i` name. RESET writes all but the contexts and the model's own record. -/
def State.writtenBy (i : Instr) (s t : State) : State :=
  let u := s.withRecordOf t
  match i with
  | .reset => { t with ctxs := s.ctxs, params := s.params, replies := s.replies, port := s.port }
  | .activate _ _ => { u with rxIe := t.rxIe, active := t.active }
  | .send _ _ => { u with tx := t.tx }
  | .sigTake _ => { u with rxSig := t.rxSig }
  | .mbxRead _ => { u with mbx := t.mbx }
  | .txWait _ _ => { u with txDoneSig := t.txDoneSig }
  | .txReady _ => { u with txq := t.txq, tx := t.tx, txIe := t.txIe, txDoneSig := t.txDoneSig, wireTx := t.wireTx }
  | .rxByte _ => { u with rx := t.rx, mbx := t.mbx, rxSig := t.rxSig, events := t.events }
  | .txqPush _ => { u with txq := t.txq }
  | .txqPop => { u with txq := t.txq }
  | .sendEnq _ => { u with txq := t.txq }
  | .sendIen _ => { u with txIe := t.txIe }

theorem completeFrame_writtenBy (k : BitVec 16) {s t : State} (h : completeFrame s = .next t) :
    t = s.writtenBy (.txReady k) t := by
  rcases completeFrame_cases h with ⟨-, rfl⟩ | ⟨-, _, _, -, -, -, -, rfl⟩ <;> rw [giveTxDone_eq] <;> rfl

theorem finalize_writtenBy (b : Byte) {n : Nat} {s t : State} (h : finalize s n = .next t) :
    t = s.writtenBy (.rxByte b) t := by
  rcases finalize_cases h with ⟨-, rfl⟩ | ⟨-, -, _, -, -, rfl⟩ | ⟨-, -, rfl⟩ <;> rfl

/-- An operation writes what `State.writtenBy` lists for it, and nothing else. -/
theorem exec_writtenBy {i : Instr} {s t : State} (h : exec i s = .next t) : t = s.writtenBy i t := by
  cases i with
  | reset => rcases execReset_cases h with ⟨-, rfl⟩ | ⟨-, rfl⟩ <;> rfl
  | activate c r =>
    rcases execActivate_cases h with rfl | ⟨-, rfl⟩ | ⟨-, ⟨-, rfl⟩ | ⟨-, rfl⟩⟩ <;> rfl
  | send c d =>
    rcases execSend_cases h with
      rfl | ⟨-, rfl⟩ | ⟨x, -, ⟨-, rfl⟩ | ⟨-, -, rfl⟩ | ⟨-, -, -, rfl⟩ | ⟨-, -, -, rfl⟩⟩ <;> rfl
  | sigTake c =>
    rcases execSigTake_cases h with rfl | ⟨-, rfl⟩ | ⟨x, -, ⟨-, rfl⟩ | ⟨-, rfl⟩⟩ <;> rfl
  | mbxRead c =>
    rcases execMbxRead_cases h with rfl | ⟨-, rfl⟩ | ⟨-, ⟨-, rfl⟩ | ⟨-, d, -, rfl⟩⟩ <;> rfl
  | txWait c w =>
    rcases execTxWait_cases h with
      ⟨-, rfl⟩ | ⟨-, rfl | ⟨-, rfl⟩ | ⟨x, -, ⟨-, rfl⟩ | ⟨-, -, rfl⟩ | ⟨-, -, rfl⟩⟩⟩ <;> rfl
  | txReady k =>
    rcases execTxReady_cases h with ⟨-, rfl⟩ | ⟨-, -, rfl⟩ | ⟨-, -, bs, -, ⟨-, rfl⟩ | ⟨-, hf⟩⟩
    · rfl
    · rfl
    · rfl
    · exact (completeFrame_writtenBy k hf).trans rfl
  | rxByte b =>
    rcases execRxByte_cases h with ⟨-, rfl⟩ | ⟨-, -, ⟨-, hf⟩ | ⟨-, -, ⟨-, hf⟩ | ⟨-, rfl⟩⟩ | ⟨-, -, rfl⟩⟩
    · rfl
    · exact (finalize_writtenBy b hf).trans rfl
    · exact (finalize_writtenBy b hf).trans rfl
    · rfl
    · rfl
  | txqPush d =>
    obtain ⟨q, b, -, rfl⟩ := execTxqPush_cases h
    rfl
  | txqPop =>
    obtain ⟨q, r, -, rfl⟩ := execTxqPop_cases h
    rfl
  | sendEnq c =>
    rcases execSendEnq_cases h with rfl | ⟨x, d, -, -, q, b, -, rfl⟩ <;> rfl
  | sendIen c =>
    rcases execSendIen_cases h with rfl | ⟨x, -, -, rfl⟩ <;> rfl

/-! ### The wire -/

/-- Only TX_READY and RESET write the wire (R45). -/
theorem exec_wireTx_kept {i : Instr} {s t : State} (h : exec i s = .next t) (hr : i ≠ .reset)
    (hk : ∀ k, i ≠ .txReady k) : t.wireTx = s.wireTx := by
  have hw := congrArg State.wireTx (exec_writtenBy h)
  cases i with
  | reset => exact absurd rfl hr
  | txReady k => exact absurd rfl (hk k)
  | activate | send | sigTake | mbxRead | txWait | rxByte | txqPush | txqPop | sendEnq | sendIen =>
    exact hw

/-- The end of a frame hands nothing over (R140). -/
theorem completeFrame_wireTx {s t : State} (h : completeFrame s = .next t) : t.wireTx = s.wireTx := by
  rcases completeFrame_cases h with ⟨-, rfl⟩ | ⟨-, _, _, -, -, -, -, rfl⟩ <;> rw [giveTxDone_eq] <;> rfl

/-- TX_READY appends the bytes it accepts to the wire (R140). -/
theorem execTxReady_wireTx_prefix {k : BitVec 16} {s t : State} (h : execTxReady k s = .next t) :
    s.wireTx <+: t.wireTx := by
  rcases execTxReady_cases h with ⟨-, rfl⟩ | ⟨-, -, rfl⟩ | ⟨-, -, bs, -, ⟨-, rfl⟩ | ⟨-, hf⟩⟩
  · exact List.prefix_rfl
  · exact List.prefix_rfl
  · exact List.prefix_append _ _
  · rw [completeFrame_wireTx hf]
    exact List.prefix_append _ _

/-- Settles O48: TX_READY appends, and the writers of the wire are TX_READY and RESET. -/
theorem onlyTxReadyWritesTheWire : Obligations.OnlyTxReadyWritesTheWire := by
  intro s t i hr h
  refine ⟨?_, exec_wireTx_kept h hr⟩
  by_cases hk : ∃ k, i = .txReady k
  · obtain ⟨k, rfl⟩ := hk
    exact execTxReady_wireTx_prefix h
  · rw [exec_wireTx_kept h hr (not_exists.mp hk)]

/-! ### The enables and activation -/

/-- TX_READY is not enabled while `tx_ie = 0` (R226). -/
theorem execTxReady_of_disabled {s : State} (k : BitVec 16) (hs : s.txIe = false) :
    execTxReady k s = .next s.notEnabled := if_pos hs

/-- RX_BYTE is not enabled while `rx_ie = 0` (R227). -/
theorem execRxByte_of_disabled {s : State} (b : Byte) (hs : s.rxIe = false) :
    execRxByte b s = .next s.notEnabled := if_pos hs

/-- Only SEND.IEN, TX_READY and RESET write `tx_ie` (R32). -/
theorem exec_txIe_writer {i : Instr} {s t : State} (h : exec i s = .next t) (hne : t.txIe ≠ s.txIe) :
    (∃ c, i = .sendIen c) ∨ (∃ k, i = .txReady k) ∨ i = .reset := by
  have hw := congrArg State.txIe (exec_writtenBy h)
  cases i with
  | reset => exact .inr (.inr rfl)
  | txReady k => exact .inr (.inl ⟨k, rfl⟩)
  | sendIen c => exact .inl ⟨c, rfl⟩
  | activate | send | sigTake | mbxRead | txWait | rxByte | txqPush | txqPop | sendEnq =>
    exact absurd hw hne

/-- SEND.IEN never clears `tx_ie` (R122). -/
theorem execSendIen_txIe {c : Nat} {s t : State} (h : execSendIen c s = .next t) (hs : s.txIe = true) :
    t.txIe = true := by
  rcases execSendIen_cases h with rfl | ⟨x, -, -, rfl⟩
  · exact hs
  · rfl

/-- RESET never sets `tx_ie` (R200). -/
theorem execReset_txIe {s t : State} (h : execReset s = .next t) (hs : s.txIe = false) : t.txIe = false := by
  rcases execReset_cases h with ⟨-, rfl⟩ | ⟨-, rfl⟩
  · exact hs
  · rfl

/-- Settles O50: of the three writers of `tx_ie`, TX_READY is not enabled while it is 0, RESET does not set it and
SEND.IEN does not clear it. -/
theorem txEnableWriters : Obligations.TxEnableWriters := by
  intro s t i h
  have hoff (hs : s.txIe = false) (k : BitVec 16) (hi : i = .txReady k) : t = s.notEnabled := by
    subst hi
    exact Host.Outcome.next.inj (h.symm.trans (execTxReady_of_disabled k hs))
  refine ⟨fun hs ht => ?_, fun hs ht => ?_, hoff⟩
  · rcases exec_txIe_writer h (by simp [hs, ht]) with hi | ⟨k, hi⟩ | rfl
    · exact hi
    · simp [hoff hs k hi, hs] at ht
    · simp [execReset_txIe h hs] at ht
  · rcases exec_txIe_writer h (by simp [hs, ht]) with ⟨c, rfl⟩ | hi | hi
    · simp [execSendIen_txIe h hs] at ht
    · exact .inl hi
    · exact .inr hi

/-- ACTIVATE leaves `rx_ie` and `active` as they are, or its operand is 1 and it leaves both 1 (R203). -/
theorem execActivate_enables {c : Nat} {r : Bool} {s t : State} (h : execActivate c r s = .next t) :
    (t.rxIe = s.rxIe ∧ t.active = s.active) ∨ (r = true ∧ t.rxIe = true ∧ t.active = true) := by
  rcases execActivate_cases h with rfl | ⟨-, rfl⟩ | ⟨-, ⟨hr, rfl⟩ | ⟨-, rfl⟩⟩
  · exact .inl ⟨rfl, rfl⟩
  · exact .inl ⟨rfl, rfl⟩
  · exact .inr ⟨hr, rfl, rfl⟩
  · exact .inl ⟨rfl, rfl⟩

/-- RESET leaves `rx_ie` and `active` as they are, being refused, or leaves both 0 (R200, R201). -/
theorem execReset_enables {s t : State} (h : execReset s = .next t) :
    (t.rxIe = s.rxIe ∧ t.active = s.active) ∨ (t.rxIe = false ∧ t.active = false) := by
  rcases execReset_cases h with ⟨-, rfl⟩ | ⟨-, rfl⟩
  · exact .inl ⟨rfl, rfl⟩
  · exact .inr ⟨rfl, rfl⟩

/-- Every operation leaves `rx_ie` and `active` as they are, or is an ACTIVATE that sets both or a RESET that clears
both (R33, R205). -/
theorem exec_enables {i : Instr} {s t : State} (h : exec i s = .next t) :
    (t.rxIe = s.rxIe ∧ t.active = s.active) ∨
    (∃ c, i = .activate c true ∧ t.rxIe = true ∧ t.active = true) ∨
    (i = .reset ∧ t.rxIe = false ∧ t.active = false) := by
  have hie := congrArg State.rxIe (exec_writtenBy h)
  have ha := congrArg State.active (exec_writtenBy h)
  cases i with
  | reset => exact (execReset_enables h).imp_right fun hc => .inr ⟨rfl, hc⟩
  | activate c r => exact (execActivate_enables h).imp_right fun ⟨hr, hset⟩ => .inl ⟨c, hr ▸ rfl, hset⟩
  | send | sigTake | mbxRead | txWait | txReady | rxByte | txqPush | txqPop | sendEnq | sendIen =>
    exact .inl ⟨hie, ha⟩

/-- Settles O51, from what an operation does to the two elements. -/
theorem activationWriters : Obligations.ActivationWriters := by
  intro s t i h
  refine ⟨fun hne => ?_, fun hs b hi => ?_⟩
  · rcases exec_enables h with ⟨hie, ha⟩ | hset
    · exact absurd hne (by simp [hie, ha])
    · exact hset
  · subst hi
    exact Host.Outcome.next.inj (h.symm.trans (execRxByte_of_disabled b hs))

/-! ### The assembler, the mailbox and the events -/

/-- What an RX_BYTE reports (R160): nothing, a frame in the mailbox, or one event. -/
inductive RxReport (s t : State) : Prop
  /-- Not enabled, a byte stored, or an empty line. -/
  | quiet (mbx : t.mbx = s.mbx) (events : t.events = s.events)
  /-- A frame is delivered into the empty mailbox (R162). -/
  | delivered (empty : s.mbx.ready = false) (ready : t.mbx.ready = true) (events : t.events = s.events)
  /-- A frame of `n` bytes is dropped, the mailbox being ready (R162). -/
  | dropped (n : Nat) (pos : 1 ≤ n) (ready : s.mbx.ready = true) (mbx : t.mbx = s.mbx)
      (events : t.events = s.events ++ [.rxDrop n])
  /-- The buffer is full (R164). -/
  | overflow (mbx : t.mbx = s.mbx) (events : t.events = s.events ++ [.rxOverflow])

/-- A finalization reports as RX_BYTE does, whatever the assembler was written to. -/
theorem finalize_report {s t : State} {r : RxAsm} {n : Nat} (h : finalize { s with rx := r } n = .next t) :
    RxReport s t := by
  rcases finalize_cases h with ⟨-, rfl⟩ | ⟨-, he, _, -, -, rfl⟩ | ⟨hn, hr, rfl⟩
  · exact .quiet rfl rfl
  · exact .delivered he rfl rfl
  · exact .dropped n hn hr rfl rfl

theorem execRxByte_report {b : Byte} {s t : State} (h : execRxByte b s = .next t) : RxReport s t := by
  rcases execRxByte_cases h with ⟨-, rfl⟩ | ⟨-, -, ⟨-, hf⟩ | ⟨-, -, ⟨-, hf⟩ | ⟨-, rfl⟩⟩ | ⟨-, -, rfl⟩⟩
  · exact .quiet rfl rfl
  · exact finalize_report hf
  · exact finalize_report hf
  · exact .overflow rfl rfl
  · exact .quiet rfl rfl

/-- Only RX_BYTE and RESET write the events (R46). -/
theorem exec_events_kept {i : Instr} {s t : State} (h : exec i s = .next t) (hr : i ≠ .reset)
    (hb : ∀ b, i ≠ .rxByte b) : t.events = s.events := by
  have hw := congrArg State.events (exec_writtenBy h)
  cases i with
  | reset => exact absurd rfl hr
  | rxByte b => exact absurd rfl (hb b)
  | activate | send | sigTake | mbxRead | txWait | txReady | txqPush | txqPop | sendEnq | sendIen =>
    exact hw

/-- Settles O49, from the writers of the events and what an RX_BYTE reports. -/
theorem onlyRxByteEmitsEvents : Obligations.OnlyRxByteEmitsEvents := by
  intro s t i hr h
  refine ⟨exec_events_kept h hr, ?_⟩
  by_cases hb : ∃ b, i = .rxByte b
  · obtain ⟨b, rfl⟩ := hb
    cases execRxByte_report h with
    | quiet _ events => exact .inl events
    | delivered _ _ events => exact .inl events
    | dropped n pos ready _ events => exact .inr (.inr ⟨n, pos, ready, events⟩)
    | overflow _ events => exact .inr (.inl events)
  · exact .inl (exec_events_kept h hr (not_exists.mp hb))

/-- RX_BYTE leaves the mailbox as it is, or fills it, empty before, with a frame (R162). -/
theorem RxReport.mbx_cases {s t : State} (h : RxReport s t) :
    t.mbx = s.mbx ∨ (s.mbx.ready = false ∧ t.mbx.ready = true) := by
  cases h with
  | quiet mbx _ => exact .inl mbx
  | delivered empty ready _ => exact .inr ⟨empty, ready⟩
  | dropped _ _ _ mbx _ => exact .inl mbx
  | overflow mbx _ => exact .inl mbx

/-- MBX_READ writes `ready` alone, to 0, and leaves it 0 when it completes (R182). -/
theorem execMbxRead_mbx {c : Nat} {s t : State} (h : execMbxRead c s = .next t) :
    (t.mbx = s.mbx ∨ t.mbx = { s.mbx with ready := false }) ∧ (∀ r, t.last = .completed r → t.mbx.ready = false) := by
  rcases execMbxRead_cases h with rfl | ⟨-, rfl⟩ | ⟨-, ⟨hr, rfl⟩ | ⟨-, d, -, rfl⟩⟩
  · exact ⟨.inl rfl, fun _ hl => by cases hl⟩
  · exact ⟨.inl rfl, fun _ hl => by cases hl⟩
  · exact ⟨.inl rfl, fun _ _ => hr⟩
  · exact ⟨.inr rfl, fun _ _ => rfl⟩

/-- Every operation but RESET leaves the mailbox as it is, or is an RX_BYTE that fills an empty one, or an MBX_READ that
clears `ready` (R40). -/
theorem exec_mbx_cases {i : Instr} {s t : State} (h : exec i s = .next t) (hr : i ≠ .reset) :
    t.mbx = s.mbx ∨ ((∃ b, i = .rxByte b) ∧ s.mbx.ready = false ∧ t.mbx.ready = true) ∨
    ((∃ c, i = .mbxRead c) ∧ t.mbx = { s.mbx with ready := false }) := by
  have hw := congrArg State.mbx (exec_writtenBy h)
  cases i with
  | reset => exact absurd rfl hr
  | rxByte b => exact (execRxByte_report h).mbx_cases.imp_right fun hf => .inl ⟨⟨b, rfl⟩, hf⟩
  | mbxRead c => exact (execMbxRead_mbx h).1.imp_right fun hm => .inr ⟨⟨c, rfl⟩, hm⟩
  | activate | send | sigTake | txWait | txReady | txqPush | txqPop | sendEnq | sendIen => exact .inl hw

/-- Settles O53, by what an operation does to the mailbox. -/
theorem mailboxWriters : Obligations.MailboxWriters := by
  intro s t i hr h
  have hread (c : Nat) (r : Returned) (hi : i = .mbxRead c) (hl : t.last = .completed r) : t.mbx.ready = false := by
    subst hi
    exact (execMbxRead_mbx h).2 r hl
  rcases exec_mbx_cases h hr with hm | ⟨hb, he, hf⟩ | ⟨hc, hm⟩
  · exact ⟨by simp [hm], fun hs ht => by simp [hm, hs] at ht, hread⟩
  · exact ⟨fun _ => ⟨hb, he, hf⟩, fun hs => by simp [he] at hs, hread⟩
  · exact ⟨by simp [hm], fun _ _ => hc, hread⟩

/-- A finalization toggles the assembler in every case (R167). -/
theorem finalize_rx {s t : State} {n : Nat} (h : finalize s n = .next t) : t.rx = s.rx.toggle := by
  rcases finalize_cases h with ⟨-, rfl⟩ | ⟨-, -, _, -, -, rfl⟩ | ⟨-, -, rfl⟩ <;> rfl

/-- The buffer that `widx` does not select, by its number (R36). -/
theorem setCurrent_unselected (r : RxAsm) (m : Memory) :
    if r.widx then (r.setCurrent m).buf0 = r.buf0 else (r.setCurrent m).buf1 = r.buf1 := by
  unfold RxAsm.setCurrent
  split <;> rfl

/-- RX_BYTE leaves the assembler as it is, or writes the selected buffer and then moves the cursor or toggles (R160). -/
theorem execRxByte_rx {b : Byte} {s t : State} (h : execRxByte b s = .next t) :
    t.rx = s.rx ∨ ∃ m, t.rx = (s.rx.setCurrent m).toggle ∨ ∃ pos, t.rx = { s.rx.setCurrent m with pos } := by
  rcases execRxByte_cases h with ⟨-, rfl⟩ | ⟨-, -, ⟨-, hf⟩ | ⟨-, -, ⟨-, hf⟩ | ⟨-, rfl⟩⟩ | ⟨-, -, rfl⟩⟩
  · exact .inl rfl
  · exact .inr ⟨_, .inl (finalize_rx hf)⟩
  · exact .inr ⟨_, .inl (finalize_rx hf)⟩
  · exact .inr ⟨_, .inl rfl⟩
  · exact .inr ⟨_, .inr ⟨_, rfl⟩⟩

/-- Only RX_BYTE and RESET write the assembler (R36). -/
theorem exec_rx_kept {i : Instr} {s t : State} (h : exec i s = .next t) (hr : i ≠ .reset)
    (hb : ∀ b, i ≠ .rxByte b) : t.rx = s.rx := by
  have hw := congrArg State.rx (exec_writtenBy h)
  cases i with
  | reset => exact absurd rfl hr
  | rxByte b => exact absurd rfl (hb b)
  | activate | send | sigTake | mbxRead | txWait | txReady | txqPush | txqPop | sendEnq | sendIen =>
    exact hw

/-- Settles O55, from the writers of the assembler and what an RX_BYTE writes of it. -/
theorem onlySelectedBufferIsWritten : Obligations.OnlySelectedBufferIsWritten := by
  intro s t i hr h
  have hcases : t.rx = s.rx ∨
      ∃ m, t.rx = (s.rx.setCurrent m).toggle ∨ ∃ pos, t.rx = { s.rx.setCurrent m with pos } := by
    by_cases hb : ∃ b, i = .rxByte b
    · obtain ⟨b, rfl⟩ := hb
      exact execRxByte_rx h
    · exact .inl (exec_rx_kept h hr (not_exists.mp hb))
  refine ⟨exec_rx_kept h hr, ?_⟩
  rcases hcases with hk | ⟨m, ht | ⟨pos, hp⟩⟩
  · rw [hk]
    exact ⟨by split <;> rfl, fun hne => absurd rfl hne⟩
  · rw [ht]
    exact ⟨setCurrent_unselected _ _, fun _ => rfl⟩
  · rw [hp]
    exact ⟨setCurrent_unselected _ _, fun hne => absurd (setCurrent_widx _ _) hne⟩

end Sys2Proof.Machine
end

section
/-!
PROOFS. The memory rules (20_memory.md): no index a rule uses leaves its storage and no byte it reads is unwritten, every
storage keeps its canonical form, and the in-flight frame is written by SEND and TX_READY in turn.
-/

namespace Sys2Proof.Machine

/-! ### From the invariant every operation answers a next state -/

/-- A host operation answers a next state when it does for every context that may issue it. -/
theorem asIssuer_answers {c : Nat} {op : Option WaitOp} {s : State} {k : Ctx → Res}
    (hk : ∀ x, MayIssue c op s x → ∃ t, k x = .next t) : ∃ t, asIssuer c op s k = .next t := by
  rcases asIssuer_cases (Eq.refl (asIssuer c op s k)) with ⟨-, h⟩ | ⟨-, h⟩ | ⟨x, hx, h⟩
  · exact ⟨_, h⟩
  · exact ⟨_, h⟩
  · exact h ▸ hk x hx

/-- The slot that a push writes exists and holds the frame (R100, R62). -/
theorem QueueInv.push_answers {p : Params} {q : TxQueue} (h : QueueInv p q) (d : Frame) :
    ∃ q' b, q.push p d = .ok (q', b) := by
  by_cases hr : p.txMax < d.length ∨ q.count = p.n
  · exact ⟨q, false, push_of_refused hr⟩
  · obtain ⟨hd, hc⟩ := not_or.mp hr
    obtain ⟨slot, -, hp⟩ := push_of_room h (not_lt.mp hd) (lt_of_le_of_ne h.countLe hc)
    exact ⟨_, _, hp⟩

/-- The slot that a pop reads exists and its frame is written (R101, R51); a frame popped is no longer than TX_MAX. -/
theorem QueueInv.pop_answers {p : Params} {q : TxQueue} (h : QueueInv p q) :
    q.pop p = .ok (q, none) ∨ ∃ q' d, q.pop p = .ok (q', some d) ∧ d.length ≤ p.txMax := by
  by_cases hc : q.count = 0
  · exact .inl (if_pos hc)
  · obtain ⟨slot, d, -, hlen, -, hd, -, hp, -⟩ := pop_of_held h hc
    exact .inr ⟨_, d, hp, hd.trans_le hlen⟩

/-- The end of a frame finds room for the next one (R140). -/
theorem completeFrame_answers {s : State} (h : QueueInv s.params s.txq) : ∃ t, completeFrame s = .next t := by
  rcases h.pop_answers with hp | ⟨q, d, hp, hd⟩
  · simp only [completeFrame, giveTxDone_eq, hp]
    exact ⟨_, rfl⟩
  · have hstore : storeBytes s.params.txMax s.tx.buf 0 d = .ok (s.tx.buf.writeRange 0 d) :=
      storeBytes_of_le (by simpa using hd)
    simp only [completeFrame, giveTxDone_eq, hp, hstore]
    exact ⟨_, rfl⟩

/-- The bytes accepted are bytes of the frame (R140). -/
theorem pos_add_accept_le {f : InFlight} (h : f.pos ≤ f.len) (k : BitVec 16) : f.pos + f.accept k ≤ f.len := by
  unfold InFlight.accept
  omega

theorem execTxReady_answers {s : State} (hs : BlockInv s) (k : BitVec 16) : ∃ t, execTxReady k s = .next t := by
  cases hie : s.txIe with
  | false => exact ⟨_, execTxReady_of_disabled k hie⟩
  | true =>
    have hbusy : s.tx.busy = true := hs.tx.ieBusy hie
    have hle : s.tx.pos + s.tx.accept k ≤ s.tx.len := pos_add_accept_le hs.tx.posLe k
    obtain ⟨bs, hbs, -⟩ := loadBytes_of_filled (hle.trans hs.tx.lenLe)
      fun j hj => hs.tx.filled hbusy j (hj.trans_le hle)
    simp only [execTxReady, hie, hbusy, hbs, reduceCtorEq, if_false]
    split
    · exact completeFrame_answers hs.queue
    · exact ⟨_, rfl⟩

/-- A payload whose bytes are written fits the mailbox's storage (R162). -/
theorem deliver_answers {s : State} {n : Nat} (hn : n ≤ s.params.rxCap) (hf : s.rx.current.filled n) :
    ∃ t, deliver s n = .ok t := by
  obtain ⟨bs, hbs, -, hlen, -⟩ := loadBytes_of_filled (cap := s.params.rxCap) (i := 0) (n := n)
    (by simpa using hn) (by simpa using hf)
  have hstore : storeBytes s.params.rxCap s.mbx.data 0 bs = .ok (s.mbx.data.writeRange 0 bs) :=
    storeBytes_of_le (by simpa [hlen] using hn)
  simp only [deliver, hbs, hstore]
  exact ⟨_, rfl⟩

theorem finalize_answers {s : State} {n : Nat} (hn : n ≤ s.params.rxCap) (hf : s.rx.current.filled n) :
    ∃ t, finalize s n = .next t := by
  unfold finalize
  split
  · split
    · obtain ⟨t, ht⟩ := deliver_answers hn hf
      simp only [ht]
      exact ⟨_, rfl⟩
    · exact ⟨_, rfl⟩
  · exact ⟨_, rfl⟩

/-- The cursor is inside the buffer, and the bytes before and at it are written (R37, R166). -/
theorem execRxByte_answers {s : State} (hs : BlockInv s) (b : Byte) : ∃ t, execRxByte b s = .next t := by
  cases hie : s.rxIe with
  | false => exact ⟨_, execRxByte_of_disabled b hie⟩
  | true =>
    have hpos : s.rx.pos < s.params.rxCap := hs.rx.posLt
    have hfilled : (s.rx.setCurrent (s.rx.current.write s.rx.pos b)).current.filled (s.rx.pos + 1) :=
      (setCurrent_current _ _).symm ▸ write_filled_succ hs.rx.filled b
    simp only [execRxByte, hie, not_le.mpr hpos, reduceCtorEq, if_false, Nat.add_sub_cancel]
    split
    · exact finalize_answers hpos.le fun j hj => hfilled j (hj.trans (Nat.lt_succ_self _))
    · split
      · split
        · exact finalize_answers hpos hfilled
        · exact ⟨_, rfl⟩
      · exact ⟨_, rfl⟩

theorem execReset_answers (s : State) : ∃ t, execReset s = .next t := by
  unfold execReset
  split
  · exact ⟨_, rfl⟩
  · exact ⟨_, rfl⟩

theorem execActivate_answers (c : Nat) (r : Bool) (s : State) : ∃ t, execActivate c r s = .next t :=
  asIssuer_answers fun _ _ => by
    split
    · exact ⟨_, rfl⟩
    · exact ⟨_, rfl⟩

/-- SEND checks the size before it writes the in-flight buffer, so no invariant is needed (R120). -/
theorem execSend_answers (c : Nat) (d : Frame) (s : State) : ∃ t, execSend c d s = .next t :=
  asIssuer_answers fun _ _ => by
    split
    · exact ⟨_, rfl⟩
    split
    · exact ⟨_, rfl⟩
    next hlen =>
      rw [storeBytes_of_le (by simpa using hlen)]
      split
      · exact ⟨_, rfl⟩
      · exact ⟨_, rfl⟩

theorem execSendEnq_answers {s : State} (hs : BlockInv s) (c : Nat) : ∃ t, execSendEnq c s = .next t := by
  unfold execSendEnq
  split
  · exact ⟨_, rfl⟩
  split
  · exact ⟨_, rfl⟩
  · exact ⟨_, rfl⟩
  next d _ =>
    obtain ⟨q, b, hp⟩ := hs.queue.push_answers d
    simp only [hp]
    exact ⟨_, rfl⟩

theorem execSendIen_answers (c : Nat) (s : State) : ∃ t, execSendIen c s = .next t := by
  unfold execSendIen
  split
  · exact ⟨_, rfl⟩
  split
  · exact ⟨_, rfl⟩
  · exact ⟨_, rfl⟩
  · exact ⟨_, rfl⟩

theorem execSigTake_answers (c : Nat) (s : State) : ∃ t, execSigTake c s = .next t :=
  asIssuer_answers fun _ _ => by
    split
    · exact ⟨_, rfl⟩
    · exact ⟨_, rfl⟩

/-- A ready mailbox holds its frame's bytes (R39). -/
theorem execMbxRead_answers {s : State} (hs : BlockInv s) (c : Nat) : ∃ t, execMbxRead c s = .next t :=
  asIssuer_answers fun _ _ => by
    split
    next hr =>
      obtain ⟨d, hd, -⟩ := loadBytes_of_filled (cap := s.params.rxCap) (i := 0) (n := s.mbx.len)
        (by simpa using hs.mbx.lenLe) (by simpa using hs.mbx.filled hr)
      simp only [hd]
      exact ⟨_, rfl⟩
    · exact ⟨_, rfl⟩

theorem execTxWait_answers (c : Nat) (w : Draw) (s : State) : ∃ t, execTxWait c w s = .next t := by
  unfold execTxWait
  split
  · exact ⟨_, rfl⟩
  refine asIssuer_answers fun _ _ => ?_
  cases w with
  | expire => exact ⟨_, rfl⟩
  | take =>
    dsimp only
    split
    · exact ⟨_, rfl⟩
    · exact ⟨_, rfl⟩

theorem execTxqPush_answers {s : State} (hs : BlockInv s) (d : Frame) : ∃ t, execTxqPush d s = .next t := by
  obtain ⟨q, b, hp⟩ := hs.queue.push_answers d
  simp only [execTxqPush, hp]
  exact ⟨_, rfl⟩

theorem execTxqPop_answers {s : State} (hs : BlockInv s) : ∃ t, execTxqPop s = .next t := by
  rcases hs.queue.pop_answers with hp | ⟨q, d, hp, -⟩
  · simp only [execTxqPop, hp]
    exact ⟨_, rfl⟩
  · simp only [execTxqPop, hp]
    exact ⟨_, rfl⟩

/-- From the invariant no operation faults, the internal ones included (R62). -/
theorem exec_answers {s : State} (hs : BlockInv s) (i : Instr) : ∃ t, exec i s = .next t := by
  cases i with
  | reset => exact execReset_answers s
  | activate c r => exact execActivate_answers c r s
  | send c d => exact execSend_answers c d s
  | sigTake c => exact execSigTake_answers c s
  | mbxRead c => exact execMbxRead_answers hs c
  | txWait c w => exact execTxWait_answers c w s
  | txReady k => exact execTxReady_answers hs k
  | rxByte b => exact execRxByte_answers hs b
  | txqPush d => exact execTxqPush_answers hs d
  | txqPop => exact execTxqPop_answers hs
  | sendEnq c => exact execSendEnq_answers hs c
  | sendIen c => exact execSendIen_answers c s

/-- Settles O43: an empty port and a refused word answer by themselves, and from the invariant every operation answers. -/
theorem invariantStateStepsOn : Obligations.InvariantStateStepsOn := by
  intro s hs
  unfold step
  split
  · exact ⟨_, rfl⟩
  split
  · exact ⟨_, rfl⟩
  · exact exec_answers (s := { s with port := _ }) hs.unread _

/-! ### The canonical form of the storages -/

/-- A push that answers keeps the slots canonical (R100). -/
theorem push_slots_wf {p : Params} {q q' : TxQueue} {d : Frame} {b : Bool} (hq : ∀ x ∈ q.slots, x.data.wf)
    (hp : q.push p d = .ok (q', b)) : ∀ x ∈ q'.slots, x.data.wf := by
  rcases push_cases hp with ⟨-, rfl, -⟩ | ⟨-, -, -, slot, hs, rfl⟩
  · exact hq
  · intro x hx
    rcases List.mem_or_eq_of_mem_set hx with hx | rfl
    · exact hq x hx
    · exact writeRange_wf d (hq slot (List.mem_of_getElem? hs)) 0

/-- A pop that answers writes no slot (R101). -/
theorem pop_slots {p : Params} {q q' : TxQueue} {r : Option Frame} (hp : q.pop p = .ok (q', r)) :
    q'.slots = q.slots := by
  rcases pop_cases hp with ⟨-, rfl, -⟩ | ⟨-, _, _, -, -, -, -, rfl⟩
  · rfl
  · rfl

/-- After RESET every storage is empty (R51). -/
theorem State.MemWf.relaunch (s : State) : s.relaunch.MemWf :=
  ⟨fun x hx => (List.eq_of_mem_replicate hx : x = Slot.atReset) ▸ .nil, .nil, .nil, .nil, .nil⟩

/-- The assembler's buffers stay canonical when a canonical storage replaces the selected one. -/
theorem State.MemWf.setCurrent {s : State} (h : s.MemWf) {m : Memory} (hm : m.wf) :
    State.MemWf { s with rx := s.rx.setCurrent m } := by
  unfold RxAsm.setCurrent
  split
  · exact { h with rx1 := hm }
  · exact { h with rx0 := hm }

/-- The buffer being filled is canonical. -/
theorem State.MemWf.current {s : State} (h : s.MemWf) : s.rx.current.wf := by
  unfold RxAsm.current
  split
  · exact h.rx1
  · exact h.rx0

theorem completeFrame_keepsMemWf {s t : State} (hs : s.MemWf) (h : completeFrame s = .next t) : t.MemWf := by
  rcases completeFrame_cases h with ⟨-, rfl⟩ | ⟨-, _, d, -, -, -, -, rfl⟩
  · rw [giveTxDone_eq]
    exact { hs with }
  · rw [giveTxDone_eq]
    exact { hs with tx := writeRange_wf d hs.tx 0 }

theorem finalize_keepsMemWf {n : Nat} {s t : State} (hs : s.MemWf) (h : finalize s n = .next t) : t.MemWf := by
  rcases finalize_cases h with ⟨-, rfl⟩ | ⟨-, -, bs, -, -, rfl⟩ | ⟨-, -, rfl⟩
  · exact { hs with }
  · exact { hs with mbx := writeRange_wf bs hs.mbx 0 }
  · exact { hs with }

theorem execReset_keepsMemWf {s t : State} (hs : s.MemWf) (h : execReset s = .next t) : t.MemWf := by
  rcases execReset_cases h with ⟨-, rfl⟩ | ⟨-, rfl⟩
  · exact { hs with }
  · exact { State.MemWf.relaunch s with }

theorem execSend_keepsMemWf {c : Nat} {d : Frame} {s t : State} (hs : s.MemWf) (h : execSend c d s = .next t) :
    t.MemWf := by
  rcases execSend_cases h with
    rfl | ⟨-, rfl⟩ | ⟨x, -, ⟨-, rfl⟩ | ⟨-, -, rfl⟩ | ⟨-, -, -, rfl⟩ | ⟨-, -, -, rfl⟩⟩
  · exact { hs with }
  · exact { hs with }
  · exact { hs with }
  · exact { hs with }
  · exact { hs with tx := writeRange_wf d hs.tx 0 }
  · exact { hs with }

theorem execSendEnq_keepsMemWf {c : Nat} {s t : State} (hs : s.MemWf) (h : execSendEnq c s = .next t) : t.MemWf := by
  rcases execSendEnq_cases h with rfl | ⟨x, d, -, -, q, b, hp, rfl⟩
  · exact { hs with }
  · exact { hs with slots := push_slots_wf hs.slots hp }

theorem execMbxRead_keepsMemWf {c : Nat} {s t : State} (hs : s.MemWf) (h : execMbxRead c s = .next t) : t.MemWf := by
  rcases execMbxRead_cases h with rfl | ⟨-, rfl⟩ | ⟨-, ⟨-, rfl⟩ | ⟨-, d, -, rfl⟩⟩
  · exact { hs with }
  · exact { hs with }
  · exact { hs with }
  · exact { hs with }

theorem execTxReady_keepsMemWf {k : BitVec 16} {s t : State} (hs : s.MemWf) (h : execTxReady k s = .next t) :
    t.MemWf := by
  rcases execTxReady_cases h with ⟨-, rfl⟩ | ⟨-, -, rfl⟩ | ⟨-, -, bs, -, ⟨-, rfl⟩ | ⟨-, hf⟩⟩
  · exact { hs with }
  · exact { hs with }
  · exact { hs with }
  · refine completeFrame_keepsMemWf ?_ hf
    exact { hs with }

theorem execRxByte_keepsMemWf {b : Byte} {s t : State} (hs : s.MemWf) (h : execRxByte b s = .next t) : t.MemWf := by
  have hstored : State.MemWf { s with rx := s.rx.setCurrent (s.rx.current.write s.rx.pos b) } :=
    hs.setCurrent (write_wf hs.current _ _)
  rcases execRxByte_cases h with ⟨-, rfl⟩ | ⟨-, -, ⟨-, hf⟩ | ⟨-, -, ⟨-, hf⟩ | ⟨-, rfl⟩⟩ | ⟨-, -, rfl⟩⟩
  · exact { hs with }
  · exact finalize_keepsMemWf hstored hf
  · exact finalize_keepsMemWf hstored hf
  · exact { hstored with }
  · exact { hstored with }

/-- The operations that write a storage write it in canonical form; the others write none. -/
theorem exec_keepsMemWf {i : Instr} {s t : State} (hs : s.MemWf) (h : exec i s = .next t) : t.MemWf := by
  cases i with
  | reset => exact execReset_keepsMemWf hs h
  | send c d => exact execSend_keepsMemWf hs h
  | mbxRead c => exact execMbxRead_keepsMemWf hs h
  | txReady k => exact execTxReady_keepsMemWf hs h
  | rxByte b => exact execRxByte_keepsMemWf hs h
  | txqPush d =>
    obtain ⟨q, b, hp, rfl⟩ := execTxqPush_cases h
    exact { hs with slots := push_slots_wf hs.slots hp }
  | txqPop =>
    obtain ⟨q, r, hp, rfl⟩ := execTxqPop_cases h
    exact { hs with slots := (pop_slots hp).symm ▸ hs.slots }
  | sendEnq c => exact execSendEnq_keepsMemWf hs h
  | activate | sigTake | txWait | sendIen =>
    rw [exec_writtenBy h]
    exact { hs with }

/-- Settles O44: the port and the refused mark are no storage, and every operation keeps the form. -/
theorem stepKeepsStorageCanonical : Obligations.StepKeepsStorageCanonical := by
  intro s t hs h
  rcases step_cases h with ⟨-, rfl⟩ | ⟨o, rest, -, ⟨r, -, rfl⟩ | ⟨i, -, hi⟩⟩
  · exact hs
  · exact { hs with }
  · exact exec_keepsMemWf (s := { s with port := rest }) { hs with } hi

/-! ### The writers of the in-flight frame -/

/-- SEND leaves the in-flight frame as it is, or finds the drainer Idle and starts a frame (R120). -/
theorem execSend_tx {c : Nat} {d : Frame} {s t : State} (h : execSend c d s = .next t) :
    t.tx = s.tx ∨ (s.tx.busy = false ∧ t.tx.busy = true ∧ t.tx.pos = 0) := by
  rcases execSend_cases h with
    rfl | ⟨-, rfl⟩ | ⟨x, -, ⟨-, rfl⟩ | ⟨-, -, rfl⟩ | ⟨-, -, hb, rfl⟩ | ⟨-, -, -, rfl⟩⟩
  · exact .inl rfl
  · exact .inl rfl
  · exact .inl rfl
  · exact .inl rfl
  · exact .inr ⟨hb, rfl, rfl⟩
  · exact .inl rfl

/-- TX_READY leaves the in-flight frame as it is, or the drainer transmits (R140, R144, R226). -/
theorem execTxReady_tx {k : BitVec 16} {s t : State} (h : execTxReady k s = .next t) :
    t.tx = s.tx ∨ s.tx.busy = true := by
  rcases execTxReady_cases h with ⟨-, rfl⟩ | ⟨-, -, rfl⟩ | ⟨-, hb, -⟩
  · exact .inl rfl
  · exact .inl rfl
  · exact .inr hb

/-- Settles O54: SEND, TX_READY and RESET are the writers, and the first two write as their rules say. -/
theorem inFlightWriters : Obligations.InFlightWriters := by
  intro s t i h hne
  have hw := congrArg State.tx (exec_writtenBy h)
  cases i with
  | reset => exact .inr (.inr rfl)
  | send c d => exact .inl ⟨⟨c, d, rfl⟩, (execSend_tx h).resolve_left hne⟩
  | txReady k => exact .inr (.inl ⟨⟨k, rfl⟩, (execTxReady_tx h).resolve_left hne⟩)
  | activate | sigTake | mbxRead | txWait | rxByte | txqPush | txqPop | sendEnq | sendIen => exact absurd hw hne

end Sys2Proof.Machine
end

section
/-!
PROOFS. The encoding rules (30_encoding.md): decoding and encoding are inverse, what the decoder refuses, and which
agent may present what.
-/

namespace Sys2Proof

/-! ### The tests of the decoder -/

/-- A field of a word is zero when its bits are. -/
theorem extractLsb'_eq_zero_iff {w : Nat} (x : BitVec w) (start len : Nat) :
    x.extractLsb' start len = 0 ↔ ∀ j, start ≤ j → j < start + len → x.getLsbD j = false := by
  constructor
  · intro h j hs hl
    have hj := congrArg (fun y => y.getLsbD (j - start)) h
    simpa [show j - start < len by omega, show start + (j - start) = j by omega] using hj
  · intro h
    apply BitVec.eq_of_getLsbD_eq
    intro i hi
    simp [h (start + i) (by omega) (by omega)]

/-- ACTIVATE's argument is clean when its bits 15:1 are zero (R87). -/
theorem argClean_activate_iff (a : BitVec 16) :
    argClean 0x2#4 a = true ↔ ∀ j, 1 ≤ j → j < 16 → a.getLsbD j = false :=
  decide_eq_true_iff.trans (extractLsb'_eq_zero_iff a 1 15)

/-- RX_BYTE's argument is clean when its bits 15:8 are zero (R87). -/
theorem argClean_rxByte_iff (a : BitVec 16) :
    argClean 0x9#4 a = true ↔ ∀ j, 8 ≤ j → j < 16 → a.getLsbD j = false :=
  decide_eq_true_iff.trans (extractLsb'_eq_zero_iff a 8 8)

/-- For the codes without an argument the clean argument is zero (R87). -/
theorem argClean_iff_eq_zero {op : BitVec 4} (h : argMustBeZero op = true) (a : BitVec 16) :
    argClean op a = true ↔ a = 0 := by
  have h2 : op ≠ 0x2#4 := by rintro rfl; cases h
  have h9 : op ≠ 0x9#4 := by rintro rfl; cases h
  simp [argClean, h2, h9, h]

/-- A code that carries a frame is offered one of `arg` bytes (R83). -/
theorem frame_of_dataMatches {op : BitVec 4} {arg : BitVec 16} {data : Option Frame}
    (hop : op = 0x3#4 ∨ op = 0xC#4) (h : dataMatches op arg data = true) : ∃ d, data = some d ∧ d.length = arg.toNat := by
  simpa [dataMatches, hop] using h

/-- A code that carries no frame is offered none (R85). -/
theorem none_of_dataMatches {op : BitVec 4} {arg : BitVec 16} {data : Option Frame}
    (hop : ¬ (op = 0x3#4 ∨ op = 0xC#4)) (h : dataMatches op arg data = true) : data = none := by
  simpa [dataMatches, hop] using h

/-- The host operations and the continuations are issued by an existing context (R84). -/
theorem ctx_of_admits {p : Params} {k : OpClass} {a : Agent} (hk : k = .host ∨ k = .continuation)
    (h : k.admits p a = true) : ∃ c, a = .ctx c ∧ c < p.nCtx := by
  rcases hk with rfl | rfl <;> cases a with
  | env | irq => cases h
  | ctx c => exact ⟨c, rfl, of_decide_eq_true h⟩

/-- The reserved codes of R86. -/
theorem opClass_reserved_iff : ∀ op : BitVec 4, opClass op = .reserved ↔ op.toNat ∈ [0, 7, 10, 11] := by decide

/-- The internal codes of R84. -/
theorem opClass_internal_iff : ∀ op : BitVec 4, opClass op = .internal ↔ op.toNat = 12 ∨ op.toNat = 13 := by decide

/-- The codes that agents may present (R84). -/
theorem toNat_mem_of_opClass : ∀ op : BitVec 4, opClass op ≠ .reserved → opClass op ≠ .internal →
    op.toNat ∈ [1, 2, 3, 4, 5, 6, 8, 9, 14, 15] := by decide

/-- The codes of R87's third list. -/
theorem argMustBeZero_of_toNat_mem :
    ∀ op : BitVec 4, op.toNat ∈ [1, 4, 5, 6, 14, 15] → argMustBeZero op = true := by decide

/-- The operation code, from the number bits 31:28 spell. -/
theorem opField_of_div {w : OpWord} {op : BitVec 4} (h : w.toNat / 2 ^ 28 = op.toNat) : opField w = op :=
  BitVec.eq_of_toNat_eq ((opField_toNat w).trans h)

/-- The reserved bits are zero, from the number bits 27:16 spell. -/
theorem rsvField_of_mod {w : OpWord} (h : w.toNat / 2 ^ 16 % 2 ^ 12 = 0) : rsvField w = 0 :=
  BitVec.eq_of_toNat_eq ((rsvField_toNat w).trans h)

/-- The bits of the argument are the low bits of the word. -/
theorem getLsbD_argField (w : OpWord) {j : Nat} (hj : j < 16) : (argField w).getLsbD j = w.getLsbD j := by
  simp [argField, hj]

/-! ### What a code and an argument spell -/

/-- The rows of the opcode table (R84): the operation each code names in an offer whose argument is `arg` (R82). -/
inductive Spelled (arg : BitVec 16) (o : Offer) : BitVec 4 → Instr → Prop
  | reset : Spelled arg o 0x1#4 .reset
  | activate : Spelled arg o 0x2#4 (.activate o.agent.number (arg.getLsbD 0))
  | send : Spelled arg o 0x3#4 (.send o.agent.number (o.data.getD []))
  | sigTake : Spelled arg o 0x4#4 (.sigTake o.agent.number)
  | mbxRead : Spelled arg o 0x5#4 (.mbxRead o.agent.number)
  | txWait : Spelled arg o 0x6#4 (.txWait o.agent.number o.draw)
  | txReady : Spelled arg o 0x8#4 (.txReady arg)
  | rxByte : Spelled arg o 0x9#4 (.rxByte (arg.extractLsb' 0 8))
  | txqPush : Spelled arg o 0xC#4 (.txqPush (o.data.getD []))
  | txqPop : Spelled arg o 0xD#4 .txqPop
  | sendEnq : Spelled arg o 0xE#4 (.sendEnq o.agent.number)
  | sendIen : Spelled arg o 0xF#4 (.sendIen o.agent.number)

section
variable {p : Params} {op : BitVec 4} {arg : BitVec 16} {o : Offer} {i : Instr}

/-- One row for each test of `spell`, in its order. -/
theorem spelled_of_spell (h : spell op arg o = some i) : Spelled arg o op i := by
  simp only [spell, ite_eq_iff, Option.some.injEq, reduceCtorEq, and_false, or_false] at h
  iterate 11
    obtain ⟨rfl, rfl⟩ | ⟨-, h⟩ := h
    · constructor
  obtain ⟨rfl, rfl⟩ := h
  constructor

theorem Spelled.opcode_eq (h : Spelled arg o op i) : i.opcode = op := by
  cases h <;> rfl

theorem Spelled.opClass_ne_reserved (h : Spelled arg o op i) : opClass op ≠ .reserved := by
  cases h <;> decide

/-- The data operand of the operation is the one offered (R83). -/
theorem Spelled.dataOperand_eq (h : Spelled arg o op i) (hd : dataMatches op arg o.data = true) :
    i.dataOperand = o.data := by
  cases h with
  | send | txqPush =>
    obtain ⟨d, hd, -⟩ := frame_of_dataMatches (by decide) hd
    simp [Instr.dataOperand, hd]
  | reset | activate | sigTake | mbxRead | txWait | txReady | rxByte | txqPop | sendEnq | sendIen =>
    exact (none_of_dataMatches (by decide) hd).symm

/-- The argument of the operation is the one offered: the bits it does not use are zero, and a frame's length is the
argument (R82, R87). -/
theorem Spelled.argument_eq (h : Spelled arg o op i) (hd : dataMatches op arg o.data = true)
    (hc : argClean op arg = true) : i.argument = arg := by
  cases h with
  | activate =>
    have hz := (argClean_activate_iff arg).mp hc
    apply BitVec.eq_of_getLsbD_eq
    intro j hj
    rcases Nat.eq_zero_or_pos j with rfl | hp
    · cases arg.getLsbD 0 <;> simp [Instr.argument]
    · rw [hz j hp hj]
      cases arg.getLsbD 0 <;> simp [Instr.argument, hp.ne']
  | rxByte =>
    have hz := (argClean_rxByte_iff arg).mp hc
    apply BitVec.eq_of_getLsbD_eq
    intro j hj
    by_cases h8 : j < 8
    · simp [Instr.argument, hj, h8]
    · simp [Instr.argument, h8, hz j (by omega) hj]
  | send | txqPush =>
    obtain ⟨d, hd, hl⟩ := frame_of_dataMatches (by decide) hd
    simp [Instr.argument, hd, hl]
  | txReady => rfl
  | reset | sigTake | mbxRead | txWait | txqPop | sendEnq | sendIen =>
    exact ((argClean_iff_eq_zero rfl arg).mp hc).symm

/-- The issuer of the operation is the offering agent, which its class admits (R84). -/
theorem Spelled.issuer_eq (h : Spelled arg o op i) (ha : (opClass op).admits p o.agent = true) :
    i.issuer = o.agent := by
  cases h with
  | reset => exact (of_decide_eq_true ha : o.agent = .env).symm
  | txReady | rxByte => exact (of_decide_eq_true ha : o.agent = .irq).symm
  | activate | send | sigTake | mbxRead | txWait | sendEnq | sendIen =>
    obtain ⟨c, hc, -⟩ := ctx_of_admits (by decide) ha
    simp [Instr.issuer, hc, Agent.number]
  | txqPush | txqPop => cases ha

/-- The operation of an accepted offer is well formed: its context exists, and its frame has `arg` bytes. -/
theorem Spelled.wf (h : Spelled arg o op i) (hx : op = 0x6#4 → p.hasTxDone = true)
    (ha : (opClass op).admits p o.agent = true) (hd : dataMatches op arg o.data = true) : i.wf p = true := by
  cases h with
  | reset | txReady | rxByte => rfl
  | activate | sigTake | mbxRead | sendEnq | sendIen =>
    obtain ⟨c, hc, hlt⟩ := ctx_of_admits (by decide) ha
    simp [Instr.wf, hc, Agent.number, hlt]
  | txWait =>
    obtain ⟨c, hc, hlt⟩ := ctx_of_admits (by decide) ha
    simp [Instr.wf, hc, Agent.number, hlt, hx rfl]
  | send =>
    obtain ⟨c, hc, hlt⟩ := ctx_of_admits (by decide) ha
    obtain ⟨d, hd, hl⟩ := frame_of_dataMatches (by decide) hd
    have hfits : d.length ≤ 65535 := by have := arg.isLt; omega
    simp [Instr.wf, hc, Agent.number, hlt, hd, hfits]
  | txqPush | txqPop => cases ha

theorem Spelled.not_internal (h : Spelled arg o op i) (ha : (opClass op).admits p o.agent = true) :
    i.isInternal = false := by
  cases h with
  | reset | activate | send | sigTake | mbxRead | txWait | txReady | rxByte | sendEnq | sendIen => rfl
  | txqPush | txqPop => cases ha

end

/-! ### Decode of encode -/

/-- The encoded word of every operation is clean (R81, R82, R87). -/
theorem encodedWord_statement (i : Instr) : Laws.EncodedWord.Statement i := by
  cases i with
  | reset => exact Laws.EncodedWord.reset
  | activate c r => exact Laws.EncodedWord.activate c r
  | send c d => exact Laws.EncodedWord.send c d
  | sigTake c => exact Laws.EncodedWord.sigTake c
  | mbxRead c => exact Laws.EncodedWord.mbxRead c
  | txWait c t => exact Laws.EncodedWord.txWait c t
  | txReady k => exact Laws.EncodedWord.txReady k
  | rxByte b => exact Laws.EncodedWord.rxByte b
  | txqPush d => exact Laws.EncodedWord.txqPush d
  | txqPop => exact Laws.EncodedWord.txqPop
  | sendEnq c => exact Laws.EncodedWord.sendEnq c
  | sendIen c => exact Laws.EncodedWord.sendIen c

/-- Every operation is what its code and argument spell in its offer (R84). -/
theorem spell_encode (i : Instr) : spell i.opcode i.argument (encode i) = some i := by
  cases i with
  | activate c r =>
    have hr : ∀ r : Bool, (if r then 1 else 0 : BitVec 16).getLsbD 0 = r := by decide
    exact congrArg (fun r => some (Instr.activate c r)) (hr r)
  | rxByte b =>
    have hb : (b.setWidth 16).extractLsb' 0 8 = b := by
      apply BitVec.eq_of_getLsbD_eq
      intro j hj
      simp [hj, show j < 16 by omega]
    exact congrArg (fun b => some (Instr.rxByte b)) hb
  | reset | send | sigTake | mbxRead | txWait | txReady | txqPush | txqPop | sendEnq | sendIen => rfl

/-- The data operand of a well-formed operation is the one its word asks for (R83). -/
theorem dataMatches_encode {p : Params} {i : Instr} (hwf : i.wf p = true) :
    dataMatches i.opcode i.argument i.dataOperand = true := by
  have of_fits {d : Frame} (hd : Frame.fits d = true) : (BitVec.ofNat 16 d.length).toNat = d.length := by
    have := of_decide_eq_true hd
    exact Nat.mod_eq_of_lt (by omega)
  cases i with
  | send c d =>
    simp [dataMatches, Instr.opcode, Instr.argument, Instr.dataOperand, of_fits (Bool.and_eq_true_iff.mp hwf).2]
  | txqPush d => simp [dataMatches, Instr.opcode, Instr.argument, Instr.dataOperand, of_fits hwf]
  | reset | activate | sigTake | mbxRead | txWait | txReady | rxByte | txqPop | sendEnq | sendIen => rfl

/-- The class of an operation that agents may present admits its issuer (R84). -/
theorem admits_issuer {p : Params} {i : Instr} (hwf : i.wf p = true) (hi : i.isInternal = false) :
    (opClass i.opcode).admits p i.issuer = true := by
  cases i with
  | reset | txReady | rxByte => rfl
  | activate | sigTake | mbxRead | sendEnq | sendIen => exact hwf
  | send => exact (Bool.and_eq_true_iff.mp hwf).1
  | txWait => exact (Bool.and_eq_true_iff.mp hwf).2
  | txqPush | txqPop => cases hi

/-- Only TX_WAIT has the code 0x6, and it exists only with HAS_TX_DONE (R84). -/
theorem hasTxDone_of_opcode {p : Params} {i : Instr} (hwf : i.wf p = true) (h : i.opcode = 0x6#4) :
    p.hasTxDone = true := by
  cases i with
  | txWait => exact (Bool.and_eq_true_iff.mp hwf).1
  | reset | activate | send | sigTake | mbxRead | txReady | rxByte | txqPush | txqPop | sendEnq | sendIen =>
    simp [Instr.opcode] at h

/-- An offer that passes every test of R85 decodes to what it spells: the converse of `decode_ok`, a class that admits
an agent being neither reserved nor internal. -/
theorem decode_of_tests {p : Params} {o : Offer} {i : Instr} (hr : rsvField o.word = 0)
    (hx : opField o.word = 0x6#4 → p.hasTxDone = true) (ha : (opClass (opField o.word)).admits p o.agent = true)
    (hd : dataMatches (opField o.word) (argField o.word) o.data = true)
    (hc : argClean (opField o.word) (argField o.word) = true)
    (hs : spell (opField o.word) (argField o.word) o = some i) : decode p o = .ok i := by
  have hres : opClass (opField o.word) ≠ .reserved := fun h => by rw [h] at ha; cases ha
  have hint : opClass (opField o.word) ≠ .internal := fun h => by rw [h] at ha; cases ha
  have htx : ¬ (opField o.word = 0x6#4 ∧ p.hasTxDone = false) := fun ⟨h6, hf⟩ => by simp [hx h6] at hf
  simp [decode, hr, hres, hint, htx, ha, hd, hc, hs]

/-- Settles O1: the encoding passes every test of R85 and spells the operation. -/
theorem decodeEncodeAgree : Obligations.DecodeEncodeAgree := by
  intro p i hwf hi
  obtain ⟨hop, hrsv, harg, hclean⟩ := encodedWord_statement i
  apply decode_of_tests (o := encode i) hrsv <;> simp only [encode, hop, harg]
  · exact hasTxDone_of_opcode hwf
  · exact admits_issuer hwf hi
  · exact dataMatches_encode hwf
  · exact hclean
  · exact spell_encode i

/-- Settles O2: the listing decoder makes the tests of the word and the data operand alone. -/
theorem listingNamesEveryOperation : Obligations.ListingNamesEveryOperation := by
  intro p i hwf
  obtain ⟨hop, hrsv, harg, hclean⟩ := encodedWord_statement i
  have hdata : dataMatches i.opcode i.argument (encode i).data = true := dataMatches_encode hwf
  have hword : (encode i).word = encodeWord i := rfl
  simp [decodeListing, hword, hop, hrsv, harg, hclean, hdata, spell_encode i]

/-! ### Encode of decode -/

/-- Settles O3: what is spelled has the offered code, argument, issuer and data operand. -/
theorem decodedOfferIsTheEncoding : Obligations.DecodedOfferIsTheEncoding := by
  intro p o i h
  obtain ⟨hr, -, -, hx, ha, hd, hc, hs⟩ := decode_ok h
  have hsp := spelled_of_spell hs
  have hword : encodeWord i = o.word := by
    rw [encodeWord, hsp.opcode_eq, hsp.argument_eq hd hc, packWord_fields _ hr]
  refine ⟨hsp.wf hx ha hd, hsp.not_internal ha, hword, hsp.issuer_eq ha, hsp.dataOperand_eq hd, ?_⟩
  rintro c t rfl
  generalize opField o.word = op at hsp
  cases hsp
  rfl

/-- Settles O7: the issuer of what decodes is the offering agent, and each operation has one kind of issuer. -/
theorem agentsPerformTheirClassOnly : Obligations.AgentsPerformTheirClassOnly := by
  intro p o i h
  obtain ⟨hwf, hint, -, hiss, -, -⟩ := decodedOfferIsTheEncoding p o i h
  rw [← hiss]
  cases i with
  | reset => exact ⟨fun _ => rfl, nofun, nofun⟩
  | txReady | rxByte => exact ⟨nofun, fun _ => by simp, nofun⟩
  | activate | send | sigTake | mbxRead | txWait | sendEnq | sendIen =>
    refine ⟨nofun, nofun, fun c hc => ?_⟩
    cases hc
    simp_all [Instr.wf]
  | txqPush | txqPop => cases hint

/-! ### Refused words -/

/-- An offer that decodes to nothing is refused for some reason. -/
theorem decode_error_of_ne_ok {p : Params} {o : Offer} (h : ∀ i, decode p o ≠ .ok i) :
    ∃ r, decode p o = .error r := by
  cases hd : decode p o with
  | ok i => exact absurd hd (h i)
  | error r => exact ⟨r, rfl⟩

/-- A bit of the argument that is set, and is zero in the clean arguments of the word's code, refuses the word (R87). -/
theorem decode_error_of_unused_bit {p : Params} {o : Offer} {j : Nat} (hlt : j < 16) (hj : o.word.getLsbD j = true)
    (hzero : argClean (opField o.word) (argField o.word) = true → (argField o.word).getLsbD j = false) :
    ∃ r, decode p o = .error r := by
  refine decode_error_of_ne_ok fun i hi => ?_
  obtain ⟨-, -, -, -, -, -, hc, -⟩ := decode_ok hi
  rw [← getLsbD_argField o.word hlt, hzero hc] at hj
  cases hj

/-- Settles O4: the reserved bits are tested first, and the argument of what decodes is clean. -/
theorem strayBitsRefused : Obligations.StrayBitsRefused := by
  intro p o
  refine ⟨?_, ?_, ?_, ?_⟩
  · rintro ⟨j, hl, hu, hj⟩
    have hr : rsvField o.word ≠ 0 := fun h => by
      simp [(rsvField_eq_zero_iff o.word).mp h j hl hu] at hj
    exact if_pos hr
  · rintro ⟨hop, j, hl, hu, hj⟩
    refine decode_error_of_unused_bit (by omega) hj fun hc => ?_
    rw [opField_of_div (op := 0x2#4) hop, argClean_activate_iff] at hc
    exact hc j hl (by omega)
  · rintro ⟨hop, j, hl, hu, hj⟩
    refine decode_error_of_unused_bit (by omega) hj fun hc => ?_
    rw [opField_of_div (op := 0x9#4) hop, argClean_rxByte_iff] at hc
    exact hc j hl (by omega)
  · rintro ⟨hop, j, hu, hj⟩
    refine decode_error_of_unused_bit (by omega) hj fun hc => ?_
    rw [argClean_iff_eq_zero (argMustBeZero_of_toNat_mem _ (by rwa [opField_toNat]))] at hc
    rw [hc, BitVec.ofNat_eq_ofNat, BitVec.getLsbD_zero]

/-- Settles O5: a reserved code has no row in the opcode table, and the decoder tests the class next to the reserved
bits. -/
theorem reservedCodesRefused : Obligations.ReservedCodesRefused := by
  intro p o
  rw [← opField_toNat, ← opClass_reserved_iff]
  refine ⟨fun hres => ⟨?_, ?_⟩, fun hres hrsv => ?_, fun i hi => ?_⟩
  · have hs : spell (opField o.word) (argField o.word) o = none :=
      Option.eq_none_iff_forall_ne_some.mpr fun i hi => (spelled_of_spell hi).opClass_ne_reserved hres
    simp [decodeListing, hs]
  · refine decode_error_of_ne_ok fun i hi => ?_
    obtain ⟨-, hne, -⟩ := decode_ok hi
    exact hne hres
  · simp [decode, rsvField_of_mod hrsv, hres]
  · obtain ⟨-, hres, hint, -⟩ := decode_ok hi
    exact toNat_mem_of_opClass _ hres hint

/-- Settles O8: the decoder evaluated on R91's fourteen offers. -/
theorem encodingExamples : Obligations.EncodingExamples := by
  unfold Obligations.EncodingExamples
  decide

end Sys2Proof

namespace Sys2Proof.Machine

/-! ### Operations that do not fit the continuation -/

/-- A host operation is refused unless its context exists and has no continuation pending (R44, R85). -/
theorem asIssuer_of_pending {c : Nat} {op : Option WaitOp} {s : State} {k : Ctx → Res}
    (h : ∀ x, s.ctxs[c]? = some x → x.cont ≠ .none) : asIssuer c op s k = .next (s.refuse .wrongAgent) := by
  rcases asIssuer_cases (rfl : asIssuer c op s k = _) with ⟨-, he⟩ | ⟨⟨x, _, hx, hc, -, -⟩, -⟩ | ⟨x, ⟨hx, hc, -⟩, -⟩
  · exact he
  · exact absurd hc (h x hx)
  · exact absurd hc (h x hx)

/-- SEND.ENQ is refused unless its context holds an ENQ continuation (R85, R121). -/
theorem execSendEnq_of_mismatch {c : Nat} {s : State} (h : ∀ x d, s.ctxs[c]? = some x → x.cont ≠ .enq d) :
    execSendEnq c s = .next (s.refuse .wrongAgent) := by
  unfold execSendEnq
  split
  · rfl
  · rename_i x hx
    split
    · rfl
    · rfl
    · rename_i d hd
      exact absurd hd (h x d hx)

/-- SEND.IEN is refused unless its context holds the IEN continuation (R85, R122). -/
theorem execSendIen_of_mismatch {c : Nat} {s : State} (h : ∀ x, s.ctxs[c]? = some x → x.cont ≠ .ien) :
    execSendIen c s = .next (s.refuse .wrongAgent) := by
  unfold execSendIen
  split
  · rfl
  · rename_i x hx
    split
    · rfl
    · rfl
    · rename_i hc
      exact absurd hc (h x hx)

/-- Settles O16: the host operations ask for a context without a continuation, each continuation for its own. -/
theorem continuationMismatchRefused : Obligations.ContinuationMismatchRefused := by
  intro s c i hi hnone henq hien hwf
  cases i with
  | activate _ _ | send _ _ | sigTake _ | mbxRead _ =>
    cases hi
    exact asIssuer_of_pending fun x hx hc => by simpa using hnone x hx hc
  | txWait _ _ =>
    cases hi
    have hd : s.params.hasTxDone = true := (Bool.and_eq_true_iff.mp hwf).1
    exact (if_neg (by simp [hd])).trans (asIssuer_of_pending fun x hx hc => by simpa using hnone x hx hc)
  | sendEnq _ =>
    cases hi
    exact execSendEnq_of_mismatch fun x d hx hc => henq x d hx hc rfl
  | sendIen _ =>
    cases hi
    exact execSendIen_of_mismatch fun x hx hc => hien x hx hc rfl
  | reset | txReady _ | rxByte _ | txqPush _ | txqPop => cases hi

/-! ### The step -/

theorem step_of_decode {s : State} {o : Offer} {rest : List Offer} {i : Instr} (hp : s.port = o :: rest)
    (hd : decode s.params o = .ok i) : step s = exec i { s with port := rest } := by
  simp only [step, hp, hd]

/-- Settles O9: the performing branch of the step, and O1 for the encodings. -/
theorem stepPerformsTheDecodedOperation : Obligations.StepPerformsTheDecodedOperation := by
  intro s
  refine ⟨fun hp => by simp only [step, hp], fun o rest i hp hd => step_of_decode hp hd, ?_⟩
  exact fun i rest hp hwf hi => step_of_decode hp (decodeEncodeAgree s.params i hwf hi)

/-! ### Accesses that would bypass the rules -/

/-- What decodes from a word with the code of a continuation is that continuation of the offering context (R84). -/
theorem decode_continuation {p : Params} {o : Offer} {i : Instr} {c : Nat} (h : decode p o = .ok i)
    (ha : o.agent = .ctx c) :
    (opField o.word = 0xE#4 → i = .sendEnq c) ∧ (opField o.word = 0xF#4 → i = .sendIen c) := by
  obtain ⟨-, -, -, -, -, -, -, hs⟩ := decode_ok h
  have hsp := spelled_of_spell hs
  constructor <;>
  · intro hop
    rw [hop] at hsp
    cases hsp
    rw [ha]
    rfl

/-- A continuation word that does not match the continuation of its context sets the refused mark and nothing else,
whether the decoder refuses it or the meaning does. -/
theorem step_of_continuation_mismatch {s : State} {o : Offer} {rest : List Offer} {c : Nat} {x : Ctx}
    (hp : s.port = o :: rest) (ha : o.agent = .ctx c) (hx : s.ctxs[c]? = some x)
    (h : (opField o.word = 0xE#4 ∧ ∀ d, x.cont ≠ .enq d) ∨ (opField o.word = 0xF#4 ∧ x.cont ≠ .ien)) :
    ∃ r, step s = .next { s with port := rest, refused := true, last := .refused r } := by
  cases hd : decode s.params o with
  | error r => exact ⟨r, refusedWordSetsTheMarkOnly s o rest r hp hd⟩
  | ok i =>
    refine ⟨.wrongAgent, (step_of_decode hp hd).trans ?_⟩
    rcases h with ⟨hop, hc⟩ | ⟨hop, hc⟩
    · cases (decode_continuation hd ha).1 hop
      exact execSendEnq_of_mismatch fun y d hy => by cases hx.symm.trans hy; exact hc d
    · cases (decode_continuation hd ha).2 hop
      exact execSendIen_of_mismatch fun y hy => by cases hx.symm.trans hy; exact hc

/-- Settles O6: the class test for the internal codes, the mismatch rule for the continuations, and the host class,
which admits contexts alone, for the blocking operations. -/
theorem bypassingAccessesRefused : Obligations.BypassingAccessesRefused := by
  refine ⟨fun p o hop => ?_, fun s o rest c x hp ha hx h => ?_, fun p o hop ha => ?_⟩
  · rw [← opField_toNat, ← opClass_internal_iff] at hop
    refine ⟨decode_error_of_ne_ok fun i hi => ?_, fun hrsv => ?_⟩
    · obtain ⟨-, -, hne, -⟩ := decode_ok hi
      exact hne hop
    · simp [decode, rsvField_of_mod hrsv, hop]
  · refine step_of_continuation_mismatch hp ha hx ?_
    exact h.imp (.imp_left opField_of_div) (.imp_left opField_of_div)
  · have hhost : opClass (opField o.word) = .host := by
      rcases hop with hop | hop
      · rw [opField_of_div (op := 0x4#4) hop]; rfl
      · rw [opField_of_div (op := 0x6#4) hop]; rfl
    refine decode_error_of_ne_ok fun i hi => ?_
    obtain ⟨-, -, -, -, hadm, -⟩ := decode_ok hi
    rw [hhost, ha] at hadm
    cases hadm

end Sys2Proof.Machine
end

section
/-!
PROOFS. The TX queue (40_txqueue.md): the ring against a bounded first-in first-out list, the writers of the queue, and
the two internal operations.
-/

namespace Sys2Proof.Machine

/-! ### Calls on the ring and on the list -/

section
variable {p : Params} {q q' : TxQueue} {d : Frame} {fs : List Frame} {ops : List QueueOp}

theorem ringTrace_push {r : Bool} (h : q.push p d = .ok (q', r)) :
    ringTrace p (.push d :: ops) q = (ringTrace p ops q').map (Returned.pushed r :: ·) := by
  simp only [ringTrace, h]

theorem ringTrace_pop {r : Option Frame} (h : q.pop p = .ok (q', r)) :
    ringTrace p (.pop :: ops) q = (ringTrace p ops q').map (Returned.popped r :: ·) := by
  simp only [ringTrace, h]

theorem fifoTrace_push_of_room (hd : d.length ≤ p.txMax) (hn : fs.length < p.n) :
    fifoTrace p (.push d :: ops) fs = .pushed true :: fifoTrace p ops (fs ++ [d]) :=
  if_pos ⟨hd, hn⟩

theorem fifoTrace_push_of_refused (h : p.txMax < d.length ∨ fs.length = p.n) :
    fifoTrace p (.push d :: ops) fs = .pushed false :: fifoTrace p ops fs :=
  if_neg (by omega)

end

/-- A queue that holds no frame answers a pop with EMPTY and does not change (R101). -/
theorem pop_of_empty {p : Params} {q : TxQueue} (h : q.count = 0) : q.pop p = .ok (q, none) := if_pos h

theorem frames_of_empty (p : Params) {q : TxQueue} (h : q.count = 0) : q.frames p = [] :=
  List.eq_nil_of_length_eq_zero ((frames_length p q).trans h)

/-- A first push keeps the ring and the list in agreement, if they agree on the calls after it from every
invariant queue. -/
theorem QueueInv.ringTrace_push_eq {p : Params} {q : TxQueue} (h : QueueInv p q) (d : Frame) {ops : List QueueOp}
    (ih : ∀ q', QueueInv p q' → ringTrace p ops q' = .ok (fifoTrace p ops (q'.frames p))) :
    ringTrace p (.push d :: ops) q = .ok (fifoTrace p (.push d :: ops) (q.frames p)) := by
  by_cases hr : p.txMax < d.length ∨ q.count = p.n
  · rw [ringTrace_push (push_of_refused hr), ih q h, fifoTrace_push_of_refused (by rwa [frames_length])]
    rfl
  · obtain ⟨hd, hc⟩ := not_or.mp hr
    have hd : d.length ≤ p.txMax := not_lt.mp hd
    have hroom : q.count < p.n := lt_of_le_of_ne h.countLe hc
    obtain ⟨slot, hs, hp⟩ := push_of_room h hd hroom
    rw [ringTrace_push hp, ih _ (h.push hd hroom hs), frames_push h hroom,
      fifoTrace_push_of_room hd (by rwa [frames_length])]
    rfl

/-- A first pop keeps the ring and the list in agreement, if they agree on the calls after it from every
invariant queue. -/
theorem QueueInv.ringTrace_pop_eq {p : Params} {q : TxQueue} (h : QueueInv p q) {ops : List QueueOp}
    (ih : ∀ q', QueueInv p q' → ringTrace p ops q' = .ok (fifoTrace p ops (q'.frames p))) :
    ringTrace p (.pop :: ops) q = .ok (fifoTrace p (.pop :: ops) (q.frames p)) := by
  by_cases hc : q.count = 0
  · rw [ringTrace_pop (pop_of_empty hc), ih q h, frames_of_empty p hc]
    rfl
  · obtain ⟨_, d, -, -, -, -, -, hp, hframes⟩ := pop_of_held h hc
    rw [ringTrace_pop hp, ih _ (h.pop hc), hframes]
    rfl

/-- Settles O20, by induction over the calls: each keeps the queue's invariant and answers as the list of the frames
held does. -/
theorem ringIsABoundedFifo : Obligations.RingIsABoundedFifo := by
  intro p q ops _
  induction ops generalizing q with
  | nil => exact fun _ => rfl
  | cons op ops ih =>
    intro h
    cases op with
    | push d => exact h.ringTrace_push_eq d ih
    | pop => exact h.ringTrace_pop_eq ih

/-! ### The writers of the queue -/

/-- Settles O52, from what each operation may write. -/
theorem queueWriters : Obligations.QueueWriters := by
  intro s t i h hne
  have hw := congrArg State.txq (exec_writtenBy h)
  cases i with
  | sendEnq c => exact .inl ⟨c, rfl⟩
  | txReady k => exact .inr (.inl ⟨k, rfl⟩)
  | txqPush d => exact .inr (.inr (.inl ⟨d, rfl⟩))
  | txqPop => exact .inr (.inr (.inr (.inl rfl)))
  | reset => exact .inr (.inr (.inr (.inr rfl)))
  | activate | send | sigTake | mbxRead | txWait | rxByte | sendIen => exact absurd hw hne

/-! ### The internal operations -/

theorem execTxqPush_of_push {s : State} {d : Frame} {q : TxQueue} {r : Bool}
    (h : s.txq.push s.params d = .ok (q, r)) : execTxqPush d s = .next ({ s with txq := q }.done (.pushed r)) := by
  simp only [execTxqPush, h]

theorem execTxqPop_of_pop {s : State} {q : TxQueue} {r : Option Frame} (h : s.txq.pop s.params = .ok (q, r)) :
    execTxqPop s = .next ({ s with txq := q }.done (.popped r)) := by
  simp only [execTxqPop, h]

/-- Settles O18: the answer of the push on the queue, and what the bytes of its slot are after it. -/
theorem txqPushEffect : Obligations.TxqPushEffect := by
  intro s d h
  refine ⟨fun hr => execTxqPush_of_push (push_of_refused hr), fun hd hroom => ?_⟩
  obtain ⟨slot, hs, hp⟩ := push_of_room h hd hroom
  refine ⟨slot, slot.data.writeRange 0 d, hs, execTxqPush_of_push hp, fun j => ?_⟩
  simp [read_writeRange]

/-- Settles O19: the answer of the pop on the queue, whose frame is the head of the frames held. -/
theorem txqPopEffect : Obligations.TxqPopEffect := by
  intro s h
  refine ⟨fun hc => execTxqPop_of_pop (pop_of_empty hc), fun hc => ?_⟩
  obtain ⟨slot, d, hs, -, -, hlen, hbytes, hp, hframes⟩ := pop_of_held h hc
  exact ⟨slot, d, hs, execTxqPop_of_pop hp, hlen, hbytes, by rw [hframes]; rfl⟩

end Sys2Proof.Machine
end

section
/-!
PROOFS. The send port (41_send.md): the effects of SEND and its two continuations, the result of a whole call, and the
order of the committed frames on the wire.
-/

namespace Sys2Proof.Machine

/-! ### SEND's first step -/

/-- Context `c`, as `x`, may issue a SEND of `d`, which takes the fast path (R120). -/
structure TakesFastPath (c : Nat) (x : Ctx) (d : Frame) (s : State) : Prop where
  mayIssue : MayIssue c none s x
  active : s.active = true
  length : d.length ≤ s.params.txMax
  idle : s.tx.busy = false

section
variable {s : State} {c : Nat} {x : Ctx} {d : Frame}

/-- SEND before activation is refused (R204). -/
theorem execSend_of_inactive (hx : MayIssue c none s x) (ha : s.active = false) :
    execSend c d s = .next (s.refuse .notActive) :=
  (asIssuer_of_mayIssue hx).trans (if_pos ha)

/-- SEND of a frame longer than TX_MAX returns TOO_LARGE (R120, R124). -/
theorem execSend_of_tooLong (hx : MayIssue c none s x) (ha : s.active = true) (hd : s.params.txMax < d.length) :
    execSend c d s = .next (s.answer ⟨c, .tooLarge, none⟩) :=
  (asIssuer_of_mayIssue hx).trans (by simp [ha, hd])

/-- SEND's fast path: the drainer is Idle, and the frame goes in flight (R120). -/
theorem execSend_of_fastPath (h : TakesFastPath c x d s) :
    execSend c d s = .next (((s.loadTx (s.tx.buf.writeRange 0 d) d.length).setCont c x .ien).done .nothing) := by
  obtain ⟨hx, ha, hd, hb⟩ := h
  have hstore : storeBytes s.params.txMax s.tx.buf 0 d = .ok (s.tx.buf.writeRange 0 d) :=
    storeBytes_of_le (by simpa using hd)
  exact (asIssuer_of_mayIssue hx).trans (by simp [ha, not_lt.mpr hd, hb, hstore])

/-- SEND's busy path: the push is left to SEND.ENQ (R120). -/
theorem execSend_of_busy (hx : MayIssue c none s x) (ha : s.active = true) (hd : d.length ≤ s.params.txMax)
    (hb : s.tx.busy = true) :
    execSend c d s = .next ((s.setCont c x (.enq d)).done .nothing) :=
  (asIssuer_of_mayIssue hx).trans (by simp [ha, not_lt.mpr hd, hb])

/-! ### The continuations -/

/-- SEND.ENQ answers with what the push of the pending frame answers (R121). -/
theorem execSendEnq_of_push (hx : s.ctxs[c]? = some x) (hc : x.cont = .enq d) {q : TxQueue} {b : Bool}
    (hp : s.txq.push s.params d = .ok (q, b)) :
    execSendEnq c s = .next (({ s with txq := q }.setCont c x .none).answer
      ⟨c, if b then .ok else .queueFull, none⟩) := by
  simp only [execSendEnq, hx, hc, hp]

/-- SEND.IEN enables the interrupt source (R122). -/
theorem execSendIen_of_pending (hx : s.ctxs[c]? = some x) (hc : x.cont = .ien) :
    execSendIen c s = .next (({ s with txIe := true }.setCont c x .none).answer ⟨c, .ok, none⟩) := by
  simp only [execSendIen, hx, hc]

end

/-- Settles O13: the four branches of SEND, and what the bytes of the in-flight buffer are after the fast path. -/
theorem sendFirstStep : Obligations.SendFirstStep := by
  intro s c x d hx hc hw
  have hmay : MayIssue c none s x := ⟨hx, hc, .inl hw⟩
  refine ⟨execSend_of_inactive hmay, execSend_of_tooLong hmay, fun ha hd hb => ?_, execSend_of_busy hmay⟩
  exact ⟨_, execSend_of_fastPath ⟨hmay, ha, hd, hb⟩, fun j => by simp [read_writeRange]⟩

/-- Settles O14: the answer of the push on the queue, and what the bytes of its slot are after it. -/
theorem sendEnqEffect : Obligations.SendEnqEffect := by
  intro s c x d hq hx hc hd
  refine ⟨fun hfull => execSendEnq_of_push hx hc (push_of_refused (.inr hfull)), fun hroom => ?_⟩
  obtain ⟨slot, hs, hp⟩ := push_of_room hq hd hroom
  exact ⟨slot, _, s.txq.pushed s.params d slot, hs, rfl, execSendEnq_of_push hx hc hp,
    fun j => by simp [read_writeRange], frames_push hq hroom⟩

/-- Settles O15: the pending branch of SEND.IEN. -/
theorem sendIenEffect : Obligations.SendIenEffect :=
  fun _ _ _ => execSendIen_of_pending

/-! ### A whole call -/

section
variable {s t : State} {c : Nat} {d : Frame}

/-- A SEND that returns a result at its first step is the whole call (R90). -/
theorem sendStar_of_returned (h : exec (.send c d) s = .next t) (hl : t.last ≠ .completed .nothing) :
    sendStar c d s = .next t := by
  simp only [sendStar, h, if_neg hl]

/-- A SEND that leaves a continuation is followed by it (R90). -/
theorem sendStar_of_pending {i : Instr} (h : exec (.send c d) s = .next t) (hl : t.last = .completed .nothing)
    (hi : pendingStep c t = some i) : sendStar c d s = exec i t := by
  simp only [sendStar, h, if_pos hl, hi]

/-- The call `SEND* d` of context `c` in `s` ends with the one result `r` returned to `c` and no continuation left. -/
def CallReturns (c : Nat) (d : Frame) (s : State) (r : Result) : Prop :=
  ∃ t, sendStar c d s = .next t ∧ t.replies = s.replies ++ [⟨c, r, none⟩] ∧ t.ctxs[c]?.map Ctx.cont = some .none

theorem pendingStep_of_enq {x : Ctx} {f : Frame} (hx : s.ctxs[c]? = some x) (hc : x.cont = .enq f) :
    pendingStep c s = some (.sendEnq c) := by
  simp only [pendingStep, hx, hc]

theorem pendingStep_of_ien {x : Ctx} (hx : s.ctxs[c]? = some x) (hc : x.cont = .ien) :
    pendingStep c s = some (.sendIen c) := by
  simp only [pendingStep, hx, hc]

/-- The context as a write of its continuation leaves it. -/
theorem cont_of_set {cs : List Ctx} {x : Ctx} (k : Cont) (hx : cs[c]? = some x) :
    (cs.set c { x with cont := k })[c]?.map Ctx.cont = some k := by
  rw [getElem?_set_of_some _ hx]
  rfl

theorem callReturns_of_tooLong {x : Ctx} (hx : MayIssue c none s x) (ha : s.active = true)
    (hd : s.params.txMax < d.length) : CallReturns c d s .tooLarge := by
  have ⟨hctx, hc, _⟩ := hx
  exact ⟨_, sendStar_of_returned (execSend_of_tooLong hx ha hd) nofun, rfl, by simp [hctx, hc]⟩

/-- The fast path: SEND.IEN returns OK (R122). -/
theorem callReturns_of_fastPath {x : Ctx} (h : TakesFastPath c x d s) : CallReturns c d s .ok := by
  have ⟨hx, _, _⟩ := h.mayIssue
  have hctx : (s.ctxs.set c { x with cont := .ien })[c]? = some { x with cont := .ien } := getElem?_set_of_some _ hx
  exact ⟨_, (sendStar_of_pending (execSend_of_fastPath h) rfl (pendingStep_of_ien hctx rfl)).trans
    (execSendIen_of_pending hctx rfl), rfl, cont_of_set _ hctx⟩

/-- The busy path: SEND.ENQ returns what the push answers (R121). -/
theorem callReturns_of_busy {x : Ctx} (hx : MayIssue c none s x) (ha : s.active = true)
    (hd : d.length ≤ s.params.txMax) (hb : s.tx.busy = true) {q : TxQueue} {b : Bool}
    (hp : s.txq.push s.params d = .ok (q, b)) : CallReturns c d s (if b then .ok else .queueFull) := by
  have ⟨hold, _, _⟩ := hx
  have hctx : (s.ctxs.set c { x with cont := .enq d })[c]? = some { x with cont := .enq d } :=
    getElem?_set_of_some _ hold
  exact ⟨_, (sendStar_of_pending (execSend_of_busy hx ha hd hb) rfl (pendingStep_of_enq hctx rfl)).trans
    (execSendEnq_of_push hctx rfl hp), rfl, cont_of_set _ hctx⟩

end

/-- Settles O17, by the paths of a SEND: too long, drainer Idle, queue full, and room in the queue. -/
theorem sendCallReturnsOnce : Obligations.SendCallReturnsOnce := by
  intro s c x d hs ha hx hc hw
  have hmay : MayIssue c none s x := ⟨hx, hc, .inl hw⟩
  suffices h : ∃ r, CallReturns c d s r ∧ (r = .tooLarge ↔ s.params.txMax < d.length) ∧
      (r = .queueFull ↔ d.length ≤ s.params.txMax ∧ s.tx.busy = true ∧ s.txq.count = s.params.n) ∧
      (r = .tooLarge ∨ r = .queueFull ∨ r = .ok) by
    obtain ⟨r, ⟨t, hcall, hreply, hcont⟩, hlarge, hfull, hr⟩ := h
    exact ⟨t, r, hcall, hreply, hlarge, hfull, hr, hcont⟩
  by_cases hd : d.length ≤ s.params.txMax
  · cases hb : s.tx.busy with
    | false => exact ⟨.ok, callReturns_of_fastPath ⟨hmay, ha, hd, hb⟩, by simpa using hd, by simp, by simp⟩
    | true =>
      by_cases hfull : s.txq.count = s.params.n
      · have hpush := push_of_refused (p := s.params) (q := s.txq) (d := d) (.inr hfull)
        exact ⟨.queueFull, callReturns_of_busy hmay ha hd hb hpush, by simpa using hd, by simp [hd, hfull], by simp⟩
      · obtain ⟨slot, -, hpush⟩ := push_of_room hs.queue hd (lt_of_le_of_ne hs.queue.countLe hfull)
        exact ⟨.ok, callReturns_of_busy hmay ha hd hb hpush, by simpa using hd, by simp [hfull], by simp⟩
  · have hlong : s.params.txMax < d.length := not_le.mp hd
    exact ⟨.tooLarge, callReturns_of_tooLong hmay ha hlong, by simpa using hlong, by simp [hd], by simp⟩

/-! ### The order of the frames on the wire -/

/-- Two adjacent ranges read are one range. -/
theorem readRange_add {m : Memory} {i a b : Nat} {bs cs : List Byte} (hb : m.readRange i a = some bs)
    (hc : m.readRange (i + a) b = some cs) : m.readRange i (a + b) = some (bs ++ cs) := by
  rw [readRange_eq_some_iff] at hb hc ⊢
  obtain ⟨hbl, hbr⟩ := hb
  obtain ⟨hcl, hcr⟩ := hc
  refine ⟨by simp [hbl, hcl], fun j hj => ?_⟩
  by_cases hja : j < a
  · rw [List.getElem?_append_left (by omega), hbr j hja]
  · rw [List.getElem?_append_right (by omega), hbl, hcr (j - a) (by omega)]
    congr 1
    omega

section
variable {s t : State} {d : Frame}

theorem inFlightRest_of_idle (hb : s.tx.busy = false) : s.inFlightRest = [] := by
  simp [State.inFlightRest, hb]

/-- Of a frame just put in flight every byte is still to be handed over (R120, R140). -/
theorem inFlightRest_of_loaded {m : Memory}
    (h : s.tx = { buf := m.writeRange 0 d, len := d.length, pos := 0, busy := true }) : s.inFlightRest = d := by
  simp [State.inFlightRest, h, readRange_writeRange]

theorem inFlightRest_of_complete (h : s.tx.pos = s.tx.len) : s.inFlightRest = [] := by
  simp [State.inFlightRest, h, Memory.readRange]

/-- The bytes a TX_READY hands over are the first of those still to be handed over (R140). -/
theorem inFlightRest_advance (hs : BlockInv s) (hb : s.tx.busy = true) {k : BitVec 16} {bs : List Byte}
    (hbs : s.tx.buf.readRange s.tx.pos (s.tx.accept k) = some bs)
    (ht : t.tx = { s.tx with pos := s.tx.pos + s.tx.accept k }) : s.inFlightRest = bs ++ t.inFlightRest := by
  have hle : s.tx.pos + s.tx.accept k ≤ s.tx.len := pos_add_accept_le hs.tx.posLe k
  obtain ⟨cs, hcs⟩ := readRange_of_filled s.tx.buf (s.tx.len - (s.tx.pos + s.tx.accept k))
    (s.tx.pos + s.tx.accept k) fun j hj => hs.tx.filled hb _ (by omega)
  have hall := readRange_add hbs hcs
  rw [show s.tx.accept k + (s.tx.len - (s.tx.pos + s.tx.accept k)) = s.tx.len - s.tx.pos by omega] at hall
  simp [State.inFlightRest, ht, hb, hall, hcs]

/-- An Idle drainer with an empty queue has nothing to hand over. -/
theorem wireStream_of_idle (hn : s.NoStranded) (hb : s.tx.busy = false) : s.wireStream = s.wireTx := by
  simp [State.wireStream, inFlightRest_of_idle hb, frames_of_empty _ (hn hb)]

/-- The frame `f`, if there is one, is committed between `s` and `t`: what is handed over and still to be handed over is
as before and then `f`, and no frame is stranded (R125). -/
structure CommitsInOrder (f : Option Frame) (s t : State) : Prop where
  noStranded : t.NoStranded
  stream : t.wireStream = s.wireStream ++ f.toList.flatten

/-- What writes neither the wire, the in-flight frame nor the queue commits nothing. -/
theorem CommitsInOrder.of_kept (hn : s.NoStranded) (hwire : t.wireTx = s.wireTx) (htx : t.tx = s.tx)
    (hq : t.txq = s.txq) (hp : t.params = s.params) : CommitsInOrder none s t := by
  refine ⟨?_, ?_⟩
  · rwa [State.NoStranded, htx, hq]
  · simp [State.wireStream, State.inFlightRest, hwire, htx, hq, hp]

/-- A frame that completes is followed by the oldest queued one, or by Idle with an empty queue (R140). -/
theorem completeFrame_commitsInOrder (hq : QueueInv s.params s.txq) (hpos : s.tx.pos = s.tx.len)
    (h : completeFrame s = .next t) : CommitsInOrder none s t := by
  have hs : s.wireStream = s.wireTx ++ (s.txq.frames s.params).flatten := by
    simp [State.wireStream, inFlightRest_of_complete hpos]
  rcases completeFrame_cases h with ⟨hc, rfl⟩ | ⟨hc, slot, d, hslot, -, hd, -, rfl⟩
  · have hn : ((s.giveTxDone.goIdle).done .nothing).NoStranded := fun _ => by rwa [giveTxDone_eq]
    refine ⟨hn, ?_⟩
    rw [wireStream_of_idle hn rfl, hs, frames_of_empty _ hc, giveTxDone_eq]
    simp
  · obtain ⟨slot', d', hslot', -, hd', -, -, -, hframes⟩ := pop_of_held hq hc
    obtain rfl : slot = slot' := Option.some.inj (hslot.symm.trans hslot')
    obtain rfl : d = d' := Option.some.inj (hd.symm.trans hd')
    refine ⟨nofun, ?_⟩
    rw [State.wireStream, inFlightRest_of_loaded rfl, hs, hframes, giveTxDone_eq]
    simp [nextIndex_eq_mod hq.tailLt]

theorem execTxReady_commitsInOrder {k : BitVec 16} (hs : BlockInv s) (hn : s.NoStranded)
    (h : execTxReady k s = .next t) : CommitsInOrder none s t := by
  rcases execTxReady_cases h with ⟨-, rfl⟩ | ⟨-, -, rfl⟩ | ⟨hie, hb, bs, hbs, hr⟩
  · exact .of_kept hn rfl rfl rfl rfl
  · exact .of_kept hn rfl rfl rfl rfl
  set u : State := { s.emitWire bs with tx := { s.tx with pos := s.tx.pos + s.tx.accept k } } with hu
  have hstream : u.wireStream = s.wireStream := by
    simp [State.wireStream, inFlightRest_advance hs hb hbs (t := u) rfl, hu]
  have hun : u.NoStranded := fun hub => by simp [hu, hb] at hub
  obtain ⟨hnt, ht⟩ : CommitsInOrder none u t := by
    rcases hr with ⟨-, rfl⟩ | ⟨hpos, hf⟩
    · exact .of_kept hun rfl rfl rfl rfl
    · exact completeFrame_commitsInOrder hs.queue hpos hf
  exact ⟨hnt, by rw [ht, hstream]⟩

theorem commitOf_send_of_fastPath {c : Nat} {x : Ctx} (h : TakesFastPath c x d s) :
    commitOf (.send c d) s = some d := by
  obtain ⟨⟨hx, hc, hw⟩, ha, hd, hb⟩ := h
  have hw : x.wait = none := or_self_iff.mp hw
  simp [commitOf, hx, hc, hw, ha, hd, hb]

theorem commitOf_send_of_not_fastPath {c : Nat} (h : ¬ ∃ x, TakesFastPath c x d s) :
    commitOf (.send c d) s = none := by
  refine if_neg fun ⟨hc, hw, ha, hd, hb⟩ => h ?_
  obtain ⟨x, hx, hxc⟩ := Option.map_eq_some_iff.mp hc
  exact ⟨x, ⟨hx, hxc, .inl (by simpa [hx] using hw)⟩, ha, hd, hb⟩

theorem commitOf_sendEnq_of_enq {c : Nat} {x : Ctx} (hx : s.ctxs[c]? = some x) (hc : x.cont = .enq d) :
    commitOf (.sendEnq c) s = if s.txq.count < s.params.n then some d else none := by
  simp [commitOf, hx, hc]

theorem commitOf_sendEnq_of_mismatch {c : Nat} (h : ∀ x f, s.ctxs[c]? = some x → x.cont ≠ .enq f) :
    commitOf (.sendEnq c) s = none := by
  simp only [commitOf]
  split
  · rename_i f hf
    obtain ⟨x, hx, hc⟩ := Option.map_eq_some_iff.mp hf
    exact absurd hc (h x f hx)
  · rfl
  · rfl
  · rfl

/-- A SEND on the fast path commits a frame behind a wire that carries all frames before it; any other SEND commits
nothing (R125). -/
theorem execSend_commitsInOrder {c : Nat} (hn : s.NoStranded) (h : execSend c d s = .next t) :
    CommitsInOrder (commitOf (.send c d) s) s t := by
  by_cases hfast : ∃ x, TakesFastPath c x d s
  · obtain ⟨x, hfast⟩ := hfast
    obtain rfl := Host.Outcome.next.inj ((execSend_of_fastPath hfast).symm.trans h)
    rw [commitOf_send_of_fastPath hfast]
    refine ⟨nofun, ?_⟩
    rw [State.wireStream, inFlightRest_of_loaded rfl, wireStream_of_idle hn hfast.idle]
    simp [frames_of_empty _ (hn hfast.idle)]
  · rw [commitOf_send_of_not_fastPath hfast]
    rcases execSend_cases h with
      rfl | ⟨-, rfl⟩ | ⟨x, hx, ⟨-, rfl⟩ | ⟨-, -, rfl⟩ | ⟨ha, hd, hb, rfl⟩ | ⟨-, -, -, rfl⟩⟩
    · exact .of_kept hn rfl rfl rfl rfl
    · exact .of_kept hn rfl rfl rfl rfl
    · exact .of_kept hn rfl rfl rfl rfl
    · exact .of_kept hn rfl rfl rfl rfl
    · exact absurd ⟨x, hx, ha, hd, hb⟩ hfast
    · exact .of_kept hn rfl rfl rfl rfl

/-- A SEND.ENQ whose push succeeds commits its frame behind those held; any other commits nothing (R125). -/
theorem execSendEnq_commitsInOrder {c : Nat} (hs : BlockInv s) (hb : s.tx.busy = true)
    (h : execSendEnq c s = .next t) : CommitsInOrder (commitOf (.sendEnq c) s) s t := by
  have hn : s.NoStranded := fun hidle => by simp [hb] at hidle
  by_cases henq : ∃ x d, s.ctxs[c]? = some x ∧ x.cont = .enq d
  · obtain ⟨x, d, hx, hc⟩ := henq
    have hd : d.length ≤ s.params.txMax := by
      simpa [hc, Cont.fits] using hs.ctx.enqFits x (List.mem_of_getElem? hx)
    rw [commitOf_sendEnq_of_enq hx hc]
    by_cases hroom : s.txq.count < s.params.n
    · obtain ⟨slot, -, hp⟩ := push_of_room hs.queue hd hroom
      obtain rfl := Host.Outcome.next.inj ((execSendEnq_of_push hx hc hp).symm.trans h)
      refine ⟨fun hidle => by simp [hb] at hidle, ?_⟩
      simp [State.wireStream, State.inFlightRest, frames_push hs.queue hroom, hroom]
    · have hp := push_of_refused (d := d) (p := s.params) (.inr (le_antisymm hs.queue.countLe (not_lt.mp hroom)))
      obtain rfl := Host.Outcome.next.inj ((execSendEnq_of_push hx hc hp).symm.trans h)
      rw [if_neg hroom]
      exact .of_kept hn rfl rfl rfl rfl
  · have hmis : ∀ x f, s.ctxs[c]? = some x → x.cont ≠ .enq f := fun x f hx hc => henq ⟨x, f, hx, hc⟩
    obtain rfl := Host.Outcome.next.inj ((execSendEnq_of_mismatch hmis).symm.trans h)
    rw [commitOf_sendEnq_of_mismatch hmis]
    exact .of_kept hn rfl rfl rfl rfl

/-- Every operation of a running block commits in order, if it is no SEND.ENQ that finds the drainer Idle (R125). -/
theorem exec_commitsInOrder {i : Instr} (hs : BlockInv s) (hn : s.NoStranded) (hrun : isRunning i = true)
    (henq : isSendEnq i = true → s.tx.busy = true) (h : exec i s = .next t) :
    CommitsInOrder (commitOf i s) s t := by
  cases i with
  | reset | txqPush _ | txqPop => cases hrun
  | send c d => exact execSend_commitsInOrder hn h
  | txReady k => exact execTxReady_commitsInOrder hs hn h
  | sendEnq c => exact execSendEnq_commitsInOrder hs (henq rfl) h
  | activate | sigTake | mbxRead | txWait | rxByte | sendIen =>
    rw [exec_writtenBy h]
    exact .of_kept hn rfl rfl rfl rfl

end

/-! ### Runs -/

section
variable {i : Instr} {is : List Instr} {s u : State}

theorem execAll_cons (h : exec i s = .next u) : execAll (i :: is) s = execAll is u := by
  simp only [execAll, h]

theorem commits_cons (h : exec i s = .next u) : commits (i :: is) s = (commitOf i s).toList ++ commits is u := by
  simp only [commits, h]

theorem noIdleEnq_cons (h : exec i s = .next u) :
    noIdleEnq (i :: is) s ↔ (isSendEnq i = true → s.tx.busy = true) ∧ noIdleEnq is u := by
  simp only [noIdleEnq, h]

end

/-- The steps of a run commit in order, so the run does (R125). -/
theorem execAll_commitsInOrder {is : List Instr} {s t : State} (hs : BlockInv s) (hn : s.NoStranded)
    (hrun : ∀ i ∈ is, isRunning i = true) (henq : noIdleEnq is s) (h : execAll is s = .next t) :
    t.NoStranded ∧ t.wireStream = s.wireStream ++ (commits is s).flatten := by
  induction is generalizing s with
  | nil =>
    cases h
    exact ⟨hn, by simp [commits]⟩
  | cons i is ih =>
    obtain ⟨u, hu⟩ := exec_answers hs i
    obtain ⟨hi, his⟩ := List.forall_mem_cons.mp hrun
    obtain ⟨henqi, henqis⟩ := (noIdleEnq_cons hu).mp henq
    obtain ⟨hnu, hstream⟩ := exec_commitsInOrder hs hn hi henqi hu
    obtain ⟨hnt, ht⟩ := ih (exec_keepsInvariant hs hu) hnu his henqis ((execAll_cons hu).symm.trans h)
    exact ⟨hnt, by simp [ht, hstream, commits_cons hu]⟩

/-- Settles O24, by induction over the run: each step extends the stream of the wire by the frame it commits. -/
theorem wireFollowsCommitOrder : Obligations.WireFollowsCommitOrder := by
  intro is s t hs hn hrun henq h
  obtain ⟨hnt, ht⟩ := execAll_commitsInOrder hs hn hrun henq h
  exact ⟨hnt, ht, ⟨_, (List.append_assoc _ _ _).symm⟩⟩

end Sys2Proof.Machine
end

section
/-!
PROOFS. The TX drainer (42_tx_drainer.md): what TX_READY does in each of its cases, and that enough TX_READY events
drain the block in order.
-/

namespace Sys2Proof.Machine

/-! ### TX_READY, case by case -/

theorem give_eq_one (n : Nat) : give n = 1 := Nat.min_eq_right (Nat.le_add_left 1 n)

section
variable {s : State} {k : BitVec 16} {bs : List Byte}

/-- The defensive case: an enabled drainer that is Idle is disabled (R144). -/
theorem execTxReady_of_idle (k : BitVec 16) (hie : s.txIe = true) (hb : s.tx.busy = false) :
    execTxReady k s = .next ({ s with txIe := false }.done .nothing) := by
  simp [execTxReady, hie, hb]

/-- The bytes that TX_READY accepts are written bytes of the in-flight frame (R140, R51). -/
theorem BlockInv.load_accepted (hs : BlockInv s) (hb : s.tx.busy = true) (k : BitVec 16) :
    ∃ bs, loadBytes s.params.txMax s.tx.buf s.tx.pos (s.tx.accept k) = .ok bs ∧ bs.length = s.tx.accept k ∧
      ∀ j, j < s.tx.accept k → bs[j]? = s.tx.buf.read (s.tx.pos + j) := by
  have hle : s.tx.pos + s.tx.accept k ≤ s.tx.len := pos_add_accept_le hs.tx.posLe k
  obtain ⟨bs, hload, -, hbytes⟩ := loadBytes_of_filled (hle.trans hs.tx.lenLe)
    fun j hj => hs.tx.filled hb j (hj.trans_le hle)
  exact ⟨bs, hload, hbytes⟩

/-- TX_READY hands over the bytes it accepts, and completes the frame if they are its last (R140). -/
theorem execTxReady_of_load (hie : s.txIe = true) (hb : s.tx.busy = true)
    (hload : loadBytes s.params.txMax s.tx.buf s.tx.pos (s.tx.accept k) = .ok bs) :
    execTxReady k s =
      let u := { s.emitWire bs with tx := { s.tx with pos := s.tx.pos + s.tx.accept k } }
      if s.tx.pos + s.tx.accept k = s.tx.len then completeFrame u else .next (u.done .nothing) := by
  simp only [execTxReady, hie, hb, hload, reduceCtorEq, if_false]

/-- A frame that completes with nothing queued is followed by Idle (R140). -/
theorem completeFrame_of_empty (hc : s.txq.count = 0) :
    completeFrame s = .next { s with
      tx := { s.tx with busy := false }, txIe := false,
      txDoneSig := if s.params.hasTxDone then 1 else s.txDoneSig, last := .completed .nothing } := by
  simp only [completeFrame, giveTxDone_eq, pop_of_empty hc, give_eq_one]
  rfl

/-- A frame that completes with a frame queued is followed by that frame, from its first byte (R140). -/
theorem completeFrame_of_pop {q : TxQueue} {d : Frame} (hp : s.txq.pop s.params = .ok (q, some d))
    (hd : d.length ≤ s.params.txMax) :
    completeFrame s = .next { s with
      txq := q, tx := { buf := s.tx.buf.writeRange 0 d, len := d.length, pos := 0, busy := true },
      txDoneSig := if s.params.hasTxDone then 1 else s.txDoneSig, last := .completed .nothing } := by
  have hstore : storeBytes s.params.txMax s.tx.buf 0 d = .ok (s.tx.buf.writeRange 0 d) :=
    storeBytes_of_le (by simpa using hd)
  simp only [completeFrame, giveTxDone_eq, hp, hstore, give_eq_one]
  rfl

end

/-- Settles O22: the branches of TX_READY, and what the bytes of the in-flight buffer are after a load. -/
theorem txReadyEffect : Obligations.TxReadyEffect := by
  intro s k
  refine ⟨execTxReady_of_disabled k, execTxReady_of_idle k, fun hs hie => ?_⟩
  have hb : s.tx.busy = true := hs.tx.ieBusy hie
  obtain ⟨bs, hload, hlen, hbytes⟩ := hs.load_accepted hb k
  have hexec : exec (.txReady k) s = _ := execTxReady_of_load hie hb hload
  rw [← hlen] at hbytes hexec
  refine ⟨bs, hlen, hbytes, fun hleft => ?_, fun hdone hc => ?_, fun hdone hc => ?_⟩
  · exact hexec.trans (if_neg hleft.ne)
  · rw [hexec, hdone]
    exact (if_pos rfl).trans (completeFrame_of_empty hc)
  · obtain ⟨slot, d, -, hslot, -, hd, -, hp, hframes⟩ := pop_of_held hs.queue hc
    refine ⟨d, s.tx.buf.writeRange 0 d, by rw [hframes]; rfl, ?_, fun j => by simp [read_writeRange]⟩
    exact hexec.trans ((if_pos hdone).trans (completeFrame_of_pop hp (hd.trans_le hslot)))

/-! ### Draining -/

/-- If the drainer transmits, then it is enabled and R147's bound is at most `m` TX_READY events. -/
def State.DrainsWithin (s : State) (m : Nat) : Prop := s.tx.busy = true → s.txIe = true ∧ s.drainBound ≤ m

section
variable {s t : State} {m : Nat}

/-- R147's bound counts the event of the empty queue, so it is never 0. -/
theorem idle_of_drainsWithin_zero (h : s.DrainsWithin 0) : s.tx.busy = false :=
  Bool.eq_false_iff.mpr fun hb => Nat.not_succ_le_zero _ (h hb).2

/-- A frame that completes takes at least one event off the bound: the load of the next one moves its bytes from the
queue to the in-flight frame (R147). -/
theorem completeFrame_drainsWithin (hq : QueueInv s.params s.txq) (hie : s.txIe = true)
    (hm : s.drainBound ≤ m + 1) (h : completeFrame s = .next t) : t.DrainsWithin m := by
  by_cases hc : s.txq.count = 0
  · obtain rfl := Host.Outcome.next.inj ((completeFrame_of_empty hc).symm.trans h)
    exact nofun
  · obtain ⟨slot, d, -, hslot, -, hd, -, hp, hframes⟩ := pop_of_held hq hc
    obtain rfl := Host.Outcome.next.inj ((completeFrame_of_pop hp (hd.trans_le hslot)).symm.trans h)
    refine fun _ => ⟨hie, ?_⟩
    simp only [State.drainBound, hframes, List.map_cons, List.sum_cons] at hm ⊢
    omega

/-- A TX_READY with `k ≥ 1` takes at least one event off the bound: it hands over a byte or completes the frame
(R147). -/
theorem execTxReady_drainsWithin {k : BitVec 16} (hs : BlockInv s) (hk : k ≠ 0) (hm : s.DrainsWithin (m + 1))
    (h : execTxReady k s = .next t) : t.DrainsWithin m := by
  rcases execTxReady_cases h with ⟨hie, rfl⟩ | ⟨-, hidle, rfl⟩ | ⟨hie, hb, bs, -, hr⟩
  · exact fun hb => absurd (hm hb).1 (by simp [hie])
  · exact fun hb => absurd hb (by simp [hidle])
  have hbound := (hm hb).2
  rcases hr with ⟨hne, rfl⟩ | ⟨-, hf⟩
  · have hk : k.toNat ≠ 0 := fun h0 => hk (BitVec.eq_of_toNat_eq h0)
    refine fun _ => ⟨hie, ?_⟩
    simp only [State.drainBound, InFlight.accept, done_tx, done_txq, done_params, emitWire_txq, emitWire_params]
      at hbound hne ⊢
    have := hs.tx.posLe
    omega
  · refine completeFrame_drainsWithin (hs.advance hie k).queue hie (le_trans ?_ hbound) hf
    simp only [State.drainBound, emitWire_txq, emitWire_params]
    omega

/-- TX_READY events that suffice leave the drainer Idle with nothing queued, and the wire then carries the whole
stream (R146, R147). -/
theorem execAll_txReady_drains {ks : List (BitVec 16)} (hs : BlockInv s) (hn : s.NoStranded)
    (hks : ∀ k ∈ ks, k ≠ 0) (hm : s.DrainsWithin ks.length) :
    ∃ t, execAll (ks.map Instr.txReady) s = .next t ∧ BlockInv t ∧ t.NoStranded ∧ t.tx.busy = false ∧
      t.wireStream = s.wireStream := by
  induction ks generalizing s with
  | nil => exact ⟨s, rfl, hs, hn, idle_of_drainsWithin_zero hm, rfl⟩
  | cons k ks ih =>
    obtain ⟨hk, hks⟩ := List.forall_mem_cons.mp hks
    obtain ⟨u, hu⟩ := execTxReady_answers hs k
    obtain ⟨hnu, hstream⟩ := execTxReady_commitsInOrder hs hn hu
    obtain ⟨t, ht, hinv, hnt, hidle, hwire⟩ :=
      ih (execTxReady_keepsInvariant hs hu) hnu hks (execTxReady_drainsWithin hs hk hm hu)
    exact ⟨t, (execAll_cons (i := .txReady k) hu).trans ht, hinv, hnt, hidle, by simp [hwire, hstream]⟩

end

/-- Settles O23, by induction over the events: each keeps the stream of the wire and takes at least one off the
bound. -/
theorem drainFinishesInOrder : Obligations.DrainFinishesInOrder := by
  intro s ks hs hb hie hks hm
  have hn : s.NoStranded := fun hidle => by simp [hb] at hidle
  obtain ⟨t, ht, hinv, hnt, hidle, hwire⟩ := execAll_txReady_drains hs hn hks fun _ => ⟨hie, hm⟩
  have hdisabled : t.txIe = false := Bool.eq_false_iff.mpr fun h => by simp [hinv.tx.ieBusy h] at hidle
  exact ⟨t, ht, hidle, hdisabled, hnt hidle, (wireStream_of_idle hnt hidle).symm.trans hwire⟩

end Sys2Proof.Machine
end

section
/-!
PROOFS. The RX assembler (43_rx_assembler.md): what RX_BYTE does in each of its cases, and what a line and an overflow
give.
-/

namespace Sys2Proof.Machine

/-! ### RX_BYTE, case by case -/

theorem isTerm_of_term {b : Byte} (h : b = 0x0D ∨ b = 0x0A) : isTerm b = true := decide_eq_true h

theorem isTerm_of_not_term {b : Byte} (h : b ≠ 0x0D ∧ b ≠ 0x0A) : isTerm b = false :=
  decide_eq_false (not_or.mpr h)

/-- The assembler, toggled after a write of its buffer `m`, by its fields (R36, R167). -/
theorem toggle_setCurrent (r : RxAsm) (m : Memory) :
    (r.setCurrent m).toggle =
      { buf0 := if r.widx then r.buf0 else m, buf1 := if r.widx then m else r.buf1, widx := !r.widx, pos := 0 } := by
  unfold RxAsm.setCurrent RxAsm.toggle
  cases r.widx <;> rfl

/-- The assembler, its cursor moved after a write of its buffer `m`, by its fields (R36, R160). -/
theorem setCurrent_withPos (r : RxAsm) (m : Memory) (p : Nat) :
    { r.setCurrent m with pos := p } =
      { buf0 := if r.widx then r.buf0 else m, buf1 := if r.widx then m else r.buf1, widx := r.widx, pos := p } := by
  unfold RxAsm.setCurrent
  cases r.widx <;> rfl

/-- The buffer being filled, once `b` is stored at the cursor (R160). -/
def RxAsm.filledWith (r : RxAsm) (b : Byte) : Memory := r.current.write r.pos b

theorem read_filledWith (r : RxAsm) (b : Byte) (j : Nat) :
    (r.filledWith b).read j = if j = r.pos then some b else r.current.read j := read_write _ _ _ _

/-- The assembler, once `b` is stored at the cursor (R160). -/
def RxAsm.store (r : RxAsm) (b : Byte) : RxAsm := r.setCurrent (r.filledWith b)

@[simp] theorem store_current (r : RxAsm) (b : Byte) : (r.store b).current = r.filledWith b := setCurrent_current _ _
@[simp] theorem store_widx (r : RxAsm) (b : Byte) : (r.store b).widx = r.widx := setCurrent_widx _ _

section
variable {s : State} {b : Byte} {n : Nat}

/-- An empty line toggles the assembler alone (R163). -/
theorem finalize_zero : finalize s 0 = .next (s.toggleRx.done .nothing) := if_neg (Nat.lt_irrefl 0)

/-- A frame is delivered into the empty mailbox and signalled (R162). -/
theorem finalize_of_load {bs : List Byte} (hn : 0 < n) (hr : s.mbx.ready = false) (hcap : n ≤ s.params.rxCap)
    (hbs : s.rx.current.readRange 0 n = some bs) :
    finalize s n = .next { s with
      rx := s.rx.toggle, mbx := { data := s.mbx.data.writeRange 0 bs, len := n, ready := true }, rxSig := 1,
      last := .completed .nothing } := by
  have hlen : bs.length = n := ((readRange_eq_some_iff _ _ _ _).mp hbs).1
  have hload : loadBytes s.params.rxCap s.rx.current 0 n = .ok bs := by simp [loadBytes, hcap, hbs]
  have hstore : storeBytes s.params.rxCap s.mbx.data 0 bs = .ok (s.mbx.data.writeRange 0 bs) :=
    storeBytes_of_le (by omega)
  simp only [finalize, deliver, hn, hr, hload, hstore, if_true, State.giveRx, give_eq_one]
  rfl

/-- The delivery, byte by byte: a frame of written bytes, all other mailbox bytes kept (R162). -/
theorem finalize_of_filled (hn : 0 < n) (hr : s.mbx.ready = false) (hcap : n ≤ s.params.rxCap)
    (hf : s.rx.current.filled n) :
    ∃ md : Memory,
      finalize s n = .next { s with
        rx := s.rx.toggle, mbx := { data := md, len := n, ready := true }, rxSig := 1,
        last := .completed .nothing } ∧
      ∀ j, md.read j = if j < n then s.rx.current.read j else s.mbx.data.read j := by
  obtain ⟨bs, hbs⟩ := readRange_of_filled s.rx.current n 0 (by simpa using hf)
  obtain ⟨hlen, hbytes⟩ := (readRange_eq_some_iff _ _ _ _).mp hbs
  simp only [Nat.zero_add] at hbytes
  refine ⟨_, finalize_of_load hn hr hcap hbs, fun j => ?_⟩
  simp only [read_writeRange, Nat.zero_le, true_and, Nat.zero_add, Nat.sub_zero, hlen]
  exact ite_congr rfl (hbytes j) fun _ => rfl

/-- A frame is dropped while the mailbox is full (R162). -/
theorem finalize_of_ready (hn : 0 < n) (hr : s.mbx.ready = true) :
    finalize s n = .next ((s.emitEvent (.rxDrop n)).toggleRx.done .nothing) := by
  simp [finalize, hn, hr]

/-- A terminator finalizes the bytes before it (R161). -/
theorem execRxByte_of_term (hie : s.rxIe = true) (hpos : s.rx.pos < s.params.rxCap) (hb : isTerm b = true) :
    execRxByte b s = finalize { s with rx := s.rx.store b } s.rx.pos := by
  simp only [execRxByte, hie, not_le.mpr hpos, hb, reduceCtorEq, if_false, if_true, Nat.add_sub_cancel]
  rfl

/-- Another byte that leaves room is stored (R160). -/
theorem execRxByte_of_room (hie : s.rxIe = true) (hpos : s.rx.pos + 1 < s.params.rxCap) (hb : isTerm b = false) :
    execRxByte b s =
      .next { s with rx := { s.rx.store b with pos := s.rx.pos + 1 }, last := .completed .nothing } := by
  simp only [execRxByte, hie, show ¬ s.params.rxCap ≤ s.rx.pos by omega, hpos.ne, hb, reduceCtorEq, if_false]
  rfl

/-- The byte that fills the buffer is an overflow, without RX_FULL_DELIVERS (R164). -/
theorem execRxByte_of_overflow (hie : s.rxIe = true) (hpos : s.rx.pos + 1 = s.params.rxCap) (hb : isTerm b = false)
    (hfull : s.params.rxFullDelivers = false) :
    execRxByte b s = .next { s with
      rx := (s.rx.store b).toggle, events := s.events ++ [.rxOverflow], last := .completed .nothing } := by
  simp only [execRxByte, hie, show ¬ s.params.rxCap ≤ s.rx.pos by omega, hpos, hb, hfull, reduceCtorEq, if_false,
    if_true]
  rfl

/-- The byte that fills the buffer finalizes it, with RX_FULL_DELIVERS (R165). -/
theorem execRxByte_of_full (hie : s.rxIe = true) (hpos : s.rx.pos + 1 = s.params.rxCap) (hb : isTerm b = false)
    (hfull : s.params.rxFullDelivers = true) :
    execRxByte b s = finalize { s with rx := s.rx.store b } s.params.rxCap := by
  simp only [execRxByte, hie, show ¬ s.params.rxCap ≤ s.rx.pos by omega, hpos, hb, hfull, reduceCtorEq, if_false,
    if_true]
  rfl

end

/-! ### What the bytes of a line leave in the buffer -/

/-- `bs` are the bytes of the unfinished frame (R37). -/
structure RxAsm.Holds (r : RxAsm) (bs : List Byte) : Prop where
  pos : r.pos = bs.length
  bytes : r.current.readRange 0 bs.length = some bs

/-- At a frame start no byte is held. -/
theorem RxAsm.holds_nil {r : RxAsm} (h : r.pos = 0) : r.Holds [] := ⟨h, rfl⟩

/-- A write at the end of a range read from index 0 leaves the range and puts its byte after it. -/
theorem readRange_write_end {m : Memory} {bs : List Byte} (h : m.readRange 0 bs.length = some bs) (b : Byte) :
    (m.write bs.length b).readRange 0 bs.length = some bs ∧
    (m.write bs.length b).readRange 0 (bs.length + 1) = some (bs ++ [b]) := by
  have hkept : (m.write bs.length b).readRange 0 bs.length = some bs := by
    rw [readRange_eq_some_iff] at h ⊢
    exact ⟨rfl, fun j hj => by rw [read_write, if_neg (by omega), h.2 j hj]⟩
  have hlast : (m.write bs.length b).readRange (0 + bs.length) 1 = some [b] := by
    simp [Memory.readRange, read_write]
  exact ⟨hkept, readRange_add hkept hlast⟩

section
variable {r : RxAsm} {bs : List Byte}

/-- A byte stored leaves the bytes held in place (R160). -/
theorem RxAsm.Holds.store_bytes (h : r.Holds bs) (b : Byte) :
    (r.store b).current.readRange 0 bs.length = some bs := by
  rw [store_current, filledWith, h.pos]
  exact (readRange_write_end h.bytes b).1

/-- A byte stored is held once the cursor has moved (R160). -/
theorem RxAsm.Holds.store (h : r.Holds bs) (b : Byte) :
    { r.store b with pos := r.pos + 1 : RxAsm }.Holds (bs ++ [b]) := by
  refine ⟨by simp [h.pos], ?_⟩
  have hcur : { r.store b with pos := r.pos + 1 : RxAsm }.current = r.current.write bs.length b := by
    rw [← h.pos]
    exact store_current r b
  rw [hcur, List.length_append]
  exact (readRange_write_end h.bytes b).2

end

/-! ### The runs of RX_BYTE -/

theorem execAll_append {is js : List Instr} {s u : State} (h : execAll is s = .next u) :
    execAll (is ++ js) s = execAll js u := by
  induction is generalizing s with
  | nil =>
    cases h
    rfl
  | cons i is ih =>
    simp only [List.cons_append, execAll] at h ⊢
    split at h
    · exact ih h
    · cases h
    · cases h

section
variable {s u : State} {text rest : List Byte} {b e : Byte}

theorem rxBytes_append (h : rxBytes text s = .next u) : rxBytes (text ++ rest) s = rxBytes rest u := by
  unfold rxBytes
  rw [List.map_append]
  exact execAll_append h

theorem rxBytes_singleton (h : execRxByte b s = .next u) : rxBytes [b] s = .next u :=
  execAll_cons (i := .rxByte b) h

/-- Bytes without a terminator that leave room are held after those held before, and nothing but the assembler
changes (R160). -/
theorem rxBytes_of_room {bs : List Byte} (hie : s.rxIe = true) (hbs : s.rx.Holds bs)
    (htext : ∀ b ∈ text, b ≠ 0x0D ∧ b ≠ 0x0A) (hroom : bs.length + text.length < s.params.rxCap) :
    ∃ r l, rxBytes text s = .next { s with rx := r, last := l } ∧ r.widx = s.rx.widx ∧ r.Holds (bs ++ text) := by
  induction text generalizing s bs with
  | nil => exact ⟨s.rx, s.last, rfl, rfl, by simpa using hbs⟩
  | cons b text ih =>
    obtain ⟨hb, htext⟩ := List.forall_mem_cons.mp htext
    rw [List.length_cons] at hroom
    have hstep := execRxByte_of_room hie (by rw [hbs.pos]; omega) (isTerm_of_not_term hb)
    obtain ⟨r, l, hrun, hwidx, hr⟩ := ih
      (s := { s with rx := { s.rx.store b with pos := s.rx.pos + 1 }, last := .completed .nothing }) hie (hbs.store b) htext
      (by simp only [List.length_append, List.length_singleton]; omega)
    exact ⟨r, l, (execAll_cons (i := .rxByte b) hstep).trans hrun, hwidx.trans (store_widx _ _), by simpa using hr⟩

/-- A terminator at a frame start toggles the assembler and changes nothing else (R163). -/
theorem rxBytes_emptyLine (hie : s.rxIe = true) (hcap : 0 < s.params.rxCap) (hpos : s.rx.pos = 0)
    (he : e = 0x0D ∨ e = 0x0A) :
    ∃ r, rxBytes [e] s = .next { s with rx := r, last := .completed .nothing } ∧ r.pos = 0 ∧ r.widx = !s.rx.widx := by
  have hstep := execRxByte_of_term hie (hpos ▸ hcap) (isTerm_of_term he)
  rw [hpos, finalize_zero] at hstep
  exact ⟨_, rxBytes_singleton hstep, rfl, congrArg not (store_widx _ _)⟩

/-- A payload and its terminator are delivered into the empty mailbox, and nothing but the assembler, the mailbox and
the signal changes (R161, R162). -/
theorem rxBytes_line (hie : s.rxIe = true) (hpos : s.rx.pos = 0) (hr : s.mbx.ready = false)
    (htext : ∀ b ∈ text, b ≠ 0x0D ∧ b ≠ 0x0A) (hne : text ≠ []) (hlen : text.length < s.params.rxCap)
    (he : e = 0x0D ∨ e = 0x0A) :
    ∃ r, rxBytes (text ++ [e]) s = .next { s with
        rx := r, mbx := { data := s.mbx.data.writeRange 0 text, len := text.length, ready := true }, rxSig := 1,
        last := .completed .nothing } ∧
      r.pos = 0 ∧ r.widx = !s.rx.widx := by
  obtain ⟨r, l, hrun, hwidx, hheld⟩ := rxBytes_of_room hie (RxAsm.holds_nil hpos) htext (by simpa using hlen)
  rw [List.nil_append] at hheld
  have hstep := execRxByte_of_term (s := { s with rx := r, last := l }) hie (hheld.pos.trans_lt hlen)
    (isTerm_of_term he)
  have hfinal := finalize_of_load (s := { s with rx := r.store e, last := l }) (List.length_pos_iff.mpr hne) hr
    hlen.le (hheld.store_bytes e)
  rw [← hheld.pos] at hfinal
  rw [rxBytes_append hrun, ← hwidx, ← hheld.pos]
  exact ⟨_, rxBytes_singleton (hstep.trans hfinal), rfl, congrArg not (store_widx _ _)⟩

/-- A buffer filled without a terminator is an overflow: nothing but the assembler and the events changes (R164). -/
theorem rxBytes_overflow (hie : s.rxIe = true) (hpos : s.rx.pos = 0) (hfull : s.params.rxFullDelivers = false)
    (htext : ∀ b ∈ text, b ≠ 0x0D ∧ b ≠ 0x0A) (hne : text ≠ []) (hlen : text.length = s.params.rxCap) :
    ∃ r, rxBytes text s = .next { s with
        rx := r, events := s.events ++ [.rxOverflow], last := .completed .nothing } ∧
      r.pos = 0 ∧ r.widx = !s.rx.widx := by
  obtain ⟨init, b, rfl⟩ := (List.eq_nil_or_concat' text).resolve_left hne
  obtain ⟨hinit, hb⟩ := List.forall_mem_append.mp htext
  rw [List.length_append, List.length_singleton] at hlen
  obtain ⟨r, l, hrun, hwidx, hheld⟩ := rxBytes_of_room hie (RxAsm.holds_nil hpos) hinit
    (by simp only [List.length_nil]; omega)
  have hstep := execRxByte_of_overflow (s := { s with rx := r, last := l }) hie (by simpa [hheld.pos] using hlen)
    (isTerm_of_not_term (hb b (List.mem_singleton_self b))) hfull
  rw [rxBytes_append hrun, ← hwidx]
  exact ⟨_, rxBytes_singleton hstep, rfl, congrArg not (store_widx _ _)⟩

end

/-- A mailbox just filled holds the frame written into it (R162). -/
theorem mailboxFrame_of_written {s : State} {m : Memory} {d : Frame}
    (h : s.mbx = { data := m.writeRange 0 d, len := d.length, ready := true }) : s.mailboxFrame = some d := by
  simp [State.mailboxFrame, h, readRange_writeRange]

/-- Settles O31: a line delivers its payload, and every terminator at a frame start is an empty line. -/
theorem lineGivesExactlyOneFrame : Obligations.LineGivesExactlyOneFrame := by
  intro s text e f hs hie hpos he hf
  have hcap := hs.rxCap_pos
  refine ⟨?_, fun htext hne hlen hready => ?_⟩
  · obtain ⟨r, hrun, hrpos, hrwidx⟩ := rxBytes_emptyLine hie hcap hpos he
    obtain ⟨r', hrun', hrpos', hrwidx'⟩ :=
      rxBytes_emptyLine (s := { s with rx := r, last := .completed .nothing }) hie hcap hrpos hf
    exact ⟨_, (rxBytes_append hrun).trans hrun', rfl, rfl, rfl, hrpos', by simp [hrwidx', hrwidx]⟩
  · obtain ⟨r, hrun, hrpos, hrwidx⟩ := rxBytes_line hie hpos hready htext hne hlen he
    refine ⟨⟨_, hrun, mailboxFrame_of_written rfl, rfl, rfl, rfl, hrpos, hrwidx⟩, ?_⟩
    obtain ⟨r', hrun', hrpos', hrwidx'⟩ :=
      rxBytes_emptyLine (s := { s with rx := r, mbx := _, rxSig := 1, last := _ }) hie hcap hrpos hf
    rw [List.append_cons]
    exact ⟨_, (rxBytes_append hrun).trans hrun', mailboxFrame_of_written rfl, rfl, rfl, rfl, hrpos',
      by simp [hrwidx', hrwidx]⟩

/-- Settles O32: the overflow leaves the assembler at a frame start with the mailbox still empty, where a line is
delivered. -/
theorem overflowThenRecovery : Obligations.OverflowThenRecovery := by
  intro s long text e hs hfull hie hpos hready hllen hlong htext hne hlen he
  have hlne : long ≠ [] := List.length_pos_iff.mp (hllen ▸ hs.rxCap_pos)
  obtain ⟨r, hrun, hrpos, hrwidx⟩ := rxBytes_overflow hie hpos hfull hlong hlne hllen
  obtain ⟨r', hrun', -, -⟩ :=
    rxBytes_line (s := { s with rx := r, events := _, last := _ }) hie hrpos hready htext hne hlen he
  exact ⟨_, _, hrun, rfl, rfl, rfl, hrpos, hrwidx, hrun', mailboxFrame_of_written rfl, rfl⟩

/-! ### The effect of one RX_BYTE -/

/-- Settles O27: the disabled branch and the storing branch of RX_BYTE. -/
theorem rxByteIsStored : Obligations.RxByteIsStored := by
  intro s b
  refine ⟨execRxByte_of_disabled b, fun hie hcr hlf hroom => ⟨s.rx.filledWith b, ?_, read_filledWith s.rx b⟩⟩
  rw [← setCurrent_withPos]
  exact execRxByte_of_room hie hroom (isTerm_of_not_term ⟨hcr, hlf⟩)

/-- Settles O28: a terminator finalizes the bytes before it, which its own byte leaves as they are. -/
theorem rxTerminatorFinalizes : Obligations.RxTerminatorFinalizes := by
  intro s b hs hie hb
  refine ⟨s.rx.filledWith b, read_filledWith s.rx b, ?_⟩
  rw [← toggle_setCurrent]
  have hexec : exec (.rxByte b) s = _ := execRxByte_of_term hie hs.rx.posLt (isTerm_of_term hb)
  have hkept (j : Nat) (hj : j < s.rx.pos) : (s.rx.store b).current.read j = s.rx.current.read j := by
    rw [store_current, read_filledWith, if_neg hj.ne]
  refine ⟨fun h0 => ?_, fun hne hr => ?_, fun hne hr => hexec.trans (finalize_of_ready (Nat.pos_of_ne_zero hne) hr)⟩
  · rw [hexec, h0]
    exact finalize_zero
  · obtain ⟨md, hfinal, hmd⟩ := finalize_of_filled (s := { s with rx := s.rx.store b }) (Nat.pos_of_ne_zero hne) hr
      hs.rx.posLt.le fun j hj => hkept j hj ▸ hs.rx.filled j hj
    refine ⟨md, hexec.trans hfinal, fun j => (hmd j).trans ?_⟩
    exact ite_congr rfl (hkept j) fun _ => rfl

/-- Settles O29: the overflow branch of RX_BYTE. -/
theorem rxFullBufferOverflows : Obligations.RxFullBufferOverflows := by
  intro s b hfull hie hcr hlf hpos
  refine ⟨s.rx.filledWith b, read_filledWith s.rx b, ?_⟩
  rw [← toggle_setCurrent]
  exact execRxByte_of_overflow hie hpos (isTerm_of_not_term ⟨hcr, hlf⟩) hfull

/-- Settles O30: the byte that fills the buffer finalizes all of it, its own byte included. -/
theorem rxFullBufferDelivers : Obligations.RxFullBufferDelivers := by
  intro s b hs hfull hie hcr hlf hpos
  refine ⟨s.rx.filledWith b, read_filledWith s.rx b, ?_⟩
  rw [← toggle_setCurrent]
  have hexec : exec (.rxByte b) s = _ := execRxByte_of_full hie hpos (isTerm_of_not_term ⟨hcr, hlf⟩) hfull
  have hfilled : (s.rx.store b).current.filled s.params.rxCap := by
    rw [store_current, ← hpos]
    exact write_filled_succ hs.rx.filled b
  refine ⟨fun hr => ?_, fun hr => hexec.trans (finalize_of_ready hs.rxCap_pos hr)⟩
  obtain ⟨md, hfinal, hmd⟩ := finalize_of_filled (s := { s with rx := s.rx.store b }) hs.rxCap_pos hr le_rfl hfilled
  rw [store_current] at hmd
  exact ⟨md, hexec.trans hfinal, hmd⟩

end Sys2Proof.Machine
end

section
/-!
PROOFS. The mailbox and the signals (44_mailbox.md): what SIG_TAKE, MBX_READ and TX_WAIT do in each of their cases, and
what every operation does to the frame-ready signal and to a ready mailbox.
-/

namespace Sys2Proof.Machine

/-! ### SIG_TAKE, MBX_READ and TX_WAIT, case by case -/

section
variable {s : State} {c : Nat} {x : Ctx}

/-- SIG_TAKE takes the given signal (R181). -/
theorem execSigTake_of_given (hx : MayIssue c (some .sigTake) s x) (hs : s.rxSig ≠ 0) :
    execSigTake c s = .next ((s.takeRx.setWait c x none).answer ⟨c, .ok, none⟩) :=
  (asIssuer_of_mayIssue hx).trans (if_neg hs)

/-- SIG_TAKE blocks while the signal is 0 (R181). -/
theorem execSigTake_of_notGiven (hx : MayIssue c (some .sigTake) s x) (hs : s.rxSig = 0) :
    execSigTake c s = blockIn c x .sigTake s :=
  (asIssuer_of_mayIssue hx).trans (if_pos hs)

/-- MBX_READ hands out the frame that a read of the mailbox's bytes gives (R182). -/
theorem execMbxRead_of_load (hx : MayIssue c none s x) (hr : s.mbx.ready = true) {d : Frame}
    (hd : loadBytes s.params.rxCap s.mbx.data 0 s.mbx.len = .ok d) :
    execMbxRead c s = .next ({ s with mbx := { s.mbx with ready := false } }.answer ⟨c, .ok, some d⟩) :=
  (asIssuer_of_mayIssue hx).trans (by simp only [hr, hd, if_true])

/-- MBX_READ of an empty mailbox returns EMPTY (R182). -/
theorem execMbxRead_of_empty (hx : MayIssue c none s x) (hr : s.mbx.ready = false) :
    execMbxRead c s = .next (s.answer ⟨c, .empty, none⟩) :=
  (asIssuer_of_mayIssue hx).trans (by simp only [hr, reduceCtorEq, if_false])

/-- TX_WAIT is refused where there is no TX-completion signal (R187). -/
theorem execTxWait_of_noTxDone (w : Draw) (hp : s.params.hasTxDone = false) :
    execTxWait c w s = .next (s.refuse .noTxDone) := if_pos hp

/-- TX_WAIT on an expired draw returns TIMEOUT (R187). -/
theorem execTxWait_of_expired (hp : s.params.hasTxDone = true) (hx : MayIssue c (some .txWait) s x) :
    execTxWait c .expire s = .next ((s.setWait c x none).answer ⟨c, .timeout, none⟩) :=
  (if_neg (by simp [hp])).trans (asIssuer_of_mayIssue hx)

/-- TX_WAIT takes the given signal (R187). -/
theorem execTxWait_of_given (hp : s.params.hasTxDone = true) (hx : MayIssue c (some .txWait) s x)
    (hs : s.txDoneSig ≠ 0) :
    execTxWait c .take s = .next ((s.takeTxDone.setWait c x none).answer ⟨c, .ok, none⟩) :=
  (if_neg (by simp [hp])).trans ((asIssuer_of_mayIssue hx).trans (if_neg hs))

/-- TX_WAIT blocks while the signal is 0 and the draw is TAKE (R187). -/
theorem execTxWait_of_notGiven (hp : s.params.hasTxDone = true) (hx : MayIssue c (some .txWait) s x)
    (hs : s.txDoneSig = 0) : execTxWait c .take s = blockIn c x .txWait s :=
  (if_neg (by simp [hp])).trans ((asIssuer_of_mayIssue hx).trans (if_pos hs))

end

/-! ### A ready mailbox and the frame-ready signal -/

/-- A ready mailbox stays as it is through every operation but MBX_READ and RESET (R186). -/
theorem exec_mbx_of_ready {i : Instr} {s t : State} (h : exec i s = .next t) (hs : s.mbx.ready = true)
    (hread : ∀ c, i ≠ .mbxRead c) (hreset : i ≠ .reset) : t.mbx = s.mbx := by
  rcases exec_mbx_cases h hreset with hm | ⟨-, he, -⟩ | ⟨⟨c, hc⟩, -⟩
  · exact hm
  · simp [hs] at he
  · exact absurd hc (hread c)

/-- Settles O40: the frame is read from the mailbox, which stays as it is. -/
theorem readyFrameIsKept : Obligations.ReadyFrameIsKept := by
  intro s t i hs hread hreset h
  have hm := exec_mbx_of_ready h hs hread hreset
  exact ⟨hm, by simp only [State.mailboxFrame, hm]⟩

/-- A finalization leaves the signal as it is, or leaves a ready mailbox (R162). -/
theorem finalize_rxSig {s t : State} {n : Nat} (h : finalize s n = .next t) :
    t.rxSig = s.rxSig ∨ t.mbx.ready = true := by
  rcases finalize_cases h with ⟨-, rfl⟩ | ⟨-, -, _, -, -, rfl⟩ | ⟨-, -, rfl⟩
  · exact .inl rfl
  · exact .inr rfl
  · exact .inl rfl

/-- RX_BYTE leaves the signal as it is, or leaves a ready mailbox (R162). -/
theorem execRxByte_rxSig {b : Byte} {s t : State} (h : execRxByte b s = .next t) :
    t.rxSig = s.rxSig ∨ t.mbx.ready = true := by
  rcases execRxByte_cases h with ⟨-, rfl⟩ | ⟨-, -, ⟨-, hf⟩ | ⟨-, -, ⟨-, hf⟩ | ⟨-, rfl⟩⟩ | ⟨-, -, rfl⟩⟩
  · exact .inl rfl
  · exact (finalize_rxSig hf :)
  · exact (finalize_rxSig hf :)
  · exact .inl rfl
  · exact .inl rfl

/-- SIG_TAKE leaves the signal as it is, or takes it (R181). -/
theorem execSigTake_rxSig {c : Nat} {s t : State} (h : execSigTake c s = .next t) :
    t.rxSig = s.rxSig ∨ t.rxSig = 0 := by
  rcases execSigTake_cases h with rfl | ⟨-, rfl⟩ | ⟨x, -, ⟨-, rfl⟩ | ⟨-, rfl⟩⟩
  · exact .inl rfl
  · exact .inl rfl
  · exact .inl rfl
  · exact .inr rfl

/-- Every operation but RESET leaves the signal as it is, or is a SIG_TAKE that takes it, or an RX_BYTE that leaves a
ready mailbox (R41). -/
theorem exec_rxSig_cases {i : Instr} {s t : State} (h : exec i s = .next t) (hr : i ≠ .reset) :
    t.rxSig = s.rxSig ∨ ((∃ c, i = .sigTake c) ∧ t.rxSig = 0) ∨ ((∃ b, i = .rxByte b) ∧ t.mbx.ready = true) := by
  have hw := congrArg State.rxSig (exec_writtenBy h)
  cases i with
  | reset => exact absurd rfl hr
  | sigTake c => exact (execSigTake_rxSig h).imp_right fun h0 => .inl ⟨⟨c, rfl⟩, h0⟩
  | rxByte b => exact (execRxByte_rxSig h).imp_right fun hm => .inr ⟨⟨b, rfl⟩, hm⟩
  | activate | send | mbxRead | txWait | txReady | txqPush | txqPop | sendEnq | sendIen => exact .inl hw

/-- RESET leaves the signal and the mailbox as they are, being refused, or clears the signal (R200, R201). -/
theorem execReset_keepsSignalMeansReady {s t : State} (hs : s.SignalMeansReady) (h : execReset s = .next t) :
    t.SignalMeansReady := by
  rcases execReset_cases h with ⟨-, rfl⟩ | ⟨-, rfl⟩
  · exact hs
  · exact fun h0 => absurd rfl h0

/-- Settles O38: a signal given before means a ready mailbox, which only MBX_READ and RESET empty, and a signal given by
the operation comes with one. -/
theorem signalMeansReadyKept : Obligations.SignalMeansReadyKept := by
  intro s t i hs hread h
  by_cases hreset : i = .reset
  · subst hreset
    exact execReset_keepsSignalMeansReady hs h
  · intro hsig
    rcases exec_rxSig_cases h hreset with hk | ⟨-, h0⟩ | ⟨-, hm⟩
    · rw [hk] at hsig
      have hready := hs hsig
      rwa [exec_mbx_of_ready h hready (fun c hc => hsig (hread ⟨c, hc⟩)) hreset]
    · exact absurd h0 hsig
    · exact hm

/-! ### The effects -/

/-- Settles O33: the two branches of SIG_TAKE. -/
theorem sigTakeEffect : Obligations.SigTakeEffect :=
  fun _ _ _ hx hc hw => ⟨execSigTake_of_given ⟨hx, hc, hw⟩, execSigTake_of_notGiven ⟨hx, hc, hw⟩⟩

/-- Settles O34: the two branches of MBX_READ; the bytes of a ready mailbox are written, so they can be read. -/
theorem mbxReadEffect : Obligations.MbxReadEffect := by
  intro s c x hs hx hc hw
  have hmay : MayIssue c none s x := ⟨hx, hc, .inl hw⟩
  refine ⟨fun hr => ?_, execMbxRead_of_empty hmay⟩
  obtain ⟨d, hload, -, hlen, hbytes⟩ :=
    loadBytes_of_filled (i := 0) (by simpa using hs.lenLe) (by simpa using hs.filled hr)
  exact ⟨d, hlen, by simpa using hbytes, execMbxRead_of_load hmay hr hload⟩

/-- Settles O35: the branches of TX_WAIT. -/
theorem txWaitEffect : Obligations.TxWaitEffect := by
  intro s c x w
  refine ⟨execTxWait_of_noTxDone w, fun hp hx hc hw => ?_⟩
  have hmay : MayIssue c (some .txWait) s x := ⟨hx, hc, hw⟩
  exact ⟨execTxWait_of_expired hp hmay, execTxWait_of_given hp hmay, execTxWait_of_notGiven hp hmay⟩

/-- A context not blocked in TX_WAIT is blocked in nothing, or in SIG_TAKE. -/
theorem wait_of_ne_txWait {w : Option WaitOp} (h : w ≠ some .txWait) : w = none ∨ w = some .sigTake := by
  rcases w with _ | _ | _
  · exact .inl rfl
  · exact .inr rfl
  · exact absurd rfl h

/-- Settles O39: SIG_TAKE takes the signal and ends the wait, so that its context may issue MBX_READ, which finds the
mailbox still empty. -/
theorem spuriousWakeReadsEmpty : Obligations.SpuriousWakeReadsEmpty := by
  intro s c x hx hc hw hsig hempty
  have htake := execSigTake_of_given ⟨hx, hc, wait_of_ne_txWait hw⟩ hsig
  have hread := execMbxRead_of_empty (s := (s.takeRx.setWait c x none).answer ⟨c, .ok, none⟩)
    ⟨getElem?_set_of_some { x with wait := none } hx, hc, .inl rfl⟩ hempty
  refine ⟨_, (execAll_cons (i := .sigTake c) htake).trans (execAll_cons (i := .mbxRead c) hread), ?_, rfl, rfl⟩
  exact List.append_assoc _ _ _

end Sys2Proof.Machine
end

section
/-!
PROOFS. Control (45_control.md): what RESET and ACTIVATE do in each of their cases.
-/

namespace Sys2Proof.Machine

/-! ### RESET, case by case -/

section
variable {s : State}

theorem contPending_iff : s.contPending = true ↔ ∃ x ∈ s.ctxs, x.cont ≠ .none := by
  simp [State.contPending]

theorem contPending_eq_false_iff : s.contPending = false ↔ ∀ x ∈ s.ctxs, x.cont = .none := by
  simp [State.contPending]

/-- RESET is refused while a continuation is pending (R201). -/
theorem execReset_of_pending (h : s.contPending = true) : execReset s = .next (s.refuse .resetPending) :=
  if_pos h

/-- RESET with no continuation pending puts the block at its reset values (R200). -/
theorem execReset_of_not_pending (h : s.contPending = false) : execReset s = .next (s.relaunch.done .nothing) :=
  if_neg (by simp [h])

end

/-! ### ACTIVATE, case by case -/

section
variable {s : State} {c : Nat} {x : Ctx}

/-- ACTIVATE with the device ready enables reception and answers OK (R203). -/
theorem execActivate_of_ready (hx : MayIssue c none s x) :
    execActivate c true s = .next ({ s with active := true, rxIe := true }.answer ⟨c, .ok, none⟩) :=
  (asIssuer_of_mayIssue hx).trans (if_pos rfl)

/-- ACTIVATE with the device not ready only answers NOT_READY (R203). -/
theorem execActivate_of_notReady (hx : MayIssue c none s x) :
    execActivate c false s = .next (s.answer ⟨c, .notReady, none⟩) :=
  (asIssuer_of_mayIssue hx).trans (if_neg Bool.false_ne_true)

end

/-! ### The effects -/

/-- Settles O11: the two branches of RESET; `State.relaunch` sets every element to its reset value and keeps the contexts,
which had no continuation before. -/
theorem resetEffect : Obligations.ResetEffect := by
  intro s
  refine ⟨fun h => execReset_of_pending (contPending_iff.mpr h), fun hnone => ?_⟩
  refine ⟨_, execReset_of_not_pending (contPending_eq_false_iff.mpr hnone), ?_⟩
  simpa [TxQueue.atReset, InFlight.atReset, RxAsm.atReset, Mailbox.atReset] using hnone

/-- Settles O12: the two branches of ACTIVATE. -/
theorem activateEffect : Obligations.ActivateEffect := by
  intro s c x hx hc hw
  have hmay : MayIssue c none s x := ⟨hx, hc, .inl hw⟩
  exact ⟨execActivate_of_ready hmay, execActivate_of_notReady hmay⟩

end Sys2Proof.Machine
end

section
/-!
PROOFS. Results (60_exceptions.md): what a step returns, and to whom.
-/

namespace Sys2Proof.Machine

/-- What operation `i` performed in `s` returns to contexts, with the state after it (R220, R228). -/
inductive Returns (i : Instr) (s : State) : State → Prop
  /-- No result: the record of replies is as it was. -/
  | none {t : State} (same : t.replies = s.replies) : Returns i s t
  /-- One result: the step ends by answering its issuer, in a state `u` whose record is still that of `s`. -/
  | one {u : State} {r : Reply} (issuer : i.issuer = .ctx r.ctx) (same : u.replies = s.replies) :
      Returns i s (u.answer r)

/-- Every operation returns nothing, or answers its issuer once. -/
theorem exec_returns {i : Instr} {s t : State} (h : exec i s = .next t) : Returns i s t := by
  cases i with
  | reset =>
    rcases execReset_cases h with ⟨-, rfl⟩ | ⟨-, rfl⟩
    · exact .none rfl
    · exact .none rfl
  | activate c r =>
    rcases execActivate_cases h with rfl | ⟨-, rfl⟩ | ⟨-, ⟨-, rfl⟩ | ⟨-, rfl⟩⟩
    · exact .none rfl
    · exact .none rfl
    · exact .one rfl rfl
    · exact .one rfl rfl
  | send c d =>
    rcases execSend_cases h with
      rfl | ⟨-, rfl⟩ | ⟨x, -, ⟨-, rfl⟩ | ⟨-, -, rfl⟩ | ⟨-, -, -, rfl⟩ | ⟨-, -, -, rfl⟩⟩
    · exact .none rfl
    · exact .none rfl
    · exact .none rfl
    · exact .one rfl rfl
    · exact .none rfl
    · exact .none rfl
  | sigTake c =>
    rcases execSigTake_cases h with rfl | ⟨-, rfl⟩ | ⟨x, -, ⟨-, rfl⟩ | ⟨-, rfl⟩⟩
    · exact .none rfl
    · exact .none rfl
    · exact .none rfl
    · exact .one rfl rfl
  | mbxRead c =>
    rcases execMbxRead_cases h with rfl | ⟨-, rfl⟩ | ⟨-, ⟨-, rfl⟩ | ⟨-, d, -, rfl⟩⟩
    · exact .none rfl
    · exact .none rfl
    · exact .one rfl rfl
    · exact .one rfl rfl
  | txWait c w =>
    rcases execTxWait_cases h with
      ⟨-, rfl⟩ | ⟨-, rfl | ⟨-, rfl⟩ | ⟨x, -, ⟨-, rfl⟩ | ⟨-, -, rfl⟩ | ⟨-, -, rfl⟩⟩⟩
    · exact .none rfl
    · exact .none rfl
    · exact .none rfl
    · exact .one rfl rfl
    · exact .none rfl
    · exact .one rfl rfl
  | txReady k =>
    rcases execTxReady_eventDone h with rfl | hd
    · exact .none rfl
    · exact .none hd.replies
  | rxByte b =>
    rcases execRxByte_eventDone h with rfl | hd
    · exact .none rfl
    · exact .none hd.replies
  | txqPush d =>
    obtain ⟨q, b, -, rfl⟩ := execTxqPush_cases h
    exact .none rfl
  | txqPop =>
    obtain ⟨q, r, -, rfl⟩ := execTxqPop_cases h
    exact .none rfl
  | sendEnq c =>
    rcases execSendEnq_cases h with rfl | ⟨x, d, -, -, q, b, -, rfl⟩
    · exact .none rfl
    · exact .one rfl rfl
  | sendIen c =>
    rcases execSendIen_cases h with rfl | ⟨x, -, -, rfl⟩
    · exact .none rfl
    · exact .one rfl rfl

/-- Settles O56: an answer appends its one reply to the record and is the step's end. -/
theorem atMostOneResultPerStep : Obligations.AtMostOneResultPerStep := by
  intro s t i h
  cases exec_returns h with
  | none same => exact .inl same
  | @one u r issuer same => exact .inr ⟨r, issuer, by rw [answer_replies, same], rfl⟩

end Sys2Proof.Machine
end

section
/-!
PROOFS. Reset and hazards (70_reset_and_hazards.md): the launch state meets the invariant, and what the send window does
to a frame and to the order of the wire.
-/

namespace Sys2Proof.Machine

/-! ### The launch state -/

/-- The launch state is its own RESET (R202, R250). -/
theorem relaunch_launch (p : Params) : (State.launch p).relaunch = State.launch p := rfl

/-- No context of the launch state has a continuation or waits (R50). -/
theorem eq_atReset_of_mem_launch {p : Params} {x : Ctx} (hx : x ∈ (State.launch p).ctxs) : x = Ctx.atReset :=
  List.eq_of_mem_replicate hx

theorem launch_noIen (p : Params) : (State.launch p).NoIen := fun x hx => by
  rw [eq_atReset_of_mem_launch hx]
  exact nofun

theorem CtxInv.launch (p : Params) : CtxInv (State.launch p) := by
  have hok (x : Ctx) (hx : x ∈ (State.launch p).ctxs) : CtxOk (State.launch p) x := by
    rw [eq_atReset_of_mem_launch hx]
    exact .of_idle rfl nofun
  exact .of_ctxOk List.length_replicate ((noIen_iff.mp (launch_noIen p)).trans_le zero_le_one) hok

theorem BlockInv.launch {p : Params} (hp : p.wf) : BlockInv (State.launch p) := by
  have ⟨_, _, hcap, _, _⟩ := hp
  exact
    { params := hp
      queue := .atReset hp
      tx := ⟨Nat.zero_le _, le_rfl, sound_nil _, nofun, nofun, nofun⟩
      ctx := .launch p
      rx := ⟨hcap, sound_nil _, sound_nil _, nofun, rfl⟩
      mbx := ⟨Nat.zero_le _, sound_nil _, nofun, nofun⟩
      sig := ⟨Nat.zero_le _, Nat.zero_le _, fun _ => rfl⟩ }

/-- Settles O41: each part of the invariant at its reset value; the storages are those that RESET leaves. -/
theorem launchMeetsInvariant : Obligations.LaunchMeetsInvariant :=
  fun p hp => ⟨.launch hp, relaunch_launch p ▸ State.MemWf.relaunch _, fun _ => rfl⟩

/-! ### A stranded frame -/

section
variable {s t : State}

/-- An Idle drainer is disabled (R52). -/
theorem BlockInv.disabled_of_idle (hs : BlockInv s) (hb : s.tx.busy = false) : s.txIe = false :=
  Bool.eq_false_iff.mpr fun hie => Bool.eq_false_iff.mp hb (hs.tx.ieBusy hie)

/-- A push that answers keeps the frames held at the front of the queue (R100, R103). -/
theorem QueueInv.frames_prefix_of_push {p : Params} {q q' : TxQueue} {d : Frame} {b : Bool} (h : QueueInv p q)
    (hp : q.push p d = .ok (q', b)) : q.frames p <+: q'.frames p := by
  rcases push_cases hp with ⟨-, rfl, -⟩ | ⟨-, -, hc, slot, -, rfl⟩
  · exact List.prefix_rfl
  · rw [nextIndex_eq_mod h.headLt]
    exact ⟨[d], (frames_push h (lt_of_le_of_ne h.countLe hc)).symm⟩

/-- From `s` to `t` the in-flight frame and the wire stay as they are, and so do the frames held, at the front of the
queue. -/
structure LeavesHeld (s t : State) : Prop where
  tx : t.tx = s.tx
  wireTx : t.wireTx = s.wireTx
  held : s.txq.frames s.params <+: t.txq.frames t.params

theorem LeavesHeld.of_kept (htx : t.tx = s.tx) (hwire : t.wireTx = s.wireTx) (hq : t.txq = s.txq)
    (hp : t.params = s.params) : LeavesHeld s t :=
  ⟨htx, hwire, by rw [hq, hp]⟩

theorem execSendEnq_leavesHeld {c : Nat} (hs : BlockInv s) (h : execSendEnq c s = .next t) : LeavesHeld s t := by
  rcases execSendEnq_cases h with rfl | ⟨x, d, -, -, q, b, hp, rfl⟩
  · exact .of_kept rfl rfl rfl rfl
  · exact ⟨rfl, rfl, hs.queue.frames_prefix_of_push hp⟩

/-- While the drainer is Idle, every operation of a running block but SEND leaves the held frames where they are: TX_READY
is not enabled, SEND.ENQ pushes behind them, and no other operation writes the in-flight frame, the wire or the queue
(R253). -/
theorem exec_leavesHeld_of_idle {i : Instr} (hs : BlockInv s) (hb : s.tx.busy = false) (hrun : isRunning i = true)
    (hsend : ∀ c d, i ≠ .send c d) (h : exec i s = .next t) : LeavesHeld s t := by
  cases i with
  | reset | txqPush _ | txqPop => cases hrun
  | send c d => exact absurd rfl (hsend c d)
  | txReady k =>
    obtain rfl := Host.Outcome.next.inj ((execTxReady_of_disabled k (hs.disabled_of_idle hb)).symm.trans h)
    exact .of_kept rfl rfl rfl rfl
  | sendEnq c => exact execSendEnq_leavesHeld hs h
  | activate | sigTake | mbxRead | txWait | rxByte | sendIen =>
    rw [exec_writtenBy h]
    exact .of_kept rfl rfl rfl rfl

/-- A queue that keeps the frames it holds does not become empty. -/
theorem LeavesHeld.count_le (h : LeavesHeld s t) : s.txq.count ≤ t.txq.count := by
  simpa only [frames_length] using h.held.length_le

end

/-- Settles O25: the push of the pending frame has room, and what an operation may write keeps the frames held, with the
drainer Idle and so, by the invariant, disabled. -/
theorem strandedFrameWaits : Obligations.StrandedFrameWaits := by
  refine ⟨fun s c x d hs hb hroom hx hc => ?_, fun s t i hs hb hcount hrun hsend h => ?_⟩
  · have hd : d.length ≤ s.params.txMax := by
      simpa [hc, Cont.fits] using hs.ctx.enqFits x (List.mem_of_getElem? hx)
    obtain ⟨slot, -, hp⟩ := push_of_room hs.queue hd hroom
    exact ⟨_, execSendEnq_of_push hx hc hp, rfl, hb, hs.disabled_of_idle hb, rfl, frames_push hs.queue hroom⟩
  · have hleft := exec_leavesHeld_of_idle hs hb hrun hsend h
    have hidle : t.tx.busy = false := by rw [hleft.tx, hb]
    exact ⟨hidle, (exec_keepsInvariant hs h).disabled_of_idle hidle, hcount.trans hleft.count_le, hleft.wireTx,
      hleft.held⟩

/-! ### The order of the wire -/

/-- R254's run, with A, B and C one byte each: A is in flight when B is sent, A completes before B's SEND.ENQ, and C then
takes the fast path past the stranded B. -/
def strandingRun : List Instr :=
  [.activate 0 true, .send 0 [0x41], .sendIen 0, .send 1 [0x42], .txReady 1, .sendEnq 1, .send 0 [0x43], .sendIen 0,
    .txReady 1, .txReady 1]

/-- The run commits A, B, C. -/
theorem commits_strandingRun :
    commits strandingRun (State.launch Params.reference) = [[0x41], [0x42], [0x43]] := by rfl

/-- The run is never refused, ends Idle with an empty queue, and its wire carries A, C, B (R254). -/
theorem execAll_strandingRun : ∃ t, execAll strandingRun (State.launch Params.reference) = .next t ∧
    t.tx.busy = false ∧ t.txq.count = 0 ∧ t.refused = false ∧ t.wireTx = [0x41, 0x43, 0x42] :=
  ⟨_, rfl, rfl, rfl, rfl, rfl⟩

/-- Settles O26: the run of R254 from the launch state commits A, B, C and hands over A, C, B. -/
theorem sendWindowReordersTheWire : Obligations.SendWindowReordersTheWire := by
  obtain ⟨t, hrun, hidle, hempty, hclean, hwire⟩ := execAll_strandingRun
  refine ⟨strandingRun, t, by decide, hrun, hidle, hempty, hclean, ?_⟩
  rw [hwire, commits_strandingRun]
  decide

end Sys2Proof.Machine
end
